-- ==== Sys2Proof/Word.lean ====
section
/-! DEFINITION. The word types of the PTCX quantization core and the bit fields of a word
(spec/00_scope.md R8; spec/10_state.md R30). -/

namespace Sys2Proof

/-- A byte: a channel value, a memory byte, a stream byte (R6 "channel width", R70). -/
abbrev Byte := BitVec 8

/-- A 16-bit half word: a register field such as BW, or a packed control colour (R35, R190). -/
abbrev Half := BitVec 16

/-- A 32-bit register or command word (R6 "register width", "command word width"). -/
abbrev Word := BitVec 32

/-- `v[7:0]` (R8). -/
abbrev Word.byte0 (v : Word) : Byte := v.extractLsb' 0 8

/-- `v[15:8]` (R8). -/
abbrev Word.byte1 (v : Word) : Byte := v.extractLsb' 8 8

/-- `v[23:16]` (R8). -/
abbrev Word.byte2 (v : Word) : Byte := v.extractLsb' 16 8

/-- `v[15:0]` (R8). -/
abbrev Word.half0 (v : Word) : Half := v.extractLsb' 0 16

/-- `v[31:16]` (R8). -/
abbrev Word.half1 (v : Word) : Half := v.extractLsb' 16 16

end Sys2Proof
end

