-- ==== Sys2Proof/Syntax.lean ====
section
/-! DEFINITION. The commands of the core: one constructor per row of spec/opcode_table.json
(spec/30_encoding.md R102). IMM is the unsigned integer of R101 (an index or a size code), so it is a
natural number; that it fits its 16 bits is the check of WellFormed.lean. -/

namespace Sys2Proof

inductive Instr where
  | nop
  | rangeMinmax
  | rangeLinear
  | rangeRegress
  | quantize
  | dequantize (imm : Nat)
  | dequantizeSt (imm : Nat)
  | packCtrl
  | unpackCtrl
  | packIdx (imm : Nat)
  | packFlush
  | unpackIdx
  | unpackAlign
  | sizetabClear
  | sizetabWrite (imm : Nat)
  | sizetabRead
  | sizetabLoad
  | selectMb
  | decodeMb
  | clearErr
deriving DecidableEq, Repr

/-- The OPC of a command (R102). -/
def Instr.opcode : Instr → Byte
  | .nop => 0x00
  | .rangeMinmax => 0x01
  | .rangeLinear => 0x02
  | .rangeRegress => 0x03
  | .quantize => 0x10
  | .dequantize _ => 0x11
  | .dequantizeSt _ => 0x12
  | .packCtrl => 0x20
  | .unpackCtrl => 0x21
  | .packIdx _ => 0x22
  | .packFlush => 0x23
  | .unpackIdx => 0x24
  | .unpackAlign => 0x25
  | .sizetabClear => 0x30
  | .sizetabWrite _ => 0x31
  | .sizetabRead => 0x32
  | .sizetabLoad => 0x33
  | .selectMb => 0x40
  | .decodeMb => 0x41
  | .clearErr => 0xF0

/-- The IMM of a command, for the four that take one (R102). -/
def Instr.imm? : Instr → Option Nat
  | .dequantize k => some k
  | .dequantizeSt k => some k
  | .packIdx k => some k
  | .sizetabWrite k => some k
  | .nop => none
  | .rangeMinmax => none
  | .rangeLinear => none
  | .rangeRegress => none
  | .quantize => none
  | .packCtrl => none
  | .unpackCtrl => none
  | .packFlush => none
  | .unpackIdx => none
  | .unpackAlign => none
  | .sizetabClear => none
  | .sizetabRead => none
  | .sizetabLoad => none
  | .selectMb => none
  | .decodeMb => none
  | .clearErr => none

/-- The assembler mnemonic (R102, R110). -/
def Instr.mnemonic : Instr → String
  | .nop => "NOP"
  | .rangeMinmax => "RANGE_MINMAX"
  | .rangeLinear => "RANGE_LINEAR"
  | .rangeRegress => "RANGE_REGRESS"
  | .quantize => "QUANTIZE"
  | .dequantize _ => "DEQUANTIZE"
  | .dequantizeSt _ => "DEQUANTIZE_ST"
  | .packCtrl => "PACK_CTRL"
  | .unpackCtrl => "UNPACK_CTRL"
  | .packIdx _ => "PACK_IDX"
  | .packFlush => "PACK_FLUSH"
  | .unpackIdx => "UNPACK_IDX"
  | .unpackAlign => "UNPACK_ALIGN"
  | .sizetabClear => "SIZETAB_CLEAR"
  | .sizetabWrite _ => "SIZETAB_WRITE"
  | .sizetabRead => "SIZETAB_READ"
  | .sizetabLoad => "SIZETAB_LOAD"
  | .selectMb => "SELECT_MB"
  | .decodeMb => "DECODE_MB"
  | .clearErr => "CLEAR_ERR"

/-- A command's assembler line, the immediate in decimal (R110). -/
def Instr.asm (i : Instr) : String :=
  match i.imm? with
  | none => i.mnemonic
  | some k => i.mnemonic ++ " #" ++ toString k

end Sys2Proof
end

