-- ==== Sys2Proof/WellFormed.lean ====
section
/-! DEFINITION. Well-formed commands: an IMM fits its 16-bit field (spec/30_encoding.md R100, R101).
Nothing narrower is checked here: an index above S or a size code above 2 is a legal word whose own rule
raises InvalidArgument (R103). -/

namespace Sys2Proof

/-- An immediate fits IMM = CMD[31:16] (R101: "an unsigned integer 0..65535"). -/
abbrev immFits (k : Nat) : Bool := k < 65536

/-- Every operand of the command fits its field. -/
def Instr.wf : Instr → Bool
  | .nop => true
  | .rangeMinmax => true
  | .rangeLinear => true
  | .rangeRegress => true
  | .quantize => true
  | .dequantize k => immFits k
  | .dequantizeSt k => immFits k
  | .packCtrl => true
  | .unpackCtrl => true
  | .packIdx k => immFits k
  | .packFlush => true
  | .unpackIdx => true
  | .unpackAlign => true
  | .sizetabClear => true
  | .sizetabWrite k => immFits k
  | .sizetabRead => true
  | .sizetabLoad => true
  | .selectMb => true
  | .decodeMb => true
  | .clearErr => true

end Sys2Proof
end

