-- ==== Sys2Proof/Decode.lean ====
section
/-! DEFINITION. Decoding a command word (spec/30_encoding.md R100-R104; spec/60_exceptions.md R242), total on
every 32-bit word and rejecting by name, then the encoder (R110), written from the same table. -/

namespace Sys2Proof

/-- Why a word is illegal (R103). Raised by the decoder only; the machine turns each of the three into
InvalidArgument (R242). -/
inductive Illegal where
  | unknownOpcode
  | reservedNonzero
  | immediateNonzero
deriving DecidableEq, Repr

/-- OPC, RSV and IMM of a command word (R32, R100). -/
abbrev opcOf (w : Word) : Byte := w.byte0
abbrev rsvOf (w : Word) : Byte := w.byte1
abbrev immOf (w : Word) : Half := w.half1

/-- The commands whose IMM must be 0 (R102, "must be 0"). -/
def noImmediate (imm : Nat) (i : Instr) : Except Illegal Instr :=
  if imm = 0 then .ok i else .error .immediateNonzero

/-- The opcode map (R102), given the IMM; every OPC not listed is illegal (R103). -/
def opcodeMap (opc imm : Nat) : Except Illegal Instr :=
  match opc with
  | 0x00 => noImmediate imm .nop
  | 0x01 => noImmediate imm .rangeMinmax
  | 0x02 => noImmediate imm .rangeLinear
  | 0x03 => noImmediate imm .rangeRegress
  | 0x10 => noImmediate imm .quantize
  | 0x11 => .ok (.dequantize imm)
  | 0x12 => .ok (.dequantizeSt imm)
  | 0x20 => noImmediate imm .packCtrl
  | 0x21 => noImmediate imm .unpackCtrl
  | 0x22 => .ok (.packIdx imm)
  | 0x23 => noImmediate imm .packFlush
  | 0x24 => noImmediate imm .unpackIdx
  | 0x25 => noImmediate imm .unpackAlign
  | 0x30 => noImmediate imm .sizetabClear
  | 0x31 => .ok (.sizetabWrite imm)
  | 0x32 => noImmediate imm .sizetabRead
  | 0x33 => noImmediate imm .sizetabLoad
  | 0x40 => noImmediate imm .selectMb
  | 0x41 => noImmediate imm .decodeMb
  | 0xF0 => noImmediate imm .clearErr
  | _ => .error .unknownOpcode

/-- The command a word encodes, or why it is illegal (R103). -/
def decode (w : Word) : Except Illegal Instr :=
  if rsvOf w = 0 then opcodeMap (opcOf w).toNat (immOf w).toNat
  else .error .reservedNonzero

/-- A command's word, `(IMM << 16) | OPC` with RSV = 0 (R100, R110). -/
def encode (i : Instr) : Word :=
  BitVec.ofNat 16 (i.imm?.getD 0) ++ (0#8 ++ i.opcode)

/-- The command the decoder reads from a row of spec/opcode_table.json whose bits are `w`; bits at `nbits`
and above are 0. Every command is one 32-bit word (R104), moved whole (R75). -/
def decodeTableWord (nbits w : Nat) : Option Instr :=
  match decode (BitVec.ofNat 32 (w % 2 ^ nbits)) with
  | .ok i => some i
  | .error _ => none

end Sys2Proof
end

