-- ==== Sys2Proof/Config.lean ====
section
/-! DEFINITION. What an implementation of the core fixes: the constants the source gives, the OPEN
parameters of spec/00_scope.md R6 (one record, held in State so that a claim about every state is a
claim about every choice of them), and the free values (no body) that memory nothing has written reads as. -/

namespace Sys2Proof.Config

/-- Free value: the byte PIXMEM holds at an address that nothing has written since power-up
(spec/20_memory.md R73 "an unconstrained draw"; spec/93_implementation_defined.md I9). A constant of
the address, because reading is idempotent (R78) and reset does not change PIXMEM (R271). -/
opaque pixmemDraw : Nat → BitVec 8

/-- Free value: the byte TAB holds, after the reset numbered by the first argument, at an address that
nothing has written since that reset (spec/70_reset_and_hazards.md R271 "draws each byte freely"; I8). -/
opaque tabDraw : Nat → Nat → BitVec 8

/-- The only legal QCB (R6: "only 16 is supported"). -/
abbrev legalQcb : Nat := 16

/-- The legal values of QSB (R6, 90_conflicts.md C3). -/
abbrev legalQsb : List Nat := [1, 2, 4, 8]

/-- `MIN_MB`, the least microblock side (R6). -/
abbrev minMicro : Nat := 2

/-- The image dimension granule (R6). -/
abbrev granule : Nat := 16

/-- `QUANT_ARITH` (R6, R152, 92_eei_decisions.md D11). -/
inductive QuantArith where
  | real   -- EXACT: the formula over the reals
  | f64    -- IEEE 754 binary64
  | f32    -- IEEE 754 binary32
deriving DecidableEq, Repr

/-- `ENC_QUANT_RANGE` (R6, R171, 92_eei_decisions.md D18). -/
inductive EncRange where
  | unpacked   -- EXACT: the estimator's own range
  | packed     -- PACKED: the range the 5:6:5 control words give back
deriving DecidableEq, Repr

/-- The OPEN parameters of R6. No command, host access or reset changes them. -/
structure Params where
  /-- `MAX_BLOCK_DIM` (D7) -/
  maxBlockDim : Nat
  /-- `PIXMEM_CAP`, bytes (D8) -/
  pixmemCap : Nat
  /-- `SIZETAB_CAP`, bytes (D8) -/
  sizetabCap : Nat
  /-- `MSE_THRESHOLD` is the rational `mseNum / mseDen` (D19) -/
  mseNum : Nat
  mseDen : Nat
  /-- `QUANT_ARITH` (D11) -/
  quantArith : QuantArith
  /-- `ENC_QUANT_RANGE` (D18) -/
  encRange : EncRange
  /-- `ENABLE_ALT_ESTIMATORS` (D20) -/
  altEstimators : Bool
  /-- `CORE_BASE`, the platform address of the register window (D2) -/
  coreBase : Nat
deriving DecidableEq, Repr

/-- The defaults of R6; for `CORE_BASE`, which has none there, address 0 (assumption log entry 1). -/
def Params.default : Params where
  maxBlockDim := 16
  pixmemCap := 65536
  sizetabCap := 256
  mseNum := 64
  mseDen := 1
  quantArith := .real
  encRange := .unpacked
  altEstimators := false
  coreBase := 0

end Sys2Proof.Config
end

