-- ==== Sys2Proof/Machine/State.lean ====
section
/-! DEFINITION. The state of the core as plain data (spec/10_state.md R30, spec/20_memory.md R70), the error
kinds (spec/60_exceptions.md R240), the host's moves (R84, R111, R270), and the reset state (R270, R271).
A register is held by its fields, so that its reserved bits, which read 0 and ignore writes (R31), need no storage. -/

namespace Sys2Proof.Machine

/-- A pixel: three 8-bit channels (R10). -/
structure Pixel where
  c0 : Byte
  c1 : Byte
  c2 : Byte
deriving DecidableEq, Repr

/-- A range: the pair (mn, mx) of pixels (R10, the source's PixelRange). -/
structure Range where
  mn : Pixel
  mx : Pixel
deriving DecidableEq, Repr

/-- The four error kinds; ERRCODE 0 is "no error recorded" and 5-7 are never produced (R240, I4). -/
inductive ErrKind where
  | invalidArgument
  | invalidResource
  | executionFailure
  | outOfMemory
deriving DecidableEq, Repr

/-- PIXMEM and TAB: the bytes written so far, by strictly rising address (R71, R74). -/
abbrev Memory := List Host.Cell

/-- The output stream `OUT = (ob, ocap)` (R80). -/
structure OutStream where
  bytes : List Byte
  cap : Nat
deriving DecidableEq, Repr

/-- The input stream `IN = (ib, icur)` (R81). -/
structure InStream where
  bytes : List Byte
  cur : Nat
deriving DecidableEq, Repr

/-- One move of the world outside the core (R84, R111; `reset` is the platform's, R270). The register window
is accessed only as 32-bit words, at platform addresses (R31). -/
inductive HostOp where
  | write (addr : Nat) (v : Word)
  | read (addr : Nat)
  | pixWrite (a : Nat) (b : Byte)
  | pixRead (a : Nat)
  | tabWrite (k : Nat) (b : Byte)
  | tabRead (k : Nat)
  | outAttach (o : OutStream)
  | outRead
  | inAttach (i : InStream)
  | inRead
  | reset
deriving DecidableEq, Repr

/-- What one read by the host delivers. -/
inductive HostValue where
  | word (v : Word)
  | byte (b : Byte)
  | out (o : OutStream)
  | inp (i : InStream)
deriving DecidableEq, Repr

/-- The whole state. -/
structure State where
  /-- the OPEN parameters (R6); fixed for a machine -/
  params : Config.Params
  /-- CMD, the last command word (R32) -/
  cmd : Word
  /-- STATUS.BUSY (R33) -/
  busy : Bool
  /-- STATUS.ERRCODE, none for 0 (R33, R240) -/
  errCode : Option ErrKind
  /-- STATUS.ERROP (R33) -/
  errOp : Byte
  /-- CFG0.QSB and CFG0.QCB (R34) -/
  qsb : Byte
  qcb : Byte
  /-- CFG1.BW and CFG1.BH (R35) -/
  bw : Half
  bh : Half
  /-- CFG2.IW and CFG2.IH (R36) -/
  iw : Half
  ih : Half
  /-- ARG0.AX and ARG0.AY (R37) -/
  ax : Half
  ay : Half
  /-- ARG1.AW and ARG1.AH (R38) -/
  aw : Half
  ah : Half
  /-- RMIN (R39) and RMAX (R40) -/
  rmin : Pixel
  rmax : Pixel
  /-- RES_IDX[7:0] (R41) -/
  resIdx : Byte
  /-- RES_ERR (R42) -/
  resErr : Word
  /-- RES_PIX[23:0] (R43) -/
  resPix : Pixel
  /-- ERRACC0, ERRACC1, ERRACC2 (R44) -/
  errAcc0 : Word
  errAcc1 : Word
  errAcc2 : Word
  /-- the packer: PACC and PFILL (R46) -/
  pacc : Byte
  pfill : BitVec 4
  /-- the unpacker: UACC and UAVAIL (R47) -/
  uacc : Byte
  uavail : BitVec 4
  /-- PIXMEM (R71) -/
  pixmem : Memory
  /-- TAB (R74) -/
  tab : Memory
  /-- the model's own: how many resets have drawn TAB anew (R271) -/
  tabEpoch : Nat
  /-- OUT (R80) and IN (R81) -/
  out : OutStream
  inp : InStream
  /-- the model's own: the host's moves still to come, next first (R84, D37) -/
  pending : List HostOp
  /-- the model's own: what the host's reads delivered, oldest first (R111 "rd") -/
  reads : List HostValue
deriving DecidableEq, Repr

/-- Why a host move stops the model with a fault. No command raises one. -/
inductive Fault where
  /-- Raised by a host access to a PIXMEM address at or above PIXMEM_CAP, which does not exist (R71). Safe. -/
  | pixmemAbsent (a : Nat)
  /-- Raised by a host access to a TAB address at or above SIZETAB_CAP, which does not exist (R74). Safe. -/
  | tabAbsent (k : Nat)
deriving DecidableEq, Repr

/-- Why a host move has no meaning. No command is refused. -/
inductive Refusal where
  /-- Raised by exec's arm for an instruction without a meaning (there is none). Safe. -/
  | notModelled (mnemonic : String)
  /-- Raised by a host access of any kind while STATUS.BUSY = 1: no move (R280, R282 a, c, e). Safe. -/
  | accessWhileBusy
  /-- Raised by a window access that is not an aligned 32-bit word: no move (R76, R282 b). Safe. -/
  | windowMisaligned (addr : Nat)
  /-- Raised by a window access outside the 256 bytes at CORE_BASE: not this core's (R31, R82). Safe. -/
  | outsideWindow (addr : Nat)
  /-- Raised by attaching a stream that is no stream: more bytes than its capacity, or a cursor past
  the end (R80, R81 "0 ≤ icur ≤ len(ib)"). Safe. -/
  | illFormedStream
deriving DecidableEq, Repr

abbrev Pixel.zero : Pixel := ⟨0, 0, 0⟩

/-- The machine right after the power-up reset (R270, R271): every register 0, packer and unpacker
empty, no stream attached, no byte of PIXMEM or TAB written. The parameters are R6's defaults. -/
def State.reset : State where
  params := Config.Params.default
  cmd := 0
  busy := false
  errCode := none
  errOp := 0
  qsb := 0
  qcb := 0
  bw := 0
  bh := 0
  iw := 0
  ih := 0
  ax := 0
  ay := 0
  aw := 0
  ah := 0
  rmin := Pixel.zero
  rmax := Pixel.zero
  resIdx := 0
  resErr := 0
  resPix := Pixel.zero
  errAcc0 := 0
  errAcc1 := 0
  errAcc2 := 0
  pacc := 0
  pfill := 0
  uacc := 0
  uavail := 0
  pixmem := []
  tab := []
  tabEpoch := 0
  out := ⟨[], 0⟩
  inp := ⟨[], 0⟩
  pending := []
  reads := []

end Sys2Proof.Machine
end

