-- ==== Sys2Proof/Machine/Arith.lean ====
section
/-! DEFINITION. The arithmetic of spec/00_scope.md R9 and R10 on integers, rationals and pixels, and the
IEEE 754 roundings of spec/41_quantizer.md R152. Nothing here reads the machine's state. -/

namespace Sys2Proof.Machine

/-- `ceil(a / b)` for b > 0 (R9). -/
def ceilDiv (a b : Nat) : Nat := (a + b - 1) / b

/-- A positive power of two (R6, R35). -/
def isPow2 (n : Nat) : Bool := n == 2 ^ n.log2

/-- The bits of a square root from bit `k - 1` down, keeping `r * r ≤ n`. -/
def isqrtBits (n : Nat) : Nat → Nat → Nat
  | 0, r => r
  | k + 1, r => isqrtBits n k (if (r + 2 ^ k) * (r + 2 ^ k) ≤ n then r + 2 ^ k else r)

/-- `isqrt(n)`: the largest r with r*r ≤ n (R9). -/
def isqrt (n : Nat) : Nat := isqrtBits n (n.log2 / 2 + 1) 0

/-- `clamp(v, lo, hi) = min(hi, max(lo, v))` (R9). -/
def clamp (v lo hi : Int) : Int := min hi (max lo v)

/-- `sat32(v) = min(v, 2^32 - 1)` (R9), as a register value. -/
def sat32 (v : Nat) : Word := BitVec.ofNat 32 (min v (2 ^ 32 - 1))

/-- `trunc(q)`: a rational rounded toward zero (R9). -/
def truncRat (q : Rat) : Int := q.num.tdiv q.den

/-- `conv(q) = clamp(trunc(q), 0, 255)` (R135). -/
def conv (q : Rat) : Byte := BitVec.ofInt 8 (clamp (truncRat q) 0 255)

/-- The square of a channel difference (R10). -/
def sqDiff (a b : Byte) : Nat := ((a.toNat : Int) - (b.toNat : Int)).natAbs ^ 2

/-- `sq(p, q)`, the squared Euclidean distance (R10). -/
def sq (p q : Pixel) : Nat := sqDiff p.c0 q.c0 + sqDiff p.c1 q.c1 + sqDiff p.c2 q.c2

/-- `mag(p) = sq(p, (0,0,0))` (R10). -/
def mag (p : Pixel) : Nat := sq p Pixel.zero

/-- A non-negative rational by numerator and denominator, the value of a float of R152. -/
structure Frac where
  num : Nat
  den : Nat
deriving DecidableEq, Repr

/-- The square root of an integer rounded to a significand of `p` bits, to nearest (R152 `rndN(sqrt(n))`): with
2^t the scale that gives the root `p` integer bits, the floor r of the scaled root, or r + 1 where the root
lies above r + 1/2. It never equals r + 1/2, so there is no tie. -/
def sqrtRnd (p n : Nat) : Frac :=
  if n = 0 then ⟨0, 1⟩ else
    let t := p - ((isqrt n).log2 + 1)
    let m := n * 2 ^ (2 * t)
    let r := isqrt m
    ⟨if r < m - r * r then r + 1 else r, 2 ^ t⟩

/-- `num / den` rounded to a significand of `p` bits, to nearest, ties to even (R152 `rndN`). The quotient is
scaled by 2^a / 2^b so that its floor has `p` bits. -/
def divRnd (p num den : Nat) : Frac :=
  if num = 0 then ⟨0, 1⟩ else
    let a := p + den.log2 - num.log2
    let b := num.log2 - (p + den.log2)
    let n := num * 2 ^ a
    let d := den * 2 ^ b
    let up := if n / d < 2 ^ p then 1 else 2
    let q := n / (d * up)
    let r := n % (d * up)
    let q' := if d * up < 2 * r ∨ (2 * r = d * up ∧ q % 2 = 1) then q + 1 else q
    ⟨q' * (2 ^ b * up), 2 ^ a⟩

/-- The operation sequence of R152's float modes, for a significand of `p` bits:
`u <- rnd(rnd(sqrt(L)) / S); k <- trunc(rnd(rnd(sqrt(P)) / u))`. -/
def floatIndex (p stepCount sqL sqP : Nat) : Nat :=
  let l := sqrtRnd p sqL
  let u := divRnd p l.num (l.den * stepCount)
  let e := sqrtRnd p sqP
  let k := divRnd p (e.num * u.den) (e.den * u.num)
  k.num / k.den

end Sys2Proof.Machine
end

