-- ==== Sys2Proof/Machine/Ops.lean ====
section
/-! DEFINITION. The shared operations: memory, pixels, the size table, the two streams (spec/20_memory.md
R71-R81), the raise primitive that is the core's whole trap entry and CLEAR_ERR's return from it
(spec/60_exceptions.md R245, R251), reset as an event (R270), and how a command runs. -/

namespace Sys2Proof.Machine

/-! ### Memory -/

/-- What an address that no entry lists holds: no value yet. A read of it draws one (R73, R271). -/
def Memory.unlisted : Option Byte := none

/-- The byte an address was last given. -/
def Memory.get? : Memory → Nat → Option Byte
  | [], _ => Memory.unlisted
  | (a, b) :: m, x => if x = a then some b else Memory.get? m x

/-- Write one byte, keeping the addresses strictly rising. -/
def Memory.set : Memory → Nat → Byte → Memory
  | [], x, v => [(x, v)]
  | (a, b) :: m, x, v =>
    if x < a then (x, v) :: (a, b) :: m
    else if x = a then (x, v) :: m
    else (a, b) :: Memory.set m x v

/-- Write consecutive bytes from address `x` up. -/
def Memory.setAll (m : Memory) (x : Nat) : List Byte → Memory
  | [] => m
  | b :: bs => Memory.setAll (Memory.set m x b) (x + 1) bs

/-- The canonical form: strictly rising addresses, so each is listed once. An entry is a value, and an
unlisted address holds none, so no entry equals what an unlisted address holds. -/
abbrev Memory.wf (m : Memory) : Prop := m.Pairwise (fun c d => c.1 < d.1)

/-- The byte PIXMEM reads at an address (R71, R73). -/
def State.pixByte (s : State) (a : Nat) : Byte := (s.pixmem.get? a).getD (Config.pixmemDraw a)

/-- `TAB[k]` (R74); an unwritten byte is this reset's draw (R271). -/
def State.tabByte (s : State) (k : Nat) : Byte := (s.tab.get? k).getD (Config.tabDraw s.tabEpoch k)

/-! ### Pixels (R72) -/

/-- `pa(x, y) = (y * IW + x) * 3`. -/
def State.pixAddr (s : State) (x y : Nat) : Nat := (y * s.iw.toNat + x) * 3

/-- `Pix(x, y)`. -/
def State.pix (s : State) (x y : Nat) : Pixel :=
  ⟨s.pixByte (s.pixAddr x y), s.pixByte (s.pixAddr x y + 1), s.pixByte (s.pixAddr x y + 2)⟩

/-- `PixWrite(x, y, p)`. -/
def State.pixWrite (s : State) (x y : Nat) (p : Pixel) : State :=
  { s with pixmem := s.pixmem.setAll (s.pixAddr x y) [p.c0, p.c1, p.c2] }

/-- A rectangle of pixels: top-left corner and size. -/
structure Block where
  x : Nat
  y : Nat
  w : Nat
  h : Nat
deriving DecidableEq, Repr

/-- The coordinates of a block in raster order: row by row, left to right (R11). -/
def Block.coords (b : Block) : List (Nat × Nat) :=
  (List.range b.h).flatMap fun j => (List.range b.w).map fun i => (b.x + i, b.y + j)

/-- `Block(x, y, w, h)`: the block's pixels in raster order (R11). -/
def State.block (s : State) (b : Block) : List Pixel := b.coords.map fun c => s.pix c.1 c.2

/-! ### Errors: the core's traps -/

/-- `raise E` records the first error and ERROP = CMD[7:0]; a recorded error is never overwritten (R245). -/
def State.raise (k : ErrKind) (s : State) : State :=
  if s.errCode.isNone then { s with errCode := some k, errOp := s.cmd.byte0 } else s

/-- The return from an error, the effect of CLEAR_ERR: it restores nothing and lets commands run (R231, R251). -/
def State.clearErr (s : State) : State := { s with errCode := none, errOp := 0 }

/-- How a command's pseudocode ends: normally with a value, or by `raise`, with the state that holds every
effect before it (R11, R245). -/
inductive Result (α : Type) where
  | ok (a : α) (s : State)
  | raised (k : ErrKind) (s : State)

/-- Sequencing: a raise ends the command. -/
def Result.bind {α β : Type} (r : Result α) (f : α → State → Result β) : Result β :=
  match r with
  | .ok a s => f a s
  | .raised k s => .raised k s

/-- The state a command leaves, with its error recorded if it raised one (R245). -/
def Result.finish (r : Result Unit) : Host.Outcome State Fault Refusal :=
  match r with
  | .ok _ s => .next s
  | .raised k s => .next (s.raise k)

/-! ### Streams -/

/-- `OutWrite(bs)`: append, or append the prefix that fits and raise (R80). -/
def outWrite (bs : List Byte) (s : State) : Result Unit :=
  if s.out.bytes.length + bs.length ≤ s.out.cap then
    .ok () { s with out := ⟨s.out.bytes ++ bs, s.out.cap⟩ }
  else
    .raised .executionFailure
      { s with out := ⟨s.out.bytes ++ bs.take (s.out.cap - s.out.bytes.length), s.out.cap⟩ }

/-- The bytes `InRead(n)` returns, fewer than `n` on a short read (R81). -/
def inBytes (n : Nat) (s : State) : List Byte := (s.inp.bytes.drop s.inp.cur).take n

/-- `InRead(n)`: return `n` bytes and move the cursor past them, or move it to the end and raise (R81). -/
def inRead (n : Nat) (s : State) : Result (List Byte) :=
  if s.inp.cur + n ≤ s.inp.bytes.length then
    .ok (inBytes n s) { s with inp := ⟨s.inp.bytes, s.inp.cur + n⟩ }
  else
    .raised .executionFailure { s with inp := ⟨s.inp.bytes, s.inp.bytes.length⟩ }

/-! ### Configuration (R7, R243) -/

/-- `S = 2^QSB - 1` (R7). -/
def State.stepCount (s : State) : Nat := 2 ^ s.qsb.toNat - 1

/-- `MBW` and `MBH`, the macroblock grid, and `MBN` (R7). -/
def State.mbw (s : State) : Nat := s.iw.toNat / s.bw.toNat
def State.mbh (s : State) : Nat := s.ih.toNat / s.bh.toNat
def State.mbn (s : State) : Nat := s.mbw * s.mbh

/-- `T = ceil(MBN / 4)`, the size table's length in bytes (R7). -/
def State.tabLen (s : State) : Nat := ceilDiv s.mbn 4

/-- `mw(s)` and `mh(s)`, the microblock sides at a shift (R7). -/
def State.mw (s : State) (shift : Nat) : Nat := max Config.minMicro (s.bw.toNat >>> shift)
def State.mh (s : State) (shift : Nat) : Nat := max Config.minMicro (s.bh.toNat >>> shift)

/-- `NB(w, h)`, the byte length of an index sub-stream (R7). -/
def State.indexBytes (s : State) (w h : Nat) : Nat := ceilDiv (w * h * s.qsb.toNat) 8

/-- A legal macroblock side (R35): a power of two from 2 to MAX_BLOCK_DIM. -/
def State.sideOk (s : State) (n : Nat) : Bool :=
  isPow2 n && Config.minMicro ≤ n && n ≤ s.params.maxBlockDim

/-- `config_check()`: the error of the first of the nine checks that fails (R243). -/
def configCheck (s : State) : Option ErrKind :=
  if s.qsb.toNat ∉ Config.legalQsb then some .invalidArgument                              -- 1
  else if s.qcb.toNat ≠ Config.legalQcb then some .invalidResource                         -- 2
  else if ¬ (s.sideOk s.bw.toNat && s.sideOk s.bh.toNat) then some .invalidArgument        -- 3
  else if s.iw.toNat = 0 ∨ s.ih.toNat = 0 then some .invalidArgument                       -- 4
  else if s.iw.toNat % Config.granule ≠ 0 ∨ s.ih.toNat % Config.granule ≠ 0 then
    some .invalidResource                                                                  -- 5
  else if s.iw.toNat < s.bw.toNat ∨ s.ih.toNat < s.bh.toNat then some .invalidResource     -- 6
  else if s.iw.toNat % s.bw.toNat ≠ 0 ∨ s.ih.toNat % s.bh.toNat ≠ 0 then
    some .invalidResource                                                                  -- 7
  else if s.params.pixmemCap < s.iw.toNat * s.ih.toNat * 3 then some .outOfMemory          -- 8
  else if s.params.sizetabCap < s.tabLen then some .outOfMemory                            -- 9
  else none

/-- A command other than NOP and CLEAR_ERR: the configuration check, then its own rule (R242). -/
def runCommand (body : State → Result Unit) (s : State) : Host.Outcome State Fault Refusal :=
  match configCheck s with
  | some k => .next (s.raise k)
  | none => (body s).finish

/-! ### Reset as an event -/

/-- The platform's reset (R270): every register 0, packer and unpacker empty. PIXMEM and the streams keep
what they held, and TAB is drawn anew (R271). -/
def State.resetEvent (s : State) : State :=
  { State.reset with
    params := s.params
    pixmem := s.pixmem
    tabEpoch := s.tabEpoch + 1
    out := s.out
    inp := s.inp
    pending := s.pending
    reads := s.reads }

end Sys2Proof.Machine
end

