-- ==== Sys2Proof/Machine/Control.lean ====
section
/-! DEFINITION. The control commands NOP and CLEAR_ERR, which run no configuration check
(spec/44_control.md R230, R231). -/

namespace Sys2Proof.Machine

/-- `NOP` (R230): no effect beyond the CMD write. -/
def execNop (s : State) : Host.Outcome State Fault Refusal := .next s

/-- `CLEAR_ERR` (R231). -/
def execClearErr (s : State) : Host.Outcome State Fault Refusal := .next s.clearErr

end Sys2Proof.Machine
end

