-- ==== Sys2Proof/Machine/Operands.lean ====
section
/-! DEFINITION. The operand forms of spec/30_encoding.md R101, each with the argument check its commands make
before their first effect (spec/60_exceptions.md R244). Every failure is InvalidArgument (92_eei_decisions.md D40). -/

namespace Sys2Proof.Machine

/-- The *block* operand (AX, AY, AW, AH), checked as R130 says. -/
def blockOperand (s : State) : Result Block :=
  if s.aw.toNat < 1 ∨ s.ah.toNat < 1 ∨ s.params.maxBlockDim < s.aw.toNat ∨ s.params.maxBlockDim < s.ah.toNat then
    .raised .invalidArgument s
  else if s.iw.toNat < s.ax.toNat + s.aw.toNat ∨ s.ih.toNat < s.ay.toNat + s.ah.toNat then
    .raised .invalidArgument s
  else .ok ⟨s.ax.toNat, s.ay.toNat, s.aw.toNat, s.ah.toNat⟩ s

/-- The *pixel* operand (AX, AY), inside the image (R156, R158). -/
def pixelOperand (s : State) : Result (Nat × Nat) :=
  if s.iw.toNat ≤ s.ax.toNat ∨ s.ih.toNat ≤ s.ay.toNat then .raised .invalidArgument s
  else .ok (s.ax.toNat, s.ay.toNat) s

/-- A macroblock: the top-left pixel and the linear index in the size table (R170). -/
structure Macroblock where
  ox : Nat
  oy : Nat
  n : Nat
deriving DecidableEq, Repr

/-- The *macroblock* operand, column AX and row AY, inside the grid (R101, R170, R213, R214). -/
def macroblockOperand (s : State) : Result Macroblock :=
  if s.mbw ≤ s.ax.toNat ∨ s.mbh ≤ s.ay.toNat then .raised .invalidArgument s
  else .ok ⟨s.ax.toNat * s.bw.toNat, s.ay.toNat * s.bh.toNat, s.ay.toNat * s.mbw + s.ax.toNat⟩ s

/-- An index immediate: at most S (R157, R158, R197). -/
def indexOperand (imm : Nat) (s : State) : Result Nat :=
  if s.stepCount < imm then .raised .invalidArgument s else .ok imm s

/-- A size-code immediate: at most 2 (R213). -/
def codeOperand (imm : Nat) (s : State) : Result Nat :=
  if 2 < imm then .raised .invalidArgument s else .ok imm s

/-- The *range* operand (RMIN, RMAX). -/
def State.range (s : State) : Range := ⟨s.rmin, s.rmax⟩

/-- Store a range in RMIN and RMAX. -/
def State.setRange (s : State) (r : Range) : State := { s with rmin := r.mn, rmax := r.mx }

end Sys2Proof.Machine
end

