-- ==== Sys2Proof/Machine/BitPacker.lean ====
section
/-! DEFINITION. The BitPacker: control colours, quantization indices, the size table, and its ten commands
(spec/43_bitpacker.md R190-R216). -/

namespace Sys2Proof.Machine

/-! ### Control colours (R190, R191) -/

/-- `pack565(p)`: channel 2 in bits 15:11, channel 1 in 10:5, channel 0 in 4:0, each by its high bits. -/
def pack565 (p : Pixel) : Half :=
  p.c2.extractLsb' 3 5 ++ (p.c1.extractLsb' 2 6 ++ p.c0.extractLsb' 3 5)

/-- `unpack565(w) = (8 * w[4:0], 4 * w[10:5], 8 * w[15:11])`. -/
def unpack565 (w : Half) : Pixel :=
  ⟨w.extractLsb' 0 5 ++ 0#3, w.extractLsb' 5 6 ++ 0#2, w.extractLsb' 11 5 ++ 0#3⟩

/-- `ctrl_bytes(mn, mx)`: min, then max, each low byte first. -/
def ctrlBytes (r : Range) : List Byte :=
  [(pack565 r.mn).extractLsb' 0 8, (pack565 r.mn).extractLsb' 8 8,
   (pack565 r.mx).extractLsb' 0 8, (pack565 r.mx).extractLsb' 8 8]

/-- `ctrl_decode([b0, b1, b2, b3])`. -/
def ctrlDecode (bs : List Byte) : Range :=
  ⟨unpack565 (bs.getD 1 0 ++ bs.getD 0 0), unpack565 (bs.getD 3 0 ++ bs.getD 2 0)⟩

/-! ### Indices (R194-R196) -/

/-- Byte `j` of `pack_indices(ks)`: the OR of the codes whose bits lie in it. -/
def packedByte (qsb : Nat) (ks : List Nat) (j : Nat) : Byte :=
  ks.zipIdx.foldl (fun b kt =>
    if kt.2 * qsb / 8 = j then b ||| (BitVec.ofNat 8 kt.1 <<< (kt.2 * qsb % 8)) else b) 0

/-- `pack_indices(ks)`. -/
def packIndices (qsb : Nat) (ks : List Nat) : List Byte :=
  (List.range (ceilDiv (ks.length * qsb) 8)).map (packedByte qsb ks)

/-- `unpack_indices(bs, m)`. -/
def unpackIndices (qsb stepCount : Nat) (bs : List Byte) (m : Nat) : List Nat :=
  (List.range m).map fun t =>
    ((bs.getD (t * qsb / 8) 0 >>> (t * qsb % 8)) &&& BitVec.ofNat 8 stepCount).toNat

/-- `pack_one(k)`: the packer is emptied before the write, so a short write loses the byte (R195). -/
def packOne (k : Nat) (s : State) : Result Unit :=
  let acc := s.pacc ||| (BitVec.ofNat 8 k <<< s.pfill.toNat)
  let fill := s.pfill.toNat + s.qsb.toNat
  if fill = 8 then outWrite [acc] { s with pacc := 0, pfill := 0 }
  else .ok () { s with pacc := acc, pfill := BitVec.ofNat 4 fill }

/-- `flush()` (R195). -/
def flush (s : State) : Result Unit :=
  if 0 < s.pfill.toNat then outWrite [s.pacc] { s with pacc := 0, pfill := 0 } else .ok () s

/-- Discard the unpacker's pending bits (92_eei_decisions.md D25). -/
def State.alignIn (s : State) : State := { s with uacc := 0, uavail := 0 }

/-! ### The size table (R210, R211) -/

/-- `sh(n) = (n mod 4) * 2`. -/
def tabShift (n : Nat) : Nat := (n % 4) * 2

/-- `tab_read(n)`. -/
def State.tabRead (s : State) (n : Nat) : Nat := ((s.tabByte (n / 4) >>> tabShift n) &&& 3).toNat

/-- The byte `tab_write` stores: the 2-bit field cleared, then set; the other 6 bits kept. -/
def tabField (b : Byte) (n code : Nat) : Byte :=
  (b &&& ~~~(3#8 <<< tabShift n)) ||| (BitVec.ofNat 8 code <<< tabShift n)

/-- `tab_write(n, code)`. -/
def State.tabWrite (s : State) (n code : Nat) : State :=
  { s with tab := s.tab.set (n / 4) (tabField (s.tabByte (n / 4)) n code) }

/-- Store loaded bytes in TAB from byte 0 up (R215). -/
def State.tabLoad (s : State) (bs : List Byte) : State := { s with tab := s.tab.setAll 0 bs }

/-! ### Commands, after the common checks -/

/-- PACK_CTRL (R192). -/
def bodyPackCtrl (s : State) : Result Unit :=
  (flush s).bind fun _ s => outWrite (ctrlBytes s.range) s

/-- UNPACK_CTRL (R193). -/
def bodyUnpackCtrl (s : State) : Result Unit :=
  (inRead 4 s.alignIn).bind fun b s => .ok () (s.setRange (ctrlDecode b))

/-- PACK_IDX (R197). -/
def bodyPackIdx (imm : Nat) (s : State) : Result Unit :=
  (indexOperand imm s).bind packOne

/-- The unpacker's byte, read from IN when its bits are exhausted (R199). -/
def refill (s : State) : Result Unit :=
  if s.uavail.toNat = 0 then
    (inRead 1 s).bind fun b s => .ok () { s with uacc := b.getD 0 0, uavail := 8 }
  else .ok () s

/-- UNPACK_IDX (R199). -/
def bodyUnpackIdx (s : State) : Result Unit :=
  (refill s).bind fun _ s =>
    .ok () { s with
      resIdx := s.uacc &&& BitVec.ofNat 8 s.stepCount
      uacc := s.uacc >>> s.qsb.toNat
      uavail := BitVec.ofNat 4 (s.uavail.toNat - s.qsb.toNat) }

/-- UNPACK_ALIGN (R200). -/
def bodyUnpackAlign (s : State) : Result Unit := .ok () s.alignIn

/-- SIZETAB_CLEAR (R212). -/
def bodySizetabClear (s : State) : Result Unit := .ok () (s.tabLoad (List.replicate s.tabLen 0))

/-- SIZETAB_WRITE (R213): the macroblock check comes first. -/
def bodySizetabWrite (imm : Nat) (s : State) : Result Unit :=
  (macroblockOperand s).bind fun mb s => (codeOperand imm s).bind fun code s => .ok () (s.tabWrite mb.n code)

/-- SIZETAB_READ (R214). -/
def bodySizetabRead (s : State) : Result Unit :=
  (macroblockOperand s).bind fun mb s => .ok () { s with resIdx := BitVec.ofNat 8 (s.tabRead mb.n) }

/-- SIZETAB_LOAD (R215): on a short read the bytes that were there are stored, then the command raises. -/
def bodySizetabLoad (s : State) : Result Unit :=
  match inRead s.tabLen s.alignIn with
  | .ok bs t => .ok () (t.tabLoad bs)
  | .raised k t => .raised k (t.tabLoad (inBytes s.tabLen s))

/-- `PACK_CTRL` (R192). -/
def execPackCtrl (s : State) : Host.Outcome State Fault Refusal := runCommand bodyPackCtrl s

/-- `UNPACK_CTRL` (R193). -/
def execUnpackCtrl (s : State) : Host.Outcome State Fault Refusal := runCommand bodyUnpackCtrl s

/-- `PACK_IDX` (R197). -/
def execPackIdx (imm : Nat) (s : State) : Host.Outcome State Fault Refusal := runCommand (bodyPackIdx imm) s

/-- `PACK_FLUSH` (R198). -/
def execPackFlush (s : State) : Host.Outcome State Fault Refusal := runCommand flush s

/-- `UNPACK_IDX` (R199). -/
def execUnpackIdx (s : State) : Host.Outcome State Fault Refusal := runCommand bodyUnpackIdx s

/-- `UNPACK_ALIGN` (R200). -/
def execUnpackAlign (s : State) : Host.Outcome State Fault Refusal := runCommand bodyUnpackAlign s

/-- `SIZETAB_CLEAR` (R212). -/
def execSizetabClear (s : State) : Host.Outcome State Fault Refusal := runCommand bodySizetabClear s

/-- `SIZETAB_WRITE` (R213). -/
def execSizetabWrite (imm : Nat) (s : State) : Host.Outcome State Fault Refusal := runCommand (bodySizetabWrite imm) s

/-- `SIZETAB_READ` (R214). -/
def execSizetabRead (s : State) : Host.Outcome State Fault Refusal := runCommand bodySizetabRead s

/-- `SIZETAB_LOAD` (R215). -/
def execSizetabLoad (s : State) : Host.Outcome State Fault Refusal := runCommand bodySizetabLoad s

end Sys2Proof.Machine
end

