-- ==== Sys2Proof/Machine/Quantizer.lean ====
section
/-! DEFINITION. The Quantizer: `qindex`, `dequant` and `qerror`, and the commands QUANTIZE, DEQUANTIZE and
DEQUANTIZE_ST (spec/41_quantizer.md R151-R158). -/

namespace Sys2Proof.Machine

/-- The significand widths of IEEE 754 binary64 and binary32 (R152). -/
abbrev significand64 : Nat := 53
abbrev significand32 : Nat := 24

/-- `qindex(mn, mx, p)` for the step count S and the arithmetic QUANT_ARITH, with L = sq(mx, mn) and
P = sq(p, mn) (R151, R152). -/
def qindex (arith : Config.QuantArith) (stepCount : Nat) (r : Range) (p : Pixel) : Nat :=
  let l := sq r.mx r.mn
  let e := sq p r.mn
  let k :=
    if l = 0 then 0
    else match arith with
      | .real => isqrt ((stepCount * stepCount * e) / l)
      | .f64 => floatIndex significand64 stepCount l e
      | .f32 => floatIndex significand32 stepCount l e
  min k stepCount

/-- One channel of `dequant`: `mn + tdiv(mx - mn, S) * k` (R153). -/
def dequantChan (stepCount : Nat) (mn mx : Byte) (k : Nat) : Byte :=
  BitVec.ofInt 8 ((mn.toNat : Int) + (((mx.toNat : Int) - (mn.toNat : Int)).tdiv stepCount) * k)

/-- `dequant(mn, mx, k)` (R153). -/
def dequant (stepCount : Nat) (r : Range) (k : Nat) : Pixel where
  c0 := dequantChan stepCount r.mn.c0 r.mx.c0 k
  c1 := dequantChan stepCount r.mn.c1 r.mx.c1 k
  c2 := dequantChan stepCount r.mn.c2 r.mx.c2 k

/-- `qerror(p, r) = sq(r, p)` (R154). -/
def qerror (p r : Pixel) : Nat := sq r p

/-- QUANTIZE after the common checks (R156). -/
def bodyQuantize (s : State) : Result Unit :=
  (pixelOperand s).bind fun xy s =>
    let p := s.pix xy.1 xy.2
    let k := qindex s.params.quantArith s.stepCount s.range p
    let r := dequant s.stepCount s.range k
    .ok () { s with resIdx := BitVec.ofNat 8 k, resPix := r, resErr := BitVec.ofNat 32 (qerror p r) }

/-- DEQUANTIZE after the common checks (R157). -/
def bodyDequantize (imm : Nat) (s : State) : Result Unit :=
  (indexOperand imm s).bind fun k s => .ok () { s with resPix := dequant s.stepCount s.range k }

/-- DEQUANTIZE_ST after the common checks (R158): the index check comes first. -/
def bodyDequantizeSt (imm : Nat) (s : State) : Result Unit :=
  (indexOperand imm s).bind fun k s => (pixelOperand s).bind fun xy s =>
    let r := dequant s.stepCount s.range k
    .ok () ({ s with resPix := r }.pixWrite xy.1 xy.2 r)

/-- `QUANTIZE` (R156). -/
def execQuantize (s : State) : Host.Outcome State Fault Refusal := runCommand bodyQuantize s

/-- `DEQUANTIZE` (R157). -/
def execDequantize (imm : Nat) (s : State) : Host.Outcome State Fault Refusal := runCommand (bodyDequantize imm) s

/-- `DEQUANTIZE_ST` (R158). -/
def execDequantizeSt (imm : Nat) (s : State) : Host.Outcome State Fault Refusal := runCommand (bodyDequantizeSt imm) s

end Sys2Proof.Machine
end

