-- ==== Sys2Proof/Machine/RangeEstimator.lean ====
section
/-! DEFINITION. The RangeEstimator: its three strategies as functions of a block's pixels, and the commands
RANGE_MINMAX, RANGE_LINEAR and RANGE_REGRESS (spec/40_range_estimator.md R130-R138). -/

namespace Sys2Proof.Machine

def byteMin (a b : Byte) : Byte := if a ≤ b then a else b
def byteMax (a b : Byte) : Byte := if a ≤ b then b else a

/-- The least and the greatest value of a channel over a block (which has a pixel, R130). -/
def chanMin (ch : Pixel → Byte) (blk : List Pixel) : Byte := (blk.map ch).foldl byteMin 255
def chanMax (ch : Pixel → Byte) (blk : List Pixel) : Byte := (blk.map ch).foldl byteMax 0

/-- Per-channel minimum and maximum over the block (R131). -/
def minmax (blk : List Pixel) : Range where
  mn := ⟨chanMin Pixel.c0 blk, chanMin Pixel.c1 blk, chanMin Pixel.c2 blk⟩
  mx := ⟨chanMax Pixel.c0 blk, chanMax Pixel.c1 blk, chanMax Pixel.c2 blk⟩

/-- All ordered pairs of a block's pixels, i outer and j inner, both in raster order (R133). -/
def orderedPairs (blk : List Pixel) : List (Pixel × Pixel) :=
  blk.flatMap fun a => blk.map fun b => (a, b)

/-- One visit of R133's search: only a strictly greater distance replaces the best pair. -/
def fartherPair (best pair : Pixel × Pixel) : Pixel × Pixel :=
  if sq best.1 best.2 < sq pair.1 pair.2 then pair else best

/-- The first pair at the maximum distance, the first pixel with itself if no pair is apart (R133). -/
def farthestPair (blk : List Pixel) : Pixel × Pixel :=
  (orderedPairs blk).foldl fartherPair (blk.headD Pixel.zero, blk.headD Pixel.zero)

/-- The lower-magnitude endpoint first; on a tie the earlier pixel (R133). -/
def orderByMag (ab : Pixel × Pixel) : Range :=
  if mag ab.2 < mag ab.1 then ⟨ab.2, ab.1⟩ else ⟨ab.1, ab.2⟩

/-- The maximum-distance pair strategy (R133). -/
def linear (blk : List Pixel) : Range := orderByMag (farthestPair blk)

/-- An ordinary least-squares line `y = a + b*x` over the rationals, none when degenerate (R135). -/
def fit (pts : List (Nat × Nat)) : Option (Rat × Rat) :=
  let n : Rat := pts.length
  let sx : Rat := ((pts.map fun p => p.1).sum : Nat)
  let sy : Rat := ((pts.map fun p => p.2).sum : Nat)
  let sxx : Rat := ((pts.map fun p => p.1 * p.1).sum : Nat)
  let sxy : Rat := ((pts.map fun p => p.1 * p.2).sum : Nat)
  let den := n * sxx - sx * sx
  if den = 0 then none
  else
    let b := (n * sxy - sx * sy) / den
    some ((sy - b * sx) / n, b)

/-- The point of a fitted line at x. -/
def lineAt (l : Rat × Rat) (x : Rat) : Rat := l.1 + l.2 * x

/-- The least-squares strategy, none when a fit is degenerate (R136). The (G,B) line is evaluated at the
unrounded fitted G. -/
def regress (blk : List Pixel) : Option Range :=
  match fit (blk.map fun p => (p.c0.toNat, p.c1.toNat)), fit (blk.map fun p => (p.c1.toNat, p.c2.toNat)) with
  | some f1, some f2 =>
    let r0 := chanMin Pixel.c0 blk
    let r1 := chanMax Pixel.c0 blk
    let g0 := lineAt f1 (r0.toNat : Rat)
    let g1 := lineAt f1 (r1.toNat : Rat)
    some ⟨⟨r0, conv g0, conv (lineAt f2 g0)⟩, ⟨r1, conv g1, conv (lineAt f2 g1)⟩⟩
  | _, _ => none

/-- RANGE_MINMAX after the common checks (R131). -/
def bodyRangeMinmax (s : State) : Result Unit :=
  (blockOperand s).bind fun b s => .ok () (s.setRange (minmax (s.block b)))

/-- RANGE_LINEAR after the common checks (R133). -/
def bodyRangeLinear (s : State) : Result Unit :=
  (blockOperand s).bind fun b s => .ok () (s.setRange (linear (s.block b)))

/-- RANGE_REGRESS after the common checks (R136): InvalidResource, with RMIN and RMAX unchanged, when a fit is
degenerate. -/
def bodyRangeRegress (s : State) : Result Unit :=
  (blockOperand s).bind fun b s =>
    match regress (s.block b) with
    | none => .raised .invalidResource s
    | some r => .ok () (s.setRange r)

/-- `RANGE_MINMAX` (R131). -/
def execRangeMinmax (s : State) : Host.Outcome State Fault Refusal := runCommand bodyRangeMinmax s

/-- `RANGE_LINEAR` (R133). -/
def execRangeLinear (s : State) : Host.Outcome State Fault Refusal := runCommand bodyRangeLinear s

/-- `RANGE_REGRESS` (R136). -/
def execRangeRegress (s : State) : Host.Outcome State Fault Refusal := runCommand bodyRangeRegress s

end Sys2Proof.Machine
end

