-- ==== Sys2Proof/Machine/Selector.lean ====
section
/-! DEFINITION. The MacroblockSelector: the three trials and the choice of SELECT_MB, and the inverse path
DECODE_MB (spec/42_macroblock_selector.md R170-R180). -/

namespace Sys2Proof.Machine

/-- `micro(s)`: the microblocks of a macroblock at a shift, row-major (R170). -/
def State.micro (s : State) (mb : Macroblock) (shift : Nat) : List Block :=
  let w := s.mw shift
  let h := s.mh shift
  (List.range (s.bh.toNat / h)).flatMap fun my =>
    (List.range (s.bw.toNat / w)).map fun mx => ⟨mb.ox + mx * w, mb.oy + my * h, w, h⟩

/-! ### Encode side -/

/-- `q(g)`: the range the encoder quantizes against (R171, ENC_QUANT_RANGE). -/
def encodeRange (enc : Config.EncRange) (g : Range) : Range :=
  match enc with
  | .unpacked => g
  | .packed => ctrlDecode (ctrlBytes g)

/-- `err(g)`: the squared-error sum of a block against a range (R171). -/
def blockError (arith : Config.QuantArith) (stepCount : Nat) (q : Range) (blk : List Pixel) : Nat :=
  (blk.map fun p => qerror p (dequant stepCount q (qindex arith stepCount q p))).sum

/-- `alt(blk)`: a failed regression is left out (R173). -/
def altRanges (blk : List Pixel) : List Range := linear blk :: (regress blk).toList

/-- `cand`, without its first element minmax(blk) (R171). -/
def otherRanges (p : Config.Params) (blk : List Pixel) : List Range :=
  if p.altEstimators then altRanges blk else []

/-- The first range with the least error: a later one replaces it only with a smaller error (R171). -/
def leastError (err : Range → Nat) (first : Range) (others : List Range) : Range :=
  others.foldl (fun g c => if err c < err g then c else g) first

/-- The range SELECT_MB encodes a block with (R171). -/
def chooseRange (p : Config.Params) (stepCount : Nat) (blk : List Pixel) : Range :=
  leastError (fun g => blockError p.quantArith stepCount (encodeRange p.encRange g) blk)
    (minmax blk) (otherRanges p blk)

/-- The indices of a block against the chosen range, in raster order (R171). -/
def blockIndices (p : Config.Params) (stepCount : Nat) (blk : List Pixel) : List Nat :=
  blk.map (qindex p.quantArith stepCount (encodeRange p.encRange (chooseRange p stepCount blk)))

/-- The record of a block of pixels and its squared-error sum (R116, R171). -/
def encodePixels (p : Config.Params) (qsb : Nat) (blk : List Pixel) : List Byte × Nat :=
  let stepCount := 2 ^ qsb - 1
  let g := chooseRange p stepCount blk
  (ctrlBytes g ++ packIndices qsb (blockIndices p stepCount blk),
   blockError p.quantArith stepCount (encodeRange p.encRange g) blk)

/-- `encode_micro(x, y, w, h)` (R171). -/
def State.encodeMicro (s : State) (b : Block) : List Byte × Nat :=
  encodePixels s.params s.qsb.toNat (s.block b)

/-- The trial of a shift: TB[s] and E[s] (R172). -/
def State.trial (s : State) (mb : Macroblock) (shift : Nat) : List Byte × Nat :=
  (s.micro mb shift).foldl (fun t b => (t.1 ++ (s.encodeMicro b).1, t.2 + (s.encodeMicro b).2)) ([], 0)

/-- `select(E0, E1)` for N pixels: the error sums against MSE_THRESHOLD * N, exactly (R175). -/
def selectShift (p : Config.Params) (n e0 e1 : Nat) : Nat :=
  if e0 * p.mseDen ≤ p.mseNum * n then 0
  else if e1 * p.mseDen ≤ p.mseNum * n then 1
  else 2

/-- The shift SELECT_MB chooses for a macroblock (R174). -/
def State.selectedShift (s : State) (mb : Macroblock) : Nat :=
  selectShift s.params (s.bw.toNat * s.bh.toNat) (s.trial mb 0).2 (s.trial mb 1).2

/-- The table and result registers SELECT_MB writes before its final OutWrite (R174). -/
def State.recordSelection (s : State) (mb : Macroblock) : State :=
  { s.tabWrite mb.n (s.selectedShift mb) with
    errAcc0 := sat32 (s.trial mb 0).2
    errAcc1 := sat32 (s.trial mb 1).2
    errAcc2 := sat32 (s.trial mb 2).2
    resIdx := BitVec.ofNat 8 (s.selectedShift mb)
    resErr := sat32 (s.trial mb (s.selectedShift mb)).2 }

/-- SELECT_MB after the common checks (R174). -/
def bodySelectMb (s : State) : Result Unit :=
  (macroblockOperand s).bind fun mb s => (flush s).bind fun _ s =>
    outWrite (s.trial mb (s.selectedShift mb)).1 (s.recordSelection mb)

/-- `SELECT_MB` (R174). -/
def execSelectMb (s : State) : Host.Outcome State Fault Refusal := runCommand bodySelectMb s

/-! ### Decode side -/

/-- Write pixels at coordinates, in order (R178). -/
def State.writePixels (s : State) : List ((Nat × Nat) × Pixel) → State
  | [] => s
  | (c, p) :: rest => (s.pixWrite c.1 c.2 p).writePixels rest

/-- One microblock of DECODE_MB: both reads come before its first pixel write (R178). -/
def decodeMicro (b : Block) (s : State) : Result Unit :=
  (inRead 4 s).bind fun cb s => (inRead (s.indexBytes b.w b.h) s).bind fun ib s =>
    let ks := unpackIndices s.qsb.toNat s.stepCount ib (b.w * b.h)
    .ok () (s.writePixels (b.coords.zip (ks.map (dequant s.stepCount (ctrlDecode cb)))))

/-- The microblocks in order; a raise ends the command with the earlier ones written (R178). -/
def decodeMicros : List Block → State → Result Unit
  | [], s => .ok () s
  | b :: bs, s => (decodeMicro b s).bind fun _ s => decodeMicros bs s

/-- DECODE_MB after the common checks (R178). -/
def bodyDecodeMb (s : State) : Result Unit :=
  (macroblockOperand s).bind fun mb s =>
    let shift := s.tabRead mb.n
    if shift = 3 then .raised .invalidResource s.alignIn
    else decodeMicros (s.micro mb shift) { s.alignIn with resIdx := BitVec.ofNat 8 shift }

/-- `DECODE_MB` (R178). -/
def execDecodeMb (s : State) : Host.Outcome State Fault Refusal := runCommand bodyDecodeMb s

end Sys2Proof.Machine
end

