-- ==== Sys2Proof/Machine/Dispatch.lean ====
section
/-! DEFINITION. One arm per command: its meaning (spec/30_encoding.md R102). -/

namespace Sys2Proof.Machine

def exec (i : Instr) (s : State) : Host.Outcome State Fault Refusal :=
  match i with
  | .nop => Sys2Proof.Machine.execNop s
  | .rangeMinmax => Sys2Proof.Machine.execRangeMinmax s
  | .rangeLinear => Sys2Proof.Machine.execRangeLinear s
  | .rangeRegress => Sys2Proof.Machine.execRangeRegress s
  | .quantize => Sys2Proof.Machine.execQuantize s
  | .dequantize imm => Sys2Proof.Machine.execDequantize imm s
  | .dequantizeSt imm => Sys2Proof.Machine.execDequantizeSt imm s
  | .packCtrl => Sys2Proof.Machine.execPackCtrl s
  | .unpackCtrl => Sys2Proof.Machine.execUnpackCtrl s
  | .packIdx imm => Sys2Proof.Machine.execPackIdx imm s
  | .packFlush => Sys2Proof.Machine.execPackFlush s
  | .unpackIdx => Sys2Proof.Machine.execUnpackIdx s
  | .unpackAlign => Sys2Proof.Machine.execUnpackAlign s
  | .sizetabClear => Sys2Proof.Machine.execSizetabClear s
  | .sizetabWrite imm => Sys2Proof.Machine.execSizetabWrite imm s
  | .sizetabRead => Sys2Proof.Machine.execSizetabRead s
  | .sizetabLoad => Sys2Proof.Machine.execSizetabLoad s
  | .selectMb => Sys2Proof.Machine.execSelectMb s
  | .decodeMb => Sys2Proof.Machine.execDecodeMb s
  | .clearErr => Sys2Proof.Machine.execClearErr s

end Sys2Proof.Machine
end

