-- ==== Sys2Proof/Machine/Flags.lean ====
section
/-! DEFINITION. The words the host reads from registers held by their fields: STATUS (the core's only flags,
spec/10_state.md R33, R49), the pixel registers, the half-word pairs and PKSTATE. Reserved bits read 0 (R31). -/

namespace Sys2Proof.Machine

/-- The ERRCODE of an error record (R240). -/
def errCodeBits : Option ErrKind → BitVec 3
  | none => 0
  | some .invalidArgument => 1
  | some .invalidResource => 2
  | some .executionFailure => 3
  | some .outOfMemory => 4

/-- STATUS: BUSY in bit 31, ERROP in bits 15:8, ERRCODE in bits 2:0 (R33). -/
def State.statusWord (s : State) : Word :=
  BitVec.ofBool s.busy ++ (0#15 ++ (s.errOp ++ (0#5 ++ errCodeBits s.errCode)))

/-- A pixel in a register: c0 in bits 7:0, c1 in 15:8, c2 in 23:16 (R39). -/
def Pixel.toWord (p : Pixel) : Word := 0#8 ++ (p.c2 ++ (p.c1 ++ p.c0))

/-- The pixel a register write stores; bits 31:24 are reserved (R39). -/
def Pixel.ofWord (v : Word) : Pixel := ⟨v.byte0, v.byte1, v.byte2⟩

/-- A register of two half-word fields, the first in bits 15:0 (R35-R38). -/
def halves (lo hi : Half) : Word := hi ++ lo

/-- CFG0: QSB in bits 7:0, QCB in 15:8 (R34). -/
def State.cfg0Word (s : State) : Word := 0#16 ++ (s.qcb ++ s.qsb)

/-- RES_IDX: bits 31:8 read 0 (R41). -/
def State.resIdxWord (s : State) : Word := 0#24 ++ s.resIdx

/-- PKSTATE: PACC in 7:0, PFILL in 11:8, UACC in 23:16, UAVAIL in 27:24 (R45). -/
def State.pkstateWord (s : State) : Word :=
  0#4 ++ (s.uavail ++ (s.uacc ++ (0#4 ++ (s.pfill ++ s.pacc))))

end Sys2Proof.Machine
end

