-- ==== Sys2Proof/Machine/Window.lean ====
section
/-! DEFINITION. The host's moves: accepting a command word (spec/60_exceptions.md R242), the register window
(spec/10_state.md R31), and host accesses to the memories and streams (spec/20_memory.md R73, R74, R79). -/

namespace Sys2Proof.Machine

/-- What a host write to CMD does (R242): store the word; discard it while an error is recorded, unless its
OPC is 0xF0 (R246); raise InvalidArgument if it is illegal (R103); else run the command. -/
def accept (w : Word) (s : State) : Host.Outcome State Fault Refusal :=
  let s := { s with cmd := w }
  if s.errCode.isSome ∧ opcOf w ≠ 0xF0 then .next s
  else match decode w with
    | .error _ => .next (s.raise .invalidArgument)
    | .ok i => exec i s

/-- A register of the window, by its offset (R31). -/
def readReg (s : State) (off : Nat) : Word :=
  match off with
  | 0x00 => s.cmd
  | 0x04 => s.statusWord
  | 0x08 => s.cfg0Word
  | 0x0C => halves s.bw s.bh
  | 0x10 => halves s.iw s.ih
  | 0x14 => halves s.ax s.ay
  | 0x18 => halves s.aw s.ah
  | 0x1C => s.rmin.toWord
  | 0x20 => s.rmax.toWord
  | 0x24 => s.resIdxWord
  | 0x28 => s.resErr
  | 0x2C => s.resPix.toWord
  | 0x30 => s.errAcc0
  | 0x34 => s.errAcc1
  | 0x38 => s.errAcc2
  | 0x3C => s.pkstateWord
  | _ => 0

/-- A host write to a register other than CMD; read-only and unmapped offsets ignore it (R31). A CFG0 write
empties the packer and the unpacker (R34). -/
def writeReg (off : Nat) (v : Word) (s : State) : State :=
  match off with
  | 0x08 => { s with qsb := v.byte0, qcb := v.byte1, pacc := 0, pfill := 0, uacc := 0, uavail := 0 }
  | 0x0C => { s with bw := v.half0, bh := v.half1 }
  | 0x10 => { s with iw := v.half0, ih := v.half1 }
  | 0x14 => { s with ax := v.half0, ay := v.half1 }
  | 0x18 => { s with aw := v.half0, ah := v.half1 }
  | 0x1C => { s with rmin := Pixel.ofWord v }
  | 0x20 => { s with rmax := Pixel.ofWord v }
  | _ => s

/-- A window access at a platform address: its offset, or why it has no meaning (R31, R76, R282). -/
def windowOffset (s : State) (addr : Nat) : Except Refusal Nat :=
  if addr < s.params.coreBase ∨ s.params.coreBase + 256 ≤ addr then .error (.outsideWindow addr)
  else if (addr - s.params.coreBase) % 4 ≠ 0 then .error (.windowMisaligned addr)
  else .ok (addr - s.params.coreBase)

/-- Deliver a read value to the host. -/
def State.deliver (v : HostValue) (s : State) : State := { s with reads := s.reads ++ [v] }

/-- A 32-bit window write. -/
def windowWrite (addr : Nat) (v : Word) (s : State) : Host.Outcome State Fault Refusal :=
  match windowOffset s addr with
  | .error r => .refused r
  | .ok off => if off = 0 then accept v s else .next (writeReg off v s)

/-- A 32-bit window read; it changes no register. -/
def windowRead (addr : Nat) (s : State) : Host.Outcome State Fault Refusal :=
  match windowOffset s addr with
  | .error r => .refused r
  | .ok off => .next (s.deliver (.word (readReg s off)))

/-- One move of the host or the platform, between commands (R84, R280). -/
def hostMove (op : HostOp) (s : State) : Host.Outcome State Fault Refusal :=
  if s.busy then .refused .accessWhileBusy else
  match op with
  | .write addr v => windowWrite addr v s
  | .read addr => windowRead addr s
  | .pixWrite a b =>
    if a < s.params.pixmemCap then .next { s with pixmem := s.pixmem.set a b } else .fault (.pixmemAbsent a)
  | .pixRead a =>
    if a < s.params.pixmemCap then .next (s.deliver (.byte (s.pixByte a))) else .fault (.pixmemAbsent a)
  | .tabWrite k b =>
    if k < s.params.sizetabCap then .next { s with tab := s.tab.set k b } else .fault (.tabAbsent k)
  | .tabRead k =>
    if k < s.params.sizetabCap then .next (s.deliver (.byte (s.tabByte k))) else .fault (.tabAbsent k)
  | .outAttach o => if o.bytes.length ≤ o.cap then .next { s with out := o } else .refused .illFormedStream
  | .outRead => .next (s.deliver (.out s.out))
  | .inAttach i => if i.cur ≤ i.bytes.length then .next { s with inp := i } else .refused .illFormedStream
  | .inRead => .next (s.deliver (.inp s.inp))
  | .reset => .next s.resetEvent

end Sys2Proof.Machine
end

