-- ==== Sys2Proof/Machine/Step.lean ====
section
/-! DEFINITION. One step of the machine: the next move of the host (spec/20_memory.md R84, "each command is one
step"; each host access is one step). With no move to come the core is idle and keeps everything (R256, R272). -/

namespace Sys2Proof.Machine

def step (s : State) : Host.Outcome State Fault Refusal :=
  match s.pending with
  | [] => .next s
  | op :: rest => hostMove op { s with pending := rest }

/-- The core fetches nothing: a command comes to run when the host writes its word to CMD (R32, R86, D37).
So the word is placed as the host's next move (assumption log entry 3). -/
def State.withFetchWord (s : State) (nbits w : Nat) : State :=
  { s with pending := .write s.params.coreBase (BitVec.ofNat 32 (w % 2 ^ nbits)) :: s.pending }

end Sys2Proof.Machine
end

