-- ==== Sys2Proof/Safety.lean ====
section
/-! DEFINITION. What claims call a good state and a successful run: the invariants spec/10_state.md R46 and R47
and spec/20_memory.md R71, R74, R80, R81 give the state, and the success condition of spec/60_exceptions.md R249. -/

namespace Sys2Proof.Machine

/-- The parameters are of the kinds R6 names: MAX_BLOCK_DIM a power of two from 2 up, MSE_THRESHOLD a rational. -/
abbrev State.paramsOk (s : State) : Prop :=
  isPow2 s.params.maxBlockDim = true ∧ 2 ≤ s.params.maxBlockDim ∧ 0 < s.params.mseDen

/-- PIXMEM and TAB are in canonical form and list no address that does not exist (R71, R74). -/
abbrev State.memoriesOk (s : State) : Prop :=
  s.pixmem.wf ∧ (∀ c ∈ s.pixmem, c.1 < s.params.pixmemCap) ∧
  s.tab.wf ∧ (∀ c ∈ s.tab, c.1 < s.params.sizetabCap)

/-- OUT holds no more than its capacity, and IN's cursor is within the stream (R80, R81). -/
abbrev State.streamsOk (s : State) : Prop :=
  s.out.bytes.length ≤ s.out.cap ∧ s.inp.cur ≤ s.inp.bytes.length

/-- The packer's invariant: PFILL is a multiple of QSB in 0..7, and PACC[7:PFILL] = 0 (R46). -/
abbrev State.packerOk (s : State) : Prop :=
  s.qsb.toNat ∣ s.pfill.toNat ∧ s.pfill.toNat < 8 ∧ s.pacc.toNat < 2 ^ s.pfill.toNat

/-- The unpacker's invariant: UAVAIL is a multiple of QSB in 0..8 (R47). -/
abbrev State.unpackerOk (s : State) : Prop :=
  s.qsb.toNat ∣ s.uavail.toNat ∧ s.uavail.toNat ≤ 8

/-- ERROP is 0 when no error is recorded, and no host ever sees BUSY = 1 (R33, R280). -/
abbrev State.statusOk (s : State) : Prop :=
  (s.errCode = none → s.errOp = 0) ∧ s.busy = false

/-- The invariant of the machine. -/
abbrev State.Inv (s : State) : Prop :=
  s.paramsOk ∧ s.memoriesOk ∧ s.streamsOk ∧ s.packerOk ∧ s.unpackerOk ∧ s.statusOk

/-- A call succeeded when no error is recorded at its end (R249). -/
abbrev State.succeeded (s : State) : Prop := s.errCode = none

end Sys2Proof.Machine
end

