-- ==== Sys2Proof/Certificates/Slice0/Obligations.lean ====
section
/-! DEFINITION. The statements for the provers, from the numbered rules of spec/. The words they use beyond the
model's own come first (namespace Claims): they are written from the rules, in ordinary arithmetic, and not from
the model's definitions. -/

namespace Sys2Proof.Claims
open Sys2Proof.Machine

/-! ### Words of the statements -/

/-- The OPCs of the opcode map (R102). -/
def listedOpcodes : List Nat :=
  [0x00, 0x01, 0x02, 0x03, 0x10, 0x11, 0x12, 0x20, 0x21, 0x22, 0x23, 0x24, 0x25,
   0x30, 0x31, 0x32, 0x33, 0x40, 0x41, 0xF0]

/-- The twenty rows of the opcode map (R102): the OPC, an IMM (5 where the row takes one), and the command. -/
def opcodeRows : List (Nat × Nat × Instr) :=
  [(0x00, 0, .nop), (0x01, 0, .rangeMinmax), (0x02, 0, .rangeLinear), (0x03, 0, .rangeRegress),
   (0x10, 0, .quantize), (0x11, 5, .dequantize 5), (0x12, 5, .dequantizeSt 5),
   (0x20, 0, .packCtrl), (0x21, 0, .unpackCtrl), (0x22, 5, .packIdx 5), (0x23, 0, .packFlush),
   (0x24, 0, .unpackIdx), (0x25, 0, .unpackAlign),
   (0x30, 0, .sizetabClear), (0x31, 5, .sizetabWrite 5), (0x32, 0, .sizetabRead), (0x33, 0, .sizetabLoad),
   (0x40, 0, .selectMb), (0x41, 0, .decodeMb), (0xF0, 0, .clearErr)]

/-- The OPCs whose commands take an IMM (R102). -/
def immediateOpcodes : List Nat := [0x11, 0x12, 0x22, 0x31]

/-- A command word is illegal (R103). -/
abbrev illegalWord (w : Word) : Prop :=
  w.toNat % 256 ∉ listedOpcodes ∨
  w.toNat / 256 % 256 ≠ 0 ∨
  (w.toNat / 65536 ≠ 0 ∧ w.toNat % 256 ∉ immediateOpcodes)

/-- The host's next move is to write a word to CMD, and nothing stands against it (R32, R280). -/
abbrev writesCmd (s : State) (w : Word) (rest : List HostOp) : Prop :=
  s.busy = false ∧ s.pending = .write s.params.coreBase w :: rest

/-- A block argument lies inside the image and has a legal size (R130). -/
abbrev blockOk (s : State) : Prop :=
  1 ≤ s.aw.toNat ∧ 1 ≤ s.ah.toNat ∧ s.aw.toNat ≤ s.params.maxBlockDim ∧ s.ah.toNat ≤ s.params.maxBlockDim ∧
  s.ax.toNat + s.aw.toNat ≤ s.iw.toNat ∧ s.ay.toNat + s.ah.toNat ≤ s.ih.toNat

/-- The pixels of the block argument, in raster order (R11, R130). -/
abbrev argBlock (s : State) : List Pixel := s.block ⟨s.ax.toNat, s.ay.toNat, s.aw.toNat, s.ah.toNat⟩

/-- A pixel argument lies inside the image (R156). -/
abbrev pixelOk (s : State) : Prop := s.ax.toNat < s.iw.toNat ∧ s.ay.toNat < s.ih.toNat

/-- A macroblock argument lies inside the grid (R170). -/
abbrev macroblockOk (s : State) : Prop :=
  s.ax.toNat < s.iw.toNat / s.bw.toNat ∧ s.ay.toNat < s.ih.toNat / s.bh.toNat

/-- The linear index of the macroblock argument (R101). -/
abbrev argIndex (s : State) : Nat := s.ay.toNat * (s.iw.toNat / s.bw.toNat) + s.ax.toNat

/-- The macroblock argument: its top-left pixel and linear index (R170). -/
abbrev argMacroblock (s : State) : Macroblock := ⟨s.ax.toNat * s.bw.toNat, s.ay.toNat * s.bh.toNat, argIndex s⟩

/-- `v` is the least value of a channel over a block. -/
def leastOf (ch : Pixel → Byte) (blk : List Pixel) (v : Byte) : Prop :=
  (∃ p ∈ blk, ch p = v) ∧ ∀ p ∈ blk, v.toNat ≤ (ch p).toNat

/-- `v` is the greatest value of a channel over a block. -/
def greatestOf (ch : Pixel → Byte) (blk : List Pixel) (v : Byte) : Prop :=
  (∃ p ∈ blk, ch p = v) ∧ ∀ p ∈ blk, (ch p).toNat ≤ v.toNat

/-- The sum over a block of a rational function of its pixels. -/
def sumOver (blk : List Pixel) (f : Pixel → Rat) : Rat := (blk.map f).sum

/-- A channel's value as a rational. -/
def chanRat (ch : Pixel → Byte) (p : Pixel) : Rat := ((ch p).toNat : Rat)

/-- The denominator of the least-squares fit of a channel x (R135): `n*Sxx - Sx*Sx`. -/
def fitDen (blk : List Pixel) (x : Pixel → Byte) : Rat :=
  (blk.length : Rat) * sumOver blk (fun p => chanRat x p * chanRat x p)
    - sumOver blk (chanRat x) * sumOver blk (chanRat x)

/-- The slope b of R135. -/
def fitSlope (blk : List Pixel) (x y : Pixel → Byte) : Rat :=
  ((blk.length : Rat) * sumOver blk (fun p => chanRat x p * chanRat y p)
    - sumOver blk (chanRat x) * sumOver blk (chanRat y)) / fitDen blk x

/-- The intercept a of R135. -/
def fitIntercept (blk : List Pixel) (x y : Pixel → Byte) : Rat :=
  (sumOver blk (chanRat y) - fitSlope blk x y * sumOver blk (chanRat x)) / (blk.length : Rat)

/-- The fitted line of channel y on channel x, at q (R135). -/
def fitAt (blk : List Pixel) (x y : Pixel → Byte) (q : Rat) : Rat := fitIntercept blk x y + fitSlope blk x y * q

/-- A rational rounded toward zero and clamped to a channel value (R135 `conv`). -/
def channelOf (q : Rat) : Byte := BitVec.ofInt 8 (max 0 (min 255 (if 0 ≤ q then ⌊q⌋ else ⌈q⌉)))

/-- `v` is `mn + tdiv(mx - mn, S) * k`, as integers, and lies between mn and mx (R153). -/
def reconstructs (stepCount : Nat) (mn mx : Byte) (k : Nat) (v : Byte) : Prop :=
  (v.toNat : Int) = mn.toNat + ((mx.toNat : Int) - mn.toNat).tdiv stepCount * k ∧
  min mn.toNat mx.toNat ≤ v.toNat ∧ v.toNat ≤ max mn.toNat mx.toNat

/-- A pixel reconstructed channel by channel (R153). -/
def reconstructsPixel (stepCount : Nat) (mn mx : Pixel) (k : Nat) (v : Pixel) : Prop :=
  reconstructs stepCount mn.c0 mx.c0 k v.c0 ∧ reconstructs stepCount mn.c1 mx.c1 k v.c1 ∧
  reconstructs stepCount mn.c2 mx.c2 k v.c2

/-- The index of R152's float modes for a significand of `p` bits, by the rounded square root and quotient. -/
def roundedIndex (p stepCount l e : Nat) : Nat :=
  let a := sqrtRnd p l
  let u := divRnd p a.num (a.den * stepCount)
  let b := sqrtRnd p e
  let k := divRnd p (b.num * u.den) (b.den * u.num)
  k.num / k.den

/-- The 16-bit control word of a colour (R190), in arithmetic. -/
def word565 (p : Pixel) : Nat := p.c2.toNat / 8 * 2048 + p.c1.toNat / 4 * 32 + p.c0.toNat / 8

/-- The colour of a control word (R190), in arithmetic. -/
def colour565 (w : Nat) : Pixel :=
  ⟨BitVec.ofNat 8 (8 * (w % 32)), BitVec.ofNat 8 (4 * (w / 32 % 64)), BitVec.ofNat 8 (8 * (w / 2048 % 32))⟩

/-- The four control bytes of a range: min, then max, each low byte first (R191). -/
def controlBytes (mn mx : Pixel) : List Byte :=
  [BitVec.ofNat 8 (word565 mn % 256), BitVec.ofNat 8 (word565 mn / 256),
   BitVec.ofNat 8 (word565 mx % 256), BitVec.ofNat 8 (word565 mx / 256)]

/-- A 16-bit word from its low and high byte. -/
def wordOf (lo hi : Byte) : Nat := lo.toNat + 256 * hi.toNat

/-- The byte of IN that stands `i` past the cursor. -/
def inAhead (s : State) (i : Nat) : Byte := s.inp.bytes.getD (s.inp.cur + i) 0

/-- The byte a flush emits, if codes are pending (R195). -/
abbrev pendingByte (s : State) : List Byte := if s.pfill.toNat = 0 then [] else [s.pacc]

/-- OUT with bytes appended as far as they fit (R80). -/
def outAppend (s : State) (bs : List Byte) : OutStream :=
  ⟨s.out.bytes ++ bs.take (s.out.cap - s.out.bytes.length), s.out.cap⟩

/-- There is room in OUT for `n` more bytes (R80). -/
abbrev outRoom (s : State) (n : Nat) : Prop := s.out.bytes.length + n ≤ s.out.cap

/-- IN with its cursor at the end (R81, a short read). -/
def inAtEnd (s : State) : InStream := ⟨s.inp.bytes, s.inp.bytes.length⟩

/-- The table length T, the least integer at or above MBN / 4 (R7). -/
abbrev tableLength (s : State) : Nat := (s.iw.toNat / s.bw.toNat * (s.ih.toNat / s.bh.toNat) + 3) / 4

/-- The 2-bit code of macroblock n: bits `2*(n mod 4)` up of byte `n div 4` (R210). -/
abbrev codeAt (s : State) (n : Nat) : Nat := (s.tabByte (n / 4)).toNat / 4 ^ (n % 4) % 4

/-- TAB after a write of one code: macroblock n has it, every other position keeps its own (R211). -/
def codeWritten (s t : State) (n code : Nat) : Prop :=
  codeAt t n = code ∧ (∀ m, m ≠ n → codeAt t m = codeAt s m) ∧ ∀ k, k ≠ n / 4 → t.tabByte k = s.tabByte k

/-- Commands one after another, with no host access between them. -/
def runCommands : List Instr → State → Host.Outcome State Fault Refusal
  | [], s => .next s
  | i :: is, s =>
    match exec i s with
    | .next t => runCommands is t
    | .fault r => .fault r
    | .refused r => .refused r

/-- SIZETAB_WRITE at each listed column, row and code, ARG0 written before each (R213, R216). -/
def writeCodes : List (Half × Half × Nat) → State → Host.Outcome State Fault Refusal
  | [], s => .next s
  | (col, row, code) :: rest, s =>
    match exec (.sizetabWrite code) { s with ax := col, ay := row } with
    | .next t => writeCodes rest t
    | .fault r => .fault r
    | .refused r => .refused r

/-- QUANTIZE and PACK_IDX of the index it leaves in RES_IDX, at each listed pixel, ARG0 written before (R276). -/
def packPixels : List (Nat × Nat) → State → Host.Outcome State Fault Refusal
  | [], s => .next s
  | c :: cs, s =>
    match exec .quantize { s with ax := BitVec.ofNat 16 c.1, ay := BitVec.ofNat 16 c.2 } with
    | .next t =>
      match exec (.packIdx t.resIdx.toNat) t with
      | .next u => packPixels cs u
      | .fault r => .fault r
      | .refused r => .refused r
    | .fault r => .fault r
    | .refused r => .refused r

/-- The shift the selection rule gives for error sums E0 and E1 over N pixels (R175). -/
def selects (p : Config.Params) (n e0 e1 sel : Nat) : Prop :=
  (e0 * p.mseDen ≤ p.mseNum * n ∧ sel = 0) ∨
  (p.mseNum * n < e0 * p.mseDen ∧ e1 * p.mseDen ≤ p.mseNum * n ∧ sel = 1) ∨
  (p.mseNum * n < e0 * p.mseDen ∧ p.mseNum * n < e1 * p.mseDen ∧ sel = 2)

/-- `min(E, 2^32 - 1)` in a register (R9 sat32). -/
def saturated (e : Nat) : Word := BitVec.ofNat 32 (min e 4294967295)

/-- The state SELECT_MB leaves before its final OutWrite, for a chosen shift and a table (R174). -/
def selected (s : State) (sel : Nat) (tab : Memory) : State :=
  { s with
    pacc := 0, pfill := 0, tab := tab
    errAcc0 := saturated (s.trial (argMacroblock s) 0).2
    errAcc1 := saturated (s.trial (argMacroblock s) 1).2
    errAcc2 := saturated (s.trial (argMacroblock s) 2).2
    resIdx := BitVec.ofNat 8 sel
    resErr := saturated (s.trial (argMacroblock s) sel).2 }

/-- The byte address belongs to a pixel of the macroblock argument (R72, R170). -/
def inMacroblock (s : State) (a : Nat) : Prop :=
  ∃ x y, x < s.bw.toNat ∧ y < s.bh.toNat ∧
    ((s.ay.toNat * s.bh.toNat + y) * s.iw.toNat + (s.ax.toNat * s.bw.toNat + x)) * 3 ≤ a ∧
    a < ((s.ay.toNat * s.bh.toNat + y) * s.iw.toNat + (s.ax.toNat * s.bw.toNat + x)) * 3 + 3

/-- Every pixel of the macroblock argument has one colour (R176). -/
abbrev uniformMacroblock (s : State) (v : Pixel) : Prop :=
  ∀ x, x < s.bw.toNat → ∀ y, y < s.bh.toNat →
    s.pix (s.ax.toNat * s.bw.toNat + x) (s.ay.toNat * s.bh.toNat + y) = v

/-- The offsets that have reserved bits, with those bits (R33, R34, R39-R41, R43, R45). -/
def reservedFields : List (Nat × Word) :=
  [(0x04, 0x7FFF00F8), (0x08, 0xFFFF0000), (0x1C, 0xFF000000), (0x20, 0xFF000000), (0x24, 0xFFFFFF00),
   (0x2C, 0xFF000000), (0x3C, 0xF000F000)]

/-- The value of a pixel register (R39). -/
def pixelValue (p : Pixel) : Nat := p.c0.toNat + p.c1.toNat * 256 + p.c2.toNat * 65536

/-- The low 8 bits and the low 16 bits of a number. -/
def lowByte (n : Nat) : Byte := BitVec.ofNat 8 (n % 256)
def lowHalf (n : Nat) : Half := BitVec.ofNat 16 (n % 65536)

/-- The pixel a write to a pixel register stores (R39). -/
def pixelOfNat (n : Nat) : Pixel := ⟨lowByte n, lowByte (n / 256), lowByte (n / 65536)⟩

/-- A power of two. -/
def isPowerOfTwo (n : Nat) : Prop := ∃ e, n = 2 ^ e

/-- The nine checks of R243 in order, each as the condition that fails and its error. -/
def configChecks (s : State) : List (Prop × ErrKind) :=
  [ (s.qsb.toNat ∉ [1, 2, 4, 8], .invalidArgument),
    (s.qcb.toNat ≠ 16, .invalidResource),
    (¬ isPowerOfTwo s.bw.toNat ∨ ¬ isPowerOfTwo s.bh.toNat ∨ s.bw.toNat < 2 ∨ s.bh.toNat < 2 ∨
      s.params.maxBlockDim < s.bw.toNat ∨ s.params.maxBlockDim < s.bh.toNat, .invalidArgument),
    (s.iw.toNat = 0 ∨ s.ih.toNat = 0, .invalidArgument),
    (s.iw.toNat % 16 ≠ 0 ∨ s.ih.toNat % 16 ≠ 0, .invalidResource),
    (s.iw.toNat < s.bw.toNat ∨ s.ih.toNat < s.bh.toNat, .invalidResource),
    (s.iw.toNat % s.bw.toNat ≠ 0 ∨ s.ih.toNat % s.bh.toNat ≠ 0, .invalidResource),
    (s.params.pixmemCap < s.iw.toNat * s.ih.toNat * 3, .outOfMemory),
    (s.params.sizetabCap < tableLength s, .outOfMemory) ]

/-- The first failing check of a list is one with error `k`. -/
def firstFailing : List (Prop × ErrKind) → ErrKind → Prop
  | [], _ => False
  | (p, e) :: rest, k => (p ∧ e = k) ∨ (¬ p ∧ firstFailing rest k)

/-- The errors the table of R241 lists for a command whose word is legal and whose configuration passes. -/
def errorsOf : Instr → List ErrKind
  | .nop => []
  | .rangeMinmax => [.invalidArgument]
  | .rangeLinear => [.invalidArgument]
  | .rangeRegress => [.invalidArgument, .invalidResource]
  | .quantize => [.invalidArgument]
  | .dequantize _ => [.invalidArgument]
  | .dequantizeSt _ => [.invalidArgument]
  | .packCtrl => [.executionFailure]
  | .unpackCtrl => [.executionFailure]
  | .packIdx _ => [.invalidArgument, .executionFailure]
  | .packFlush => [.executionFailure]
  | .unpackIdx => [.executionFailure]
  | .unpackAlign => []
  | .sizetabClear => []
  | .sizetabWrite _ => [.invalidArgument]
  | .sizetabRead => [.invalidArgument]
  | .sizetabLoad => [.executionFailure]
  | .selectMb => [.invalidArgument, .executionFailure]
  | .decodeMb => [.invalidArgument, .invalidResource, .executionFailure]
  | .clearErr => []

end Sys2Proof.Claims

open Sys2Proof Sys2Proof.Machine Sys2Proof.Claims

/-! ### Encoding -/

/-- R110's own words, words written from R100 and R102 and words illegal by R103; and for each of the twenty rows of
R102, its word `(IMM << 16) | OPC` decodes to its command, whose opcode is its OPC. -/
def Obligations.DecodesWordsOfTheSpec : Prop :=
  decode 0x00030022#32 = .ok (.packIdx 3) ∧
  decode 0x00020031#32 = .ok (.sizetabWrite 2) ∧
  decode 0x00000002#32 = .ok .rangeLinear ∧
  decode 0xFFFF0012#32 = .ok (.dequantizeSt 65535) ∧
  decode 0x00000041#32 = .ok .decodeMb ∧
  decode 0x000000F0#32 = .ok .clearErr ∧
  decode 0x00000004#32 = .error .unknownOpcode ∧
  decode 0x00000110#32 = .error .reservedNonzero ∧
  decode 0x00010010#32 = .error .immediateNonzero ∧
  ∀ r ∈ opcodeRows,
    decode (BitVec.ofNat 32 (r.2.1 * 65536 + r.1)) = .ok r.2.2 ∧ r.2.2.opcode.toNat = r.1

/-- Decoding the word of a well-formed command gives it back, with every operand at every value the
encoding admits; the word is `(IMM << 16) | OPC` (R110). A word that decodes is the encoding of exactly the command
it decodes to, which is well formed. -/
def Obligations.DecodeAndEncodeAgree : Prop :=
  (∀ i : Instr, i.wf = true →
    decode (encode i) = .ok i ∧ (encode i).toNat = i.imm?.getD 0 * 65536 + i.opcode.toNat) ∧
  ∀ (w : Word) (i : Instr), decode w = .ok i → i.wf = true ∧ encode i = w

/-- R103: the illegal words are those of its three cases and no other; one raises InvalidArgument before any
other check (here: whatever the configuration) and has no effect but CMD and the error record. -/
def Obligations.IllegalWordRaisesInvalidArgument : Prop :=
  (∀ w : Word, illegalWord w ↔ ¬ ∃ i, decode w = .ok i) ∧
  ∀ (s : State) (w : Word) (rest : List HostOp),
    writesCmd s w rest → s.errCode = none → illegalWord w →
    step s = .next { s with
      pending := rest, cmd := w, errCode := some .invalidArgument, errOp := BitVec.ofNat 8 (w.toNat % 256) }

/-! ### Steps -/

/-- A host write to CMD of a word that decodes to `i`, with no error recorded or OPC 0xF0, runs `exec i` on the
state with CMD holding the word and that host move done. With no move to come, the core keeps its state. -/
def Obligations.StepRunsTheDecodedCommand : Prop :=
  (∀ (s : State) (w : Word) (rest : List HostOp) (i : Instr),
    writesCmd s w rest → decode w = .ok i → (s.errCode = none ∨ w.toNat % 256 = 0xF0) →
    step s = exec i { s with pending := rest, cmd := w }) ∧
  ∀ s : State, s.pending = [] → step s = .next s

/-- R246: while an error is recorded, every word whose OPC is not 0xF0 is discarded, and only CMD changes;
the error goes away only by the word of CLEAR_ERR or by reset. -/
def Obligations.ErrorDiscardsCommands : Prop :=
  (∀ (s : State) (w : Word) (rest : List HostOp),
    writesCmd s w rest → s.errCode ≠ none → w.toNat % 256 ≠ 0xF0 →
    step s = .next { s with pending := rest, cmd := w }) ∧
  ∀ s t : State, s.errCode ≠ none → step s = .next t →
    (t.errCode = s.errCode ∧ t.errOp = s.errOp) ∨
    (∃ rest, s.pending = .write s.params.coreBase 0xF0#32 :: rest) ∨
    (∃ rest, s.pending = .reset :: rest)

/-- When a step stops: a fault only for a host access to a memory address that does not exist, a refusal only
for the host moves R282 names and for accesses that are not this core's; never for a command. -/
def Obligations.StepStopsOnlyOnHostErrors : Prop :=
  ∀ s : State,
    (∀ f, step s = .fault f →
      s.busy = false ∧
      ((∃ a rest, (s.pending = .pixRead a :: rest ∨ ∃ b, s.pending = .pixWrite a b :: rest) ∧
          s.params.pixmemCap ≤ a ∧ f = .pixmemAbsent a) ∨
       (∃ k rest, (s.pending = .tabRead k :: rest ∨ ∃ b, s.pending = .tabWrite k b :: rest) ∧
          s.params.sizetabCap ≤ k ∧ f = .tabAbsent k))) ∧
    (∀ r, step s = .refused r →
      (s.busy = true ∧ r = .accessWhileBusy) ∨
      (∃ addr rest, (s.pending = .read addr :: rest ∨ ∃ v, s.pending = .write addr v :: rest) ∧
        (((addr < s.params.coreBase ∨ s.params.coreBase + 256 ≤ addr) ∧ r = .outsideWindow addr) ∨
         ((addr - s.params.coreBase) % 4 ≠ 0 ∧ r = .windowMisaligned addr))) ∨
      (r = .illFormedStream ∧
        ((∃ o rest, s.pending = .outAttach o :: rest ∧ o.cap < o.bytes.length) ∨
         (∃ i rest, s.pending = .inAttach i :: rest ∧ i.bytes.length < i.cur))))

/-- Every command ends in a next state, from every state, and every word written to CMD does. -/
def Obligations.EveryCommandCompletes : Prop :=
  (∀ (i : Instr) (s : State), ∃ t, exec i s = .next t) ∧
  ∀ (s : State) (w : Word) (rest : List HostOp), writesCmd s w rest → ∃ t, step s = .next t

/-! ### Reset -/

/-- R270: every register reads 0 after reset, the packer and unpacker are empty, no error is recorded; as the
state a machine starts in, and as an event in any state. Every reserved field reads 0 at all times. -/
def Obligations.ResetLeavesRegistersZero : Prop :=
  (∀ off, readReg State.reset off = 0) ∧
  (∀ s : State, ∀ om ∈ reservedFields, readReg s om.1 &&& om.2 = 0) ∧
  ∀ (s : State) (rest : List HostOp), s.busy = false → s.pending = .reset :: rest →
    ∃ t, step s = .next t ∧ (∀ off, readReg t off = 0) ∧
      t.pacc = 0 ∧ t.pfill = 0 ∧ t.uacc = 0 ∧ t.uavail = 0 ∧ t.errCode = none ∧ t.busy = false

/-- R271: reset keeps every byte of PIXMEM, OUT and IN, and draws TAB anew (no byte of it is written); a machine
starts with no stream attached. -/
def Obligations.ResetKeepsMemoriesAndStreams : Prop :=
  (State.reset.out = ⟨[], 0⟩ ∧ State.reset.inp = ⟨[], 0⟩ ∧ State.reset.pixmem = [] ∧ State.reset.tab = []) ∧
  ∀ (s t : State) (rest : List HostOp), s.pending = .reset :: rest → step s = .next t →
    (∀ a, t.pixByte a = s.pixByte a) ∧ t.out = s.out ∧ t.inp = s.inp ∧ t.params = s.params ∧
    t.tab = [] ∧ t.tabEpoch = s.tabEpoch + 1

/-- R273: while QSB is 0, as it is after reset, every command but NOP and CLEAR_ERR raises InvalidArgument. -/
def Obligations.UnconfiguredCoreRefusesCommands : Prop :=
  State.reset.qsb = 0 ∧
  ∀ (s : State) (w : Word) (rest : List HostOp) (i : Instr),
    writesCmd s w rest → s.errCode = none → s.qsb = 0 → decode w = .ok i → i ≠ .nop → i ≠ .clearErr →
    step s = .next { s with
      pending := rest, cmd := w, errCode := some .invalidArgument, errOp := i.opcode }

/-! ### The register window -/

/-- R31: a read returns the register at the offset and changes nothing else; a write stores its word's fields in the
register at its offset (R34-R40) and changes nothing else, except that a CFG0 write also empties the packer and the
unpacker, which PKSTATE shows; it is ignored at read-only and unmapped offsets; unmapped offsets and reserved fields
read 0. -/
def Obligations.WindowReadsBackWrites : Prop :=
  ∀ (s : State) (off : Nat) (v : Word) (rest : List HostOp),
    s.busy = false → off < 256 → off % 4 = 0 →
    (s.pending = .read (s.params.coreBase + off) :: rest →
      step s = .next { s with pending := rest, reads := s.reads ++ [.word (readReg s off)] }) ∧
    (0x40 ≤ off → readReg s off = 0) ∧
    (off ≠ 0 → s.pending = .write (s.params.coreBase + off) v :: rest →
      ∃ t, step s = .next t ∧
        (∀ o, o ≠ off → (off = 0x08 → o ≠ 0x3C) → readReg t o = readReg s o) ∧
        (off ∉ [0x08, 0x0C, 0x10, 0x14, 0x18, 0x1C, 0x20] → t = { s with pending := rest }) ∧
        (off = 0x08 → readReg t off = v &&& 0xFFFF#32 ∧ readReg t 0x3C = 0 ∧
          t = { s with
            pending := rest, qsb := lowByte v.toNat, qcb := lowByte (v.toNat / 256)
            pacc := 0, pfill := 0, uacc := 0, uavail := 0 }) ∧
        (off = 0x0C → t = { s with pending := rest, bw := lowHalf v.toNat, bh := lowHalf (v.toNat / 65536) }) ∧
        (off = 0x10 → t = { s with pending := rest, iw := lowHalf v.toNat, ih := lowHalf (v.toNat / 65536) }) ∧
        (off = 0x14 → t = { s with pending := rest, ax := lowHalf v.toNat, ay := lowHalf (v.toNat / 65536) }) ∧
        (off = 0x18 → t = { s with pending := rest, aw := lowHalf v.toNat, ah := lowHalf (v.toNat / 65536) }) ∧
        (off = 0x1C → t = { s with pending := rest, rmin := pixelOfNat v.toNat }) ∧
        (off = 0x20 → t = { s with pending := rest, rmax := pixelOfNat v.toNat }) ∧
        (off ∈ [0x0C, 0x10, 0x14, 0x18] → readReg t off = v) ∧
        (off ∈ [0x1C, 0x20] → readReg t off = v &&& 0xFFFFFF#32))

/-- R34: a host write to CFG0 stores QSB and QCB, whatever their values, empties the packer and the unpacker, and
changes nothing else. -/
def Obligations.Cfg0WriteEmptiesPackers : Prop :=
  ∀ (s : State) (v : Word) (rest : List HostOp),
    s.busy = false → s.pending = .write (s.params.coreBase + 0x08) v :: rest →
    step s = .next { s with
      pending := rest
      qsb := BitVec.ofNat 8 (v.toNat % 256)
      qcb := BitVec.ofNat 8 (v.toNat / 256 % 256)
      pacc := 0, pfill := 0, uacc := 0, uavail := 0 }

/-- R31-R45: each register's value at its offset, by its fields. -/
def Obligations.RegistersSitAtTheirOffsets : Prop :=
  ∀ s : State,
    readReg s 0x00 = s.cmd ∧
    (readReg s 0x04).toNat =
      (if s.busy then 2147483648 else 0) + s.errOp.toNat * 256 +
      (match s.errCode with
        | none => 0
        | some .invalidArgument => 1
        | some .invalidResource => 2
        | some .executionFailure => 3
        | some .outOfMemory => 4) ∧
    (readReg s 0x08).toNat = s.qsb.toNat + s.qcb.toNat * 256 ∧
    (readReg s 0x0C).toNat = s.bw.toNat + s.bh.toNat * 65536 ∧
    (readReg s 0x10).toNat = s.iw.toNat + s.ih.toNat * 65536 ∧
    (readReg s 0x14).toNat = s.ax.toNat + s.ay.toNat * 65536 ∧
    (readReg s 0x18).toNat = s.aw.toNat + s.ah.toNat * 65536 ∧
    (readReg s 0x1C).toNat = pixelValue s.rmin ∧ (readReg s 0x20).toNat = pixelValue s.rmax ∧
    (readReg s 0x24).toNat = s.resIdx.toNat ∧ readReg s 0x28 = s.resErr ∧
    (readReg s 0x2C).toNat = pixelValue s.resPix ∧
    readReg s 0x30 = s.errAcc0 ∧ readReg s 0x34 = s.errAcc1 ∧ readReg s 0x38 = s.errAcc2 ∧
    (readReg s 0x3C).toNat =
      s.uavail.toNat * 16777216 + s.uacc.toNat * 65536 + s.pfill.toNat * 256 + s.pacc.toNat

/-- R73, R74: the host may read and write any byte of PIXMEM and TAB between commands; a write changes that byte
and no other, and a read changes no byte. R79: it may replace either stream's state between commands, and nothing else
changes (log entry 10: any stream that is one, its bytes and its cursor included); R111: a read of a stream delivers
its state and changes nothing else. -/
def Obligations.HostReachesEveryByte : Prop :=
  ∀ (s : State) (rest : List HostOp) (b : Byte) (o : OutStream) (i : InStream), s.busy = false →
    (o.bytes.length ≤ o.cap → s.pending = .outAttach o :: rest →
      step s = .next { s with pending := rest, out := o }) ∧
    (i.cur ≤ i.bytes.length → s.pending = .inAttach i :: rest →
      step s = .next { s with pending := rest, inp := i }) ∧
    (s.pending = .outRead :: rest → step s = .next { s with pending := rest, reads := s.reads ++ [.out s.out] }) ∧
    (s.pending = .inRead :: rest → step s = .next { s with pending := rest, reads := s.reads ++ [.inp s.inp] }) ∧
    (∀ a, a < s.params.pixmemCap →
      (s.pending = .pixWrite a b :: rest → ∃ m,
        step s = .next { s with pending := rest, pixmem := m } ∧
        ∀ x, { s with pixmem := m }.pixByte x = if x = a then b else s.pixByte x) ∧
      (s.pending = .pixRead a :: rest →
        step s = .next { s with pending := rest, reads := s.reads ++ [.byte (s.pixByte a)] })) ∧
    (∀ k, k < s.params.sizetabCap →
      (s.pending = .tabWrite k b :: rest → ∃ m,
        step s = .next { s with pending := rest, tab := m } ∧
        ∀ x, { s with tab := m }.tabByte x = if x = k then b else s.tabByte x) ∧
      (s.pending = .tabRead k :: rest →
        step s = .next { s with pending := rest, reads := s.reads ++ [.byte (s.tabByte k)] }))

/-! ### The configuration check and the error record -/

/-- R243: config_check raises the first of its nine checks that fails; a command whose configuration check fails
records that error and has no other effect. -/
def Obligations.ConfigCheckIsTheNineChecksInOrder : Prop :=
  (∀ (s : State),
    (∀ k, configCheck s = some k ↔ firstFailing (configChecks s) k) ∧
    (configCheck s = none ↔ ∀ c ∈ configChecks s, ¬ c.1)) ∧
  ∀ (i : Instr) (s : State) (k : ErrKind), i ≠ .nop → i ≠ .clearErr → configCheck s = some k →
    (s.errCode = none → exec i s = .next { s with errCode := some k, errOp := s.cmd.byte0 }) ∧
    (s.errCode ≠ none → exec i s = .next s)

/-- R245: the first error is kept, with ERROP the OPC of the command that raised it. -/
def Obligations.FirstErrorIsKept : Prop :=
  ∀ (i : Instr) (s t : State), exec i s = .next t →
    (s.errCode ≠ none → i ≠ .clearErr → t.errCode = s.errCode ∧ t.errOp = s.errOp) ∧
    (s.errCode = none → t.errCode ≠ none → t.errOp = s.cmd.byte0) ∧
    (s.errCode = none → t.errCode = none → i ≠ .clearErr → t.errOp = s.errOp)

/-- R241: no command raises an error its table does not list. -/
def Obligations.CommandsRaiseOnlyListedErrors : Prop :=
  ∀ (i : Instr) (s t : State) (k : ErrKind),
    configCheck s = none → s.errCode = none → exec i s = .next t → t.errCode = some k → k ∈ errorsOf i

/-! ### Control -/

/-- R230: NOP has no effect; R231: CLEAR_ERR clears ERRCODE and ERROP and nothing else; neither runs the configuration
check. A malformed word of either raises InvalidArgument; while an error is recorded it records and clears nothing. -/
def Obligations.NopAndClearErr : Prop :=
  (∀ s : State, exec .nop s = .next s ∧ exec .clearErr s = .next { s with errCode := none, errOp := 0 }) ∧
  ∀ (s : State) (w : Word) (rest : List HostOp),
    writesCmd s w rest → (w.toNat % 256 = 0x00 ∧ w ≠ 0x00#32) ∨ (w.toNat % 256 = 0xF0 ∧ w ≠ 0xF0#32) →
    (s.errCode = none → step s = .next { s with
      pending := rest, cmd := w, errCode := some .invalidArgument, errOp := BitVec.ofNat 8 (w.toNat % 256) }) ∧
    (s.errCode ≠ none → step s = .next { s with pending := rest, cmd := w })

/-! ### RangeEstimator -/

/-- R72: a pixel's three bytes, at `(y * IW + x) * 3` and up, lie in PIXMEM when the configuration passes; Pix reads
them and PixWrite writes them and no other byte. R11: a block lists its pixels in raster order. -/
def Obligations.PixelAddressesAndRasterOrder : Prop :=
  (∀ (s : State) (x y : Nat), configCheck s = none → x < s.iw.toNat → y < s.ih.toNat →
    (y * s.iw.toNat + x) * 3 + 2 < s.params.pixmemCap) ∧
  (∀ (s : State) (x y : Nat), s.pix x y =
    ⟨s.pixByte ((y * s.iw.toNat + x) * 3), s.pixByte ((y * s.iw.toNat + x) * 3 + 1),
     s.pixByte ((y * s.iw.toNat + x) * 3 + 2)⟩) ∧
  (∀ (s : State) (x y : Nat) (p : Pixel), ∃ m : Memory, s.pixWrite x y p = { s with pixmem := m } ∧
    let pa := (y * s.iw.toNat + x) * 3
    ∀ a, { s with pixmem := m }.pixByte a =
      if a = pa then p.c0 else if a = pa + 1 then p.c1 else if a = pa + 2 then p.c2 else s.pixByte a) ∧
  ∀ (s : State) (b : Block), (s.block b).length = b.w * b.h ∧
    ∀ i j, i < b.w → j < b.h → (s.block b)[j * b.w + i]? = some (s.pix (b.x + i) (b.y + j))

/-- R130: a RANGE command whose block has a bad size or leaves the image raises InvalidArgument, and no register
changes. -/
def Obligations.RangeCommandsCheckTheirBlock : Prop :=
  ∀ (i : Instr) (s : State), i = .rangeMinmax ∨ i = .rangeLinear ∨ i = .rangeRegress →
    configCheck s = none → ¬ blockOk s → exec i s = .next (s.raise .invalidArgument)

/-- R131: RANGE_MINMAX writes the per-channel least and greatest values of the block, and nothing else. -/
def Obligations.RangeMinmaxWritesTheBounds : Prop :=
  ∀ s : State, configCheck s = none → blockOk s →
    ∃ lo hi : Pixel, exec .rangeMinmax s = .next { s with rmin := lo, rmax := hi } ∧
      leastOf Pixel.c0 (argBlock s) lo.c0 ∧ greatestOf Pixel.c0 (argBlock s) hi.c0 ∧
      leastOf Pixel.c1 (argBlock s) lo.c1 ∧ greatestOf Pixel.c1 (argBlock s) hi.c1 ∧
      leastOf Pixel.c2 (argBlock s) lo.c2 ∧ greatestOf Pixel.c2 (argBlock s) hi.c2

/-- R132: against the min-max range of a block, P is at most L for every pixel of the block, and L is 0 only when
the block is uniform. -/
def Obligations.MinmaxRangeBoundsItsBlock : Prop :=
  ∀ (blk : List Pixel) (p : Pixel), p ∈ blk →
    sq p (minmax blk).mn ≤ sq (minmax blk).mx (minmax blk).mn ∧
    (sq (minmax blk).mx (minmax blk).mn = 0 ↔ ∀ q ∈ blk, q = p)

/-- R133: RANGE_LINEAR takes the first pair of block pixels at the maximum squared distance, i outer and j inner,
and orders it by magnitude, the earlier pixel first on a tie. No block pixel is farther from RMIN than RMAX, which the
spec derives in R134 (marked [derived: from rule R133]). -/
def Obligations.RangeLinearTakesTheFirstFarthestPair : Prop :=
  ∀ s : State, configCheck s = none → blockOk s →
    ∃ i j, i < (argBlock s).length ∧ j < (argBlock s).length ∧
      let at' := fun n => (argBlock s).getD n Pixel.zero
      (∀ i' j', i' < (argBlock s).length → j' < (argBlock s).length →
        sq (at' i') (at' j') ≤ sq (at' i) (at' j) ∧
        ((i' < i ∨ (i' = i ∧ j' < j)) → sq (at' i') (at' j') < sq (at' i) (at' j))) ∧
      ∃ lo hi : Pixel, exec .rangeLinear s = .next { s with rmin := lo, rmax := hi } ∧
        ((mag (at' j) < mag (at' i) ∧ lo = at' j ∧ hi = at' i) ∨
         (mag (at' i) ≤ mag (at' j) ∧ lo = at' i ∧ hi = at' j)) ∧
        ∀ p ∈ argBlock s, sq p lo ≤ sq hi lo

/-- R136: RANGE_REGRESS evaluates the two exact least-squares lines at the block's least and greatest c0, the
second at the unrounded value of the first, or raises InvalidResource with RMIN and RMAX unchanged. -/
def Obligations.RangeRegressFitsTwoLines : Prop :=
  ∀ s : State, configCheck s = none → blockOk s →
    ((fitDen (argBlock s) Pixel.c0 = 0 ∨ fitDen (argBlock s) Pixel.c1 = 0) →
      exec .rangeRegress s = .next (s.raise .invalidResource)) ∧
    (fitDen (argBlock s) Pixel.c0 ≠ 0 → fitDen (argBlock s) Pixel.c1 ≠ 0 →
      ∃ r0 r1 : Byte, leastOf Pixel.c0 (argBlock s) r0 ∧ greatestOf Pixel.c0 (argBlock s) r1 ∧
        r0.toNat < r1.toNat ∧
        let g0 := fitAt (argBlock s) Pixel.c0 Pixel.c1 (r0.toNat : Rat)
        let g1 := fitAt (argBlock s) Pixel.c0 Pixel.c1 (r1.toNat : Rat)
        exec .rangeRegress s = .next { s with
          rmin := ⟨r0, channelOf g0, channelOf (fitAt (argBlock s) Pixel.c1 Pixel.c2 g0)⟩
          rmax := ⟨r1, channelOf g1, channelOf (fitAt (argBlock s) Pixel.c1 Pixel.c2 g1)⟩ })

/-- R137: RANGE_REGRESS raises InvalidResource exactly when every pixel of the block has the same c0, or every
pixel has the same c1. -/
def Obligations.RegressFailsExactlyOnConstantChannels : Prop :=
  ∀ s t : State, configCheck s = none → blockOk s → s.errCode = none → exec .rangeRegress s = .next t →
    (t.errCode = some .invalidResource ↔
      (∀ p ∈ argBlock s, ∀ q ∈ argBlock s, p.c0 = q.c0) ∨ (∀ p ∈ argBlock s, ∀ q ∈ argBlock s, p.c1 = q.c1))

/-! ### Quantizer -/

/-- R156 with R152-R155: QUANTIZE writes an index k in [0, S], the pixel k reconstructs, and its squared error, and
nothing else; k is 0 when L = 0 or P = 0; under EXACT it is the floor of S*sqrt(P)/sqrt(L), and under F64 and F32 the
rounded operations' index, clamped to S. A pixel outside the image raises InvalidArgument. The rounding of the float
modes is log entry 13 (PRESUMED, G2) and the truncation of a negative quotient log entry 14 (PRESUMED, G1); that each
channel lies between RMIN's and RMAX's is marked [derived] in R153. -/
def Obligations.QuantizeWritesIndexPixelAndError : Prop :=
  ∀ s : State, configCheck s = none →
    (¬ pixelOk s → exec .quantize s = .next (s.raise .invalidArgument)) ∧
    (pixelOk s →
      let p := s.pix s.ax.toNat s.ay.toNat
      let stepCount := 2 ^ s.qsb.toNat - 1
      let l := sq s.rmax s.rmin
      let e := sq p s.rmin
      ∃ (k : Nat) (r : Pixel),
        exec .quantize s = .next { s with
          resIdx := BitVec.ofNat 8 k, resPix := r, resErr := BitVec.ofNat 32 (sq r p) } ∧
        k ≤ stepCount ∧ k < 256 ∧ sq r p ≤ 195075 ∧
        reconstructsPixel stepCount s.rmin s.rmax k r ∧
        (l = 0 → k = 0) ∧ (e = 0 → k = 0 ∧ sq r p = 0) ∧
        (s.params.quantArith = .real → l ≠ 0 →
          k * k * l ≤ stepCount * stepCount * e ∧
          (k < stepCount → stepCount * stepCount * e < (k + 1) * (k + 1) * l)) ∧
        (s.params.quantArith = .f64 → l ≠ 0 → k = min (roundedIndex 53 stepCount l e) stepCount) ∧
        (s.params.quantArith = .f32 → l ≠ 0 → k = min (roundedIndex 24 stepCount l e) stepCount))

/-- R152 (with G2): the float modes' square root is the nearest value with a p-bit significand, for every integer
the modes take the root of, and is never a tie. -/
def Obligations.FloatSqrtIsNearest : Prop :=
  ∀ p n : Nat, (p = 24 ∨ p = 53) → 0 < n → n ≤ 195075 →
    let r := sqrtRnd p n
    2 ^ (p - 1) ≤ r.num ∧ r.num ≤ 2 ^ p ∧ (∃ t, r.den = 2 ^ t) ∧
    (2 * r.num - 1) * (2 * r.num - 1) < 4 * n * (r.den * r.den) ∧
    4 * n * (r.den * r.den) < (2 * r.num + 1) * (2 * r.num + 1)

/-- R152 (with G2): the float modes' quotient is the nearest value `m * 2^b / 2^a` with a p-bit significand m, and
on a tie m is even. -/
def Obligations.FloatQuotientIsNearestEven : Prop :=
  ∀ p num den : Nat, 0 < p → 0 < num → 0 < den →
    ∃ m a b : Nat, divRnd p num den = ⟨m * 2 ^ b, 2 ^ a⟩ ∧ 2 ^ (p - 1) ≤ m ∧ m ≤ 2 ^ p ∧
      2 * (num * 2 ^ a) ≤ (2 * m + 1) * (den * 2 ^ b) ∧
      (2 * m) * (den * 2 ^ b) ≤ 2 * (num * 2 ^ a) + den * 2 ^ b ∧
      ((2 * (num * 2 ^ a) = (2 * m + 1) * (den * 2 ^ b) ∨
        (2 * m) * (den * 2 ^ b) = 2 * (num * 2 ^ a) + den * 2 ^ b) → m % 2 = 0)

/-- R157 with R153: DEQUANTIZE writes the pixel its index reconstructs, and nothing else; an index above S raises
InvalidArgument. That every channel lies between RMIN's and RMAX's is marked [derived] in R153; that a negative quotient
is truncated toward zero is log entry 14 (PRESUMED, the spec's G1). -/
def Obligations.DequantizeReconstructs : Prop :=
  ∀ (s : State) (k : Nat), configCheck s = none →
    (2 ^ s.qsb.toNat - 1 < k → exec (.dequantize k) s = .next (s.raise .invalidArgument)) ∧
    (k ≤ 2 ^ s.qsb.toNat - 1 → ∃ r : Pixel,
      exec (.dequantize k) s = .next { s with resPix := r } ∧
      reconstructsPixel (2 ^ s.qsb.toNat - 1) s.rmin s.rmax k r)

/-- R158: DEQUANTIZE_ST also stores the pixel's three bytes at pa(AX, AY), and no other byte changes; an index above
S, or else a pixel outside the image, raises InvalidArgument. The pixel is R153's: that its channels lie between RMIN's
and RMAX's is marked [derived] there; that a negative quotient is truncated toward zero is log entry 14 (PRESUMED, the
spec's G1). -/
def Obligations.DequantizeStStoresThreeBytes : Prop :=
  ∀ (s : State) (k : Nat), configCheck s = none →
    ((2 ^ s.qsb.toNat - 1 < k ∨ ¬ pixelOk s) → exec (.dequantizeSt k) s = .next (s.raise .invalidArgument)) ∧
    (k ≤ 2 ^ s.qsb.toNat - 1 → pixelOk s → ∃ (r : Pixel) (m : Memory),
      exec (.dequantizeSt k) s = .next { s with resPix := r, pixmem := m } ∧
      reconstructsPixel (2 ^ s.qsb.toNat - 1) s.rmin s.rmax k r ∧
      let pa := (s.ay.toNat * s.iw.toNat + s.ax.toNat) * 3
      ∀ a, { s with pixmem := m }.pixByte a =
        if a = pa then r.c0 else if a = pa + 1 then r.c1 else if a = pa + 2 then r.c2 else s.pixByte a)

/-! ### BitPacker -/

/-- R190, R191: the control words and bytes; unpacking a word and packing it again gives it back; packing a colour
and unpacking it keeps its high bits, which is the colour only for multiples of 8, 4 and 8. The round trips and the
bounds 248, 252, 248 are R191's properties, which the spec marks [derived]. -/
def Obligations.ControlColoursRoundTrip : Prop :=
  (∀ p : Pixel, (pack565 p).toNat = word565 p ∧
    unpack565 (pack565 p) = ⟨p.c0 &&& 0xF8, p.c1 &&& 0xFC, p.c2 &&& 0xF8⟩ ∧
    (unpack565 (pack565 p) = p ↔ p.c0.toNat % 8 = 0 ∧ p.c1.toNat % 4 = 0 ∧ p.c2.toNat % 8 = 0)) ∧
  (∀ w : Half, unpack565 w = colour565 w.toNat ∧ pack565 (unpack565 w) = w ∧
    (unpack565 w).c0.toNat ≤ 248 ∧ (unpack565 w).c1.toNat ≤ 252 ∧ (unpack565 w).c2.toNat ≤ 248) ∧
  (∀ r : Range, ctrlBytes r = controlBytes r.mn r.mx) ∧
  ∀ b0 b1 b2 b3 : Byte,
    ctrlDecode [b0, b1, b2, b3] = ⟨colour565 (wordOf b0 b1), colour565 (wordOf b2 b3)⟩ ∧
    ctrlBytes (ctrlDecode [b0, b1, b2, b3]) = [b0, b1, b2, b3]

/-- R192: PACK_CTRL emits a pending partial byte, then the four control bytes; when they do not all fit, the prefix
that fits is appended and ExecutionFailure raised. The packer is empty after it either way. -/
def Obligations.PackCtrlAppendsControlBytes : Prop :=
  ∀ s : State, configCheck s = none → s.packerOk →
    let bs := pendingByte s ++ controlBytes s.rmin s.rmax
    let t := { s with pacc := 0, pfill := 0, out := outAppend s bs }
    (outRoom s bs.length → exec .packCtrl s = .next t ∧ t.out.bytes = s.out.bytes ++ bs) ∧
    (¬ outRoom s bs.length → exec .packCtrl s = .next (t.raise .executionFailure))

/-- R193: UNPACK_CTRL discards the unpacker's bits, reads four bytes and writes the range they decode to; on a short
read RMIN and RMAX keep their values, the cursor is at the end, and ExecutionFailure is raised. -/
def Obligations.UnpackCtrlReadsTheRange : Prop :=
  ∀ s : State, configCheck s = none →
    (s.inp.cur + 4 ≤ s.inp.bytes.length → exec .unpackCtrl s = .next { s with
      uacc := 0, uavail := 0, inp := ⟨s.inp.bytes, s.inp.cur + 4⟩
      rmin := colour565 (wordOf (inAhead s 0) (inAhead s 1))
      rmax := colour565 (wordOf (inAhead s 2) (inAhead s 3)) }) ∧
    (s.inp.bytes.length < s.inp.cur + 4 →
      exec .unpackCtrl s = .next ({ s with uacc := 0, uavail := 0, inp := inAtEnd s }.raise .executionFailure))

/-- R195, R197: PACK_IDX puts its QSB-bit index above the codes pending in PACC; when that fills the byte it is
emitted, or lost with ExecutionFailure when OUT is full; an index above S raises InvalidArgument with no effect. -/
def Obligations.PackIdxFillsTheByte : Prop :=
  ∀ (s : State) (k : Nat), configCheck s = none → s.packerOk →
    let acc := BitVec.ofNat 8 (s.pacc.toNat + k * 2 ^ s.pfill.toNat)
    (2 ^ s.qsb.toNat - 1 < k → exec (.packIdx k) s = .next (s.raise .invalidArgument)) ∧
    (k ≤ 2 ^ s.qsb.toNat - 1 →
      (s.pfill.toNat + s.qsb.toNat < 8 → exec (.packIdx k) s = .next { s with
        pacc := acc, pfill := BitVec.ofNat 4 (s.pfill.toNat + s.qsb.toNat) }) ∧
      (8 ≤ s.pfill.toNat + s.qsb.toNat → outRoom s 1 → exec (.packIdx k) s = .next { s with
        pacc := 0, pfill := 0, out := ⟨s.out.bytes ++ [acc], s.out.cap⟩ }) ∧
      (8 ≤ s.pfill.toNat + s.qsb.toNat → ¬ outRoom s 1 →
        exec (.packIdx k) s = .next ({ s with pacc := 0, pfill := 0 }.raise .executionFailure)))

/-- R198: PACK_FLUSH emits the pending partial byte, and does nothing when no code is pending. -/
def Obligations.PackFlushEmitsThePendingByte : Prop :=
  ∀ s : State, configCheck s = none → s.packerOk →
    (outRoom s (pendingByte s).length → exec .packFlush s = .next { s with
      pacc := 0, pfill := 0, out := ⟨s.out.bytes ++ pendingByte s, s.out.cap⟩ }) ∧
    (s.pfill.toNat ≠ 0 → ¬ outRoom s 1 →
      exec .packFlush s = .next ({ s with pacc := 0, pfill := 0 }.raise .executionFailure))

/-- R199, R200: UNPACK_IDX takes the low QSB bits of the current byte, reading one byte when its bits are exhausted,
and raises ExecutionFailure with the unpacker unchanged when IN is exhausted; UNPACK_ALIGN empties the unpacker. -/
def Obligations.UnpackIdxTakesTheLowBits : Prop :=
  ∀ s : State, configCheck s = none → s.unpackerOk → s.inp.cur ≤ s.inp.bytes.length →
    (s.uavail.toNat ≠ 0 → exec .unpackIdx s = .next { s with
      resIdx := BitVec.ofNat 8 (s.uacc.toNat % 2 ^ s.qsb.toNat)
      uacc := BitVec.ofNat 8 (s.uacc.toNat / 2 ^ s.qsb.toNat)
      uavail := BitVec.ofNat 4 (s.uavail.toNat - s.qsb.toNat) }) ∧
    (s.uavail.toNat = 0 → s.inp.cur < s.inp.bytes.length → exec .unpackIdx s = .next { s with
      resIdx := BitVec.ofNat 8 ((inAhead s 0).toNat % 2 ^ s.qsb.toNat)
      uacc := BitVec.ofNat 8 ((inAhead s 0).toNat / 2 ^ s.qsb.toNat)
      uavail := BitVec.ofNat 4 (8 - s.qsb.toNat)
      inp := ⟨s.inp.bytes, s.inp.cur + 1⟩ }) ∧
    (s.uavail.toNat = 0 → s.inp.cur = s.inp.bytes.length →
      exec .unpackIdx s = .next (s.raise .executionFailure)) ∧
    exec .unpackAlign s = .next { s with uacc := 0, uavail := 0 }

/-- R196, R201: packing indices gives ceil(m*QSB/8) bytes whose padding bits are 0, and unpacking them gives the
indices back. -/
def Obligations.IndexPackingInverts : Prop :=
  ∀ (qsb : Nat) (ks : List Nat), qsb ∈ [1, 2, 4, 8] → (∀ k ∈ ks, k ≤ 2 ^ qsb - 1) →
    (packIndices qsb ks).length = (ks.length * qsb + 7) / 8 ∧
    (∀ j b, j < (ks.length * qsb + 7) / 8 → b < 8 → ks.length * qsb ≤ j * 8 + b →
      ((packIndices qsb ks).getD j 0).getLsbD b = false) ∧
    unpackIndices qsb (2 ^ qsb - 1) (packIndices qsb ks) ks.length = ks

/-- R196, R201: PACK_IDX over a list of indices and then PACK_FLUSH, from an empty packer, write the bytes
pack_indices gives, and change nothing else. -/
def Obligations.PackCommandsWritePackedIndices : Prop :=
  ∀ (s : State) (ks : List Nat), configCheck s = none → s.pacc = 0 → s.pfill = 0 →
    (∀ k ∈ ks, k ≤ 2 ^ s.qsb.toNat - 1) → outRoom s (packIndices s.qsb.toNat ks).length →
    runCommands (ks.map Instr.packIdx ++ [.packFlush]) s =
      .next { s with out := ⟨s.out.bytes ++ packIndices s.qsb.toNat ks, s.out.cap⟩ }

/-- R201: m UNPACK_IDX commands from an empty unpacker read the packed indices back, in order. -/
def Obligations.UnpackCommandsReadPackedIndices : Prop :=
  ∀ (s : State) (ks : List Nat) (t : Nat), configCheck s = none → s.uavail = 0 →
    (∀ k ∈ ks, k ≤ 2 ^ s.qsb.toNat - 1) → packIndices s.qsb.toNat ks <+: s.inp.bytes.drop s.inp.cur →
    t < ks.length →
    ∃ u, runCommands (List.replicate (t + 1) .unpackIdx) s = .next u ∧ some u.resIdx.toNat = ks[t]?

/-- R212: SIZETAB_CLEAR writes 0 to bytes 0 .. T-1 of TAB; bytes from T upward and everything else are unchanged. -/
def Obligations.SizetabClearZeroesTheTable : Prop :=
  ∀ s : State, configCheck s = none → ∃ m : Memory,
    exec .sizetabClear s = .next { s with tab := m } ∧
    ∀ k, { s with tab := m }.tabByte k = if k < tableLength s then 0 else s.tabByte k

/-- R211, R213: SIZETAB_WRITE sets the macroblock's 2-bit code and leaves every other position of TAB; R214:
SIZETAB_READ returns the macroblock's raw 2 bits. A macroblock outside the grid, or else (SIZETAB_WRITE) a code above
2, raises InvalidArgument. -/
def Obligations.SizetabWriteAndReadOneCode : Prop :=
  (∀ (s : State) (code : Nat), configCheck s = none →
    ((¬ macroblockOk s ∨ 2 < code) → exec (.sizetabWrite code) s = .next (s.raise .invalidArgument)) ∧
    (macroblockOk s → code ≤ 2 → ∃ m : Memory,
      exec (.sizetabWrite code) s = .next { s with tab := m } ∧
      codeWritten s { s with tab := m } (argIndex s) code)) ∧
  ∀ s : State, configCheck s = none →
    (macroblockOk s → exec .sizetabRead s = .next { s with resIdx := BitVec.ofNat 8 (codeAt s (argIndex s)) }) ∧
    (¬ macroblockOk s → exec .sizetabRead s = .next (s.raise .invalidArgument))

/-- R215: SIZETAB_LOAD reads T bytes of IN into TAB from byte 0; on a short read it stores the bytes there were and
raises ExecutionFailure. -/
def Obligations.SizetabLoadReadsTheTable : Prop :=
  ∀ s : State, configCheck s = none → s.inp.cur ≤ s.inp.bytes.length → ∃ m : Memory,
    let n := min (tableLength s) (s.inp.bytes.length - s.inp.cur)
    let t := { s with uacc := 0, uavail := 0, tab := m, inp := ⟨s.inp.bytes, s.inp.cur + n⟩ }
    (s.inp.cur + tableLength s ≤ s.inp.bytes.length → exec .sizetabLoad s = .next t) ∧
    (s.inp.bytes.length < s.inp.cur + tableLength s → exec .sizetabLoad s = .next (t.raise .executionFailure)) ∧
    ∀ k, t.tabByte k = if k < n then inAhead s k else s.tabByte k

/-- R216: after SIZETAB_CLEAR, writing a code to every macroblock of the grid, each once and in any order, leaves
every macroblock with its code and every unused position of the table 0. -/
def Obligations.TablePackingInverts : Prop :=
  ∀ (s : State) (order : List (Half × Half × Nat)), configCheck s = none →
    (∀ o ∈ order, o.1.toNat < s.mbw ∧ o.2.1.toNat < s.mbh ∧ o.2.2 ≤ 2) →
    (order.map fun o => (o.1, o.2.1)).Nodup →
    (∀ col row : Half, col.toNat < s.mbw → row.toNat < s.mbh → ∃ code, (col, row, code) ∈ order) →
    ∃ u t, exec .sizetabClear s = .next u ∧ writeCodes order u = .next t ∧
      (∀ o ∈ order, codeAt t (o.2.1.toNat * s.mbw + o.1.toNat) = o.2.2) ∧
      ∀ n, s.mbw * s.mbh ≤ n → n < 4 * tableLength s → codeAt t n = 0

/-! ### MacroblockSelector -/

/-- R170: at every shift the microblocks have sides `max(2, side >> shift)`, are listed in row-major order (row `my`
outer, column `mx` inner, D17), and tile the macroblock exactly: each of its pixels is in one microblock, once. -/
def Obligations.MicroblocksTileTheMacroblock : Prop :=
  (∀ (s : State) (mb : Macroblock) (shift : Nat),
    let w := max 2 (s.bw.toNat / 2 ^ shift)
    let h := max 2 (s.bh.toNat / 2 ^ shift)
    (s.micro mb shift).length = s.bw.toNat / w * (s.bh.toNat / h) ∧
    ∀ mx my, mx < s.bw.toNat / w → my < s.bh.toNat / h →
      (s.micro mb shift)[my * (s.bw.toNat / w) + mx]? = some ⟨mb.ox + mx * w, mb.oy + my * h, w, h⟩) ∧
  ∀ (s : State) (mb : Macroblock) (shift : Nat), configCheck s = none →
    (∀ b ∈ s.micro mb shift, b.w = max 2 (s.bw.toNat / 2 ^ shift) ∧ b.h = max 2 (s.bh.toNat / 2 ^ shift)) ∧
    ((s.micro mb shift).flatMap Block.coords).Nodup ∧
    ∀ x y, (x, y) ∈ (s.micro mb shift).flatMap Block.coords ↔
      mb.ox ≤ x ∧ x < mb.ox + s.bw.toNat ∧ mb.oy ≤ y ∧ y < mb.oy + s.bh.toNat

/-- R171, R173: encode_micro takes the first candidate range with the least error; its record is the control bytes
and the packed indices of the block against that range, exact or packed as the parameter says. -/
def Obligations.EncodeMicroTakesTheFirstLeastError : Prop :=
  ∀ (s : State) (b : Block),
    let blk := s.block b
    let stepCount := 2 ^ s.qsb.toNat - 1
    let cand := minmax blk ::
      (if s.params.altEstimators then linear blk :: (regress blk).toList else [])
    let q := fun g : Range => match s.params.encRange with
      | .unpacked => g
      | .packed => ctrlDecode (ctrlBytes g)
    let err := fun g : Range =>
      (blk.map fun x => sq (dequant stepCount (q g) (qindex s.params.quantArith stepCount (q g) x)) x).sum
    ∃ (i : Nat) (g : Range), cand[i]? = some g ∧
      (∀ j c, cand[j]? = some c → err g ≤ err c ∧ (j < i → err g < err c)) ∧
      s.encodeMicro b =
        (controlBytes g.mn g.mx ++ packIndices s.qsb.toNat (blk.map (qindex s.params.quantArith stepCount (q g))), err g)

/-- R172, R115: the trial of a shift concatenates the microblocks' records in order and sums their errors; its length
is the number of microblocks times `4 + NB(w, h)`. -/
def Obligations.TrialConcatenatesRecords : Prop :=
  ∀ (s : State) (mb : Macroblock) (shift : Nat),
    (s.trial mb shift).1 = ((s.micro mb shift).map fun b => (s.encodeMicro b).1).flatten ∧
    (s.trial mb shift).2 = ((s.micro mb shift).map fun b => (s.encodeMicro b).2).sum ∧
    (s.trial mb shift).1.length =
      (s.bw.toNat / max 2 (s.bw.toNat / 2 ^ shift)) * (s.bh.toNat / max 2 (s.bh.toNat / 2 ^ shift)) *
      (4 + (max 2 (s.bw.toNat / 2 ^ shift) * max 2 (s.bh.toNat / 2 ^ shift) * s.qsb.toNat + 7) / 8)

/-- R174, R175: SELECT_MB flushes the packer, chooses the shift by the selection rule, writes the macroblock's code
in TAB and the result registers, and appends the chosen trial to OUT; nothing else changes. Outside the grid it raises
InvalidArgument before any effect; a short write of the flush ends it before the trial. -/
def Obligations.SelectMbEncodesTheMacroblock : Prop :=
  (∀ s : State, configCheck s = none →
    (¬ macroblockOk s → exec .selectMb s = .next (s.raise .invalidArgument)) ∧
    (macroblockOk s → s.pfill.toNat ≠ 0 → ¬ outRoom s 1 →
      exec .selectMb s = .next ({ s with pacc := 0, pfill := 0 }.raise .executionFailure))) ∧
  ∀ s : State, configCheck s = none → macroblockOk s → s.packerOk →
    ∃ (sel : Nat) (m : Memory),
      selects s.params (s.bw.toNat * s.bh.toNat) (s.trial (argMacroblock s) 0).2 (s.trial (argMacroblock s) 1).2 sel ∧
      codeWritten s { s with tab := m } (argIndex s) sel ∧
      let bs := pendingByte s ++ (s.trial (argMacroblock s) sel).1
      (outRoom s bs.length →
        exec .selectMb s = .next { selected s sel m with out := ⟨s.out.bytes ++ bs, s.out.cap⟩ }) ∧
      (outRoom s (pendingByte s).length → ¬ outRoom s bs.length →
        exec .selectMb s = .next ({ selected s sel m with out := outAppend s bs }.raise .executionFailure))

/-- R176 (a): a uniform macroblock has error 0 at every shift and selects shift 0 (with the exact range). -/
def Obligations.UniformMacroblockSelectsShiftZero : Prop :=
  ∀ (s t : State) (v : Pixel), configCheck s = none → macroblockOk s → s.packerOk → s.params.encRange = .unpacked →
    uniformMacroblock s v → outRoom s ((pendingByte s).length + (s.trial (argMacroblock s) 0).1.length) →
    exec .selectMb s = .next t →
    t.errCode = s.errCode ∧ t.resIdx = 0 ∧ t.resErr = 0 ∧ t.errAcc0 = 0 ∧ t.errAcc1 = 0 ∧ t.errAcc2 = 0 ∧
    codeAt t (argIndex s) = 0

/-- R176 (d): SELECT_MB's effect on OUT, on its code in TAB and on its result registers depends only on the
configuration, the parameters, the packer, OUT, the macroblock and the macroblock's own pixels. -/
def Obligations.SelectMbDependsOnItsOwnPixels : Prop :=
  ∀ s₁ s₂ t₁ t₂ : State,
    s₁.params = s₂.params → s₁.qsb = s₂.qsb → s₁.qcb = s₂.qcb → s₁.bw = s₂.bw → s₁.bh = s₂.bh →
    s₁.iw = s₂.iw → s₁.ih = s₂.ih → s₁.ax = s₂.ax → s₁.ay = s₂.ay →
    s₁.pacc = s₂.pacc → s₁.pfill = s₂.pfill → s₁.out = s₂.out → s₁.errCode = s₂.errCode →
    configCheck s₁ = none → macroblockOk s₁ → outRoom s₁ (pendingByte s₁).length →
    (∀ x, x < s₁.bw.toNat → ∀ y, y < s₁.bh.toNat →
      s₁.pix (s₁.ax.toNat * s₁.bw.toNat + x) (s₁.ay.toNat * s₁.bh.toNat + y) =
      s₂.pix (s₁.ax.toNat * s₁.bw.toNat + x) (s₁.ay.toNat * s₁.bh.toNat + y)) →
    exec .selectMb s₁ = .next t₁ → exec .selectMb s₂ = .next t₂ →
    t₁.out = t₂.out ∧ codeAt t₁ (argIndex s₁) = codeAt t₂ (argIndex s₁) ∧ t₁.errCode = t₂.errCode ∧
    t₁.resIdx = t₂.resIdx ∧ t₁.resErr = t₂.resErr ∧
    t₁.errAcc0 = t₂.errAcc0 ∧ t₁.errAcc1 = t₂.errAcc1 ∧ t₁.errAcc2 = t₂.errAcc2

/-- R178: DECODE_MB reads each microblock's control bytes and index bytes from IN, in microblock order, and writes
the pixels they reconstruct; the cursor moves past the records, RES_IDX is the shift, the unpacker is empty, bytes of
PIXMEM outside the macroblock and everything else are unchanged. Outside the grid it raises InvalidArgument with no
effect; on code 3 it raises InvalidResource with only the unpacker cleared. -/
def Obligations.DecodeMbWritesTheMacroblock : Prop :=
  (∀ s : State, configCheck s = none →
    (¬ macroblockOk s → exec .decodeMb s = .next (s.raise .invalidArgument)) ∧
    (macroblockOk s → codeAt s (argIndex s) = 3 →
      exec .decodeMb s = .next ({ s with uacc := 0, uavail := 0 }.raise .invalidResource))) ∧
  ∀ s : State, configCheck s = none → macroblockOk s → codeAt s (argIndex s) ≠ 3 →
    let blocks := s.micro (argMacroblock s) (codeAt s (argIndex s))
    let w := max 2 (s.bw.toNat / 2 ^ codeAt s (argIndex s))
    let h := max 2 (s.bh.toNat / 2 ^ codeAt s (argIndex s))
    let nb := (w * h * s.qsb.toNat + 7) / 8
    s.inp.cur + blocks.length * (4 + nb) ≤ s.inp.bytes.length →
    ∃ m : Memory,
      let t := { s with
        uacc := 0, uavail := 0, pixmem := m, resIdx := BitVec.ofNat 8 (codeAt s (argIndex s))
        inp := ⟨s.inp.bytes, s.inp.cur + blocks.length * (4 + nb)⟩ }
      exec .decodeMb s = .next t ∧
      (∀ a, ¬ inMacroblock s a → t.pixByte a = s.pixByte a) ∧
      ∀ i b, blocks[i]? = some b → ∀ x y, x < w → y < h →
        let record := (s.inp.bytes.drop (s.inp.cur + i * (4 + nb))).take (4 + nb)
        let k := (record.getD (4 + (y * w + x) * s.qsb.toNat / 8) 0).toNat /
          2 ^ ((y * w + x) * s.qsb.toNat % 8) % 2 ^ s.qsb.toNat
        t.pix (b.x + x) (b.y + y) = dequant (2 ^ s.qsb.toNat - 1) (ctrlDecode (record.take 4)) k

/-- R178: when IN is too short, DECODE_MB raises ExecutionFailure with the cursor at the end, RES_IDX the shift and
the unpacker empty; the microblocks whose records were whole have their pixels, no other byte of PIXMEM changes, and
nothing else does. -/
def Obligations.DecodeMbKeepsWholeMicroblocks : Prop :=
  ∀ s : State, configCheck s = none → macroblockOk s → codeAt s (argIndex s) ≠ 3 →
    s.inp.cur ≤ s.inp.bytes.length →
    let blocks := s.micro (argMacroblock s) (codeAt s (argIndex s))
    let w := max 2 (s.bw.toNat / 2 ^ codeAt s (argIndex s))
    let h := max 2 (s.bh.toNat / 2 ^ codeAt s (argIndex s))
    let nb := (w * h * s.qsb.toNat + 7) / 8
    s.inp.bytes.length < s.inp.cur + blocks.length * (4 + nb) →
    ∃ m : Memory,
      let t := { s with
        uacc := 0, uavail := 0, pixmem := m, resIdx := BitVec.ofNat 8 (codeAt s (argIndex s)), inp := inAtEnd s }
      exec .decodeMb s = .next (t.raise .executionFailure) ∧
      (s.errCode = none → (t.raise .executionFailure).errCode = some .executionFailure) ∧
      (∀ a, ¬ inMacroblock s a → t.pixByte a = s.pixByte a) ∧
      let whole := (s.inp.bytes.length - s.inp.cur) / (4 + nb)
      (∀ i b, whole ≤ i → blocks[i]? = some b → t.block b = s.block b) ∧
      (∀ i b, i < whole → blocks[i]? = some b →
        let record := (s.inp.bytes.drop (s.inp.cur + i * (4 + nb))).take (4 + nb)
        t.block b = (unpackIndices s.qsb.toNat (2 ^ s.qsb.toNat - 1) (record.drop 4) (w * h)).map
          (dequant (2 ^ s.qsb.toNat - 1) (ctrlDecode (record.take 4))))

/-- R179: the round trip of a macroblock. SELECT_MB with room in OUT, then DECODE_MB of the bytes of its record with
the same configuration, gives every microblock the pixels its indices reconstruct from the 5:6:5 control words. -/
def Obligations.SelectThenDecodeRoundTrip : Prop :=
  ∀ s t : State, configCheck s = none → macroblockOk s → s.pacc = 0 → s.pfill = 0 → s.errCode = none →
    s.streamsOk → exec .selectMb s = .next t → t.errCode = none →
    ∃ v, exec .decodeMb { t with inp := ⟨t.out.bytes, s.out.bytes.length⟩ } = .next v ∧ v.errCode = none ∧
      v.inp.cur = t.out.bytes.length ∧ v.resIdx = t.resIdx ∧
      ∀ b ∈ s.micro (argMacroblock s) t.resIdx.toNat,
        v.block b = (blockIndices s.params (2 ^ s.qsb.toNat - 1) (s.block b)).map
          (dequant (2 ^ s.qsb.toNat - 1) (ctrlDecode (ctrlBytes (chooseRange s.params (2 ^ s.qsb.toNat - 1) (s.block b)))))

/-- R180: a uniform macroblock of colour v comes back as `(8*(v.c0 >> 3), 4*(v.c1 >> 2), 8*(v.c2 >> 3))` at every
quality, and as v itself only for the colours a control word represents. -/
def Obligations.UniformMacroblockRoundTrip : Prop :=
  ∀ (s t : State) (v : Pixel), configCheck s = none → macroblockOk s → s.pacc = 0 → s.pfill = 0 → s.errCode = none →
    s.streamsOk → uniformMacroblock s v →
    exec .selectMb s = .next t → t.errCode = none →
    ∃ u, exec .decodeMb { t with inp := ⟨t.out.bytes, s.out.bytes.length⟩ } = .next u ∧ u.errCode = none ∧
      uniformMacroblock u
        ⟨BitVec.ofNat 8 (8 * (v.c0.toNat / 8)), BitVec.ofNat 8 (4 * (v.c1.toNat / 4)), BitVec.ofNat 8 (8 * (v.c2.toNat / 8))⟩

/-- R276: RANGE_MINMAX, PACK_CTRL, then QUANTIZE and PACK_IDX of each pixel of the block in raster order, then
PACK_FLUSH, put on OUT the record encode_micro gives the block with the default estimator and range. -/
def Obligations.FineGrainedEncodeMatchesTheRecord : Prop :=
  ∀ s : State, configCheck s = none → blockOk s → s.pacc = 0 → s.pfill = 0 →
    s.params.encRange = .unpacked → s.params.altEstimators = false →
    let b : Block := ⟨s.ax.toNat, s.ay.toNat, s.aw.toNat, s.ah.toNat⟩
    outRoom s (s.encodeMicro b).1.length →
    ∃ t u v, runCommands [.rangeMinmax, .packCtrl] s = .next t ∧ packPixels b.coords t = .next u ∧
      exec .packFlush u = .next v ∧ v.errCode = s.errCode ∧ v.pacc = 0 ∧ v.pfill = 0 ∧
      v.out = ⟨s.out.bytes ++ (s.encodeMicro b).1, s.out.cap⟩

/-! ### The whole machine -/

/-- Which commands write which state, over all commands and all ways they end: the memories (R71, R74), the streams
(R70), the registers (R32-R44), the packer and unpacker (R46, R47). -/
def Obligations.CommandsWriteOnlyWhatTheirRulesName : Prop :=
  ∀ (i : Instr) (s t : State), exec i s = .next t →
    (t.params = s.params ∧ t.cmd = s.cmd ∧ t.busy = s.busy ∧ t.qsb = s.qsb ∧ t.qcb = s.qcb ∧ t.bw = s.bw ∧
      t.bh = s.bh ∧ t.iw = s.iw ∧ t.ih = s.ih ∧ t.ax = s.ax ∧ t.ay = s.ay ∧ t.aw = s.aw ∧ t.ah = s.ah ∧
      t.tabEpoch = s.tabEpoch ∧ t.pending = s.pending ∧ t.reads = s.reads) ∧
    (i.opcode.toNat ∉ [0x12, 0x41] → t.pixmem = s.pixmem) ∧
    (i.opcode.toNat ∉ [0x30, 0x31, 0x33, 0x40] → t.tab = s.tab) ∧
    (i.opcode.toNat ∉ [0x20, 0x22, 0x23, 0x40] → t.out = s.out ∧ t.pacc = s.pacc ∧ t.pfill = s.pfill) ∧
    (i.opcode.toNat ∉ [0x21, 0x24, 0x33, 0x41] → t.inp = s.inp) ∧
    (i.opcode.toNat ∉ [0x21, 0x24, 0x25, 0x33, 0x41] → t.uacc = s.uacc ∧ t.uavail = s.uavail) ∧
    (i.opcode.toNat ∉ [0x01, 0x02, 0x03, 0x21] → t.rmin = s.rmin ∧ t.rmax = s.rmax) ∧
    (i.opcode.toNat ∉ [0x10, 0x24, 0x32, 0x40, 0x41] → t.resIdx = s.resIdx) ∧
    (i.opcode.toNat ∉ [0x10, 0x40] → t.resErr = s.resErr) ∧
    (i.opcode.toNat ∉ [0x10, 0x11, 0x12] → t.resPix = s.resPix) ∧
    (i.opcode.toNat ≠ 0x40 → t.errAcc0 = s.errAcc0 ∧ t.errAcc1 = s.errAcc1 ∧ t.errAcc2 = s.errAcc2)

/-- R177 and the frames of R211-R215: whichever way they end, SELECT_MB and SIZETAB_WRITE change no code of TAB but
their macroblock's, and SIZETAB_CLEAR and SIZETAB_LOAD no byte from T upward. -/
def Obligations.TableWritesStayInTheirField : Prop :=
  ∀ (i : Instr) (s t : State), exec i s = .next t →
    (i.opcode.toNat ∈ [0x31, 0x40] → ∀ n, n ≠ argIndex s → codeAt t n = codeAt s n) ∧
    (i.opcode.toNat ∈ [0x30, 0x33] → ∀ k, tableLength s ≤ k → t.tabByte k = s.tabByte k)

/-- The frame of PIXMEM: whichever way it ends, DECODE_MB changes no byte outside its macroblock, and DEQUANTIZE_ST no
byte but its pixel's three. -/
def Obligations.PixelWritesStayInTheirBlock : Prop :=
  ∀ s t : State, configCheck s = none →
    (exec .decodeMb s = .next t → macroblockOk s → ∀ a, ¬ inMacroblock s a → t.pixByte a = s.pixByte a) ∧
    ∀ k, exec (.dequantizeSt k) s = .next t → ∀ a,
      (a < (s.ay.toNat * s.iw.toNat + s.ax.toNat) * 3 ∨ (s.ay.toNat * s.iw.toNat + s.ax.toNat) * 3 + 2 < a) →
      t.pixByte a = s.pixByte a

/-- R78, R80, R81: no command takes bytes off OUT, changes its capacity or writes past it, and none changes IN's bytes
or moves its cursor back. -/
def Obligations.StreamsOnlyMoveForward : Prop :=
  ∀ (i : Instr) (s t : State), exec i s = .next t → s.streamsOk →
    s.out.bytes <+: t.out.bytes ∧ t.out.cap = s.out.cap ∧ t.inp.bytes = s.inp.bytes ∧ s.inp.cur ≤ t.inp.cur ∧
    t.streamsOk

/-- Every step keeps the machine's invariant, from every state that has it: the memories' canonical form and bounds,
the streams' bounds, the packer's invariant (R46) and the unpacker's (R47), ERROP 0 without an error and BUSY 0 (R33). -/
def Obligations.EveryStepKeepsTheInvariant : Prop :=
  ∀ s t : State, s.Inv → step s = .next t → t.Inv

/-- The reset state has the invariant. -/
def Obligations.ResetHasTheInvariant : Prop := State.reset.Inv
end

