-- ==== Sys2Proof/Laws/Arith.lean ====
section
/-! SUPPORT. What the arithmetic of Machine/Arith.lean computes: integer square roots, powers of two, ceilings,
saturation, squared distances, and the bits of small BitVec operations as numbers. -/

namespace Sys2Proof.Machine

theorem ceilDiv_eight (n : Nat) : ceilDiv n 8 = (n + 7) / 8 := rfl

theorem ceilDiv_four (n : Nat) : ceilDiv n 4 = (n + 3) / 4 := rfl

theorem isPow2_iff {n : Nat} : isPow2 n = true ↔ ∃ e, n = 2 ^ e := by
  constructor
  · intro h
    exact ⟨n.log2, by simpa [isPow2] using h⟩
  · rintro ⟨e, rfl⟩
    simp [isPow2, Nat.log2_two_pow]

/-! ### Integer square root -/

theorem isqrtBits_spec (n : Nat) : ∀ k r : Nat, r * r ≤ n → n < (r + 2 ^ k) * (r + 2 ^ k) →
    isqrtBits n k r * isqrtBits n k r ≤ n ∧ n < (isqrtBits n k r + 1) * (isqrtBits n k r + 1)
  | 0, r, hlo, hhi => by simpa [isqrtBits] using ⟨hlo, hhi⟩
  | k + 1, r, hlo, hhi => by
    rw [isqrtBits]
    split
    · next h => exact isqrtBits_spec n k _ h (by rw [Nat.pow_succ] at hhi; ring_nf at hhi ⊢; omega)
    · next h => exact isqrtBits_spec n k _ hlo (by omega)

/-- `isqrt n` is the largest r with r*r ≤ n (R9). -/
theorem isqrt_spec (n : Nat) : isqrt n * isqrt n ≤ n ∧ n < (isqrt n + 1) * (isqrt n + 1) := by
  refine isqrtBits_spec n _ 0 (by simp) ?_
  have h1 : n < 2 ^ (n.log2 + 1) := Nat.lt_log2_self
  have h2 : 2 ^ (n.log2 + 1) ≤ 2 ^ (n.log2 / 2 + 1) * 2 ^ (n.log2 / 2 + 1) := by
    rw [← Nat.pow_add]
    exact Nat.pow_le_pow_right (by omega) (by omega)
  simpa using lt_of_lt_of_le h1 h2

theorem le_isqrt_iff {r n : Nat} : r ≤ isqrt n ↔ r * r ≤ n := by
  have h := isqrt_spec n
  constructor
  · intro hr
    exact (Nat.mul_le_mul hr hr).trans h.1
  · intro hr
    by_contra hlt
    have : (isqrt n + 1) * (isqrt n + 1) ≤ r * r := Nat.mul_le_mul (by omega) (by omega)
    omega

@[simp] theorem isqrt_zero : isqrt 0 = 0 := by decide

/-- `isqrt(floor(a / l))` is the floor of the root of a / l (R152, EXACT). -/
theorem isqrt_div_spec (a : Nat) {l : Nat} (hl : 0 < l) :
    isqrt (a / l) * isqrt (a / l) * l ≤ a ∧ a < (isqrt (a / l) + 1) * (isqrt (a / l) + 1) * l := by
  have h := isqrt_spec (a / l)
  constructor
  · exact (Nat.le_div_iff_mul_le hl).mp h.1
  · exact (Nat.div_lt_iff_lt_mul hl).mp h.2

/-! ### Squared distances -/

theorem sqDiff_comm (a b : Byte) : sqDiff a b = sqDiff b a := by
  unfold sqDiff
  rw [← Int.natAbs_neg]
  congr 2
  ring

theorem sq_comm (p q : Pixel) : sq p q = sq q p := by
  unfold sq
  rw [sqDiff_comm p.c0, sqDiff_comm p.c1, sqDiff_comm p.c2]

theorem sqDiff_le (a b : Byte) : sqDiff a b ≤ 65025 := by
  have ha := a.isLt
  have hb := b.isLt
  have h : ((a.toNat : Int) - (b.toNat : Int)).natAbs ≤ 255 := by omega
  calc sqDiff a b ≤ 255 ^ 2 := Nat.pow_le_pow_left h 2
    _ = 65025 := by norm_num

/-- Squared distances are at most 3 * 255^2 (R151, R154). -/
theorem sq_le (p q : Pixel) : sq p q ≤ 195075 := by
  have h0 := sqDiff_le p.c0 q.c0
  have h1 := sqDiff_le p.c1 q.c1
  have h2 := sqDiff_le p.c2 q.c2
  unfold sq
  omega

theorem sqDiff_eq_zero {a b : Byte} : sqDiff a b = 0 ↔ a = b := by
  unfold sqDiff
  rw [Nat.pow_eq_zero]
  constructor
  · rintro ⟨h, -⟩
    exact BitVec.eq_of_toNat_eq (by omega)
  · rintro rfl
    simp

@[simp] theorem sqDiff_self (a : Byte) : sqDiff a a = 0 := sqDiff_eq_zero.mpr rfl

theorem sq_eq_zero {p q : Pixel} : sq p q = 0 ↔ p = q := by
  have key : sq p q = 0 ↔ sqDiff p.c0 q.c0 = 0 ∧ sqDiff p.c1 q.c1 = 0 ∧ sqDiff p.c2 q.c2 = 0 := by
    unfold sq
    omega
  rw [key, sqDiff_eq_zero, sqDiff_eq_zero, sqDiff_eq_zero]
  cases p
  cases q
  simp

@[simp] theorem sq_self (p : Pixel) : sq p p = 0 := sq_eq_zero.mpr rfl

/-- A channel between two others is no farther from the one than the other is. -/
theorem sqDiff_mono {a x b : Byte} (h1 : a.toNat ≤ x.toNat) (h2 : x.toNat ≤ b.toNat) : sqDiff x a ≤ sqDiff b a := by
  unfold sqDiff
  exact Nat.pow_le_pow_left (by omega) 2

/-! ### Bytes as numbers -/

theorem ofInt_toNat_of_range {v : Int} (h0 : 0 ≤ v) (h1 : v < 256) : ((BitVec.ofInt 8 v).toNat : Int) = v := by
  rw [BitVec.toNat_ofInt]
  rw [Int.toNat_of_nonneg (Int.emod_nonneg _ (by norm_num))]
  exact Int.emod_eq_of_lt h0 (by norm_num; omega)

theorem byte_and_mask (b : Byte) (q : Nat) (hq : q ≤ 8) :
    b &&& BitVec.ofNat 8 (2 ^ q - 1) = BitVec.ofNat 8 (b.toNat % 2 ^ q) := by
  apply BitVec.eq_of_toNat_eq
  have hb := b.isLt
  have hp : 2 ^ q ≤ 2 ^ 8 := Nat.pow_le_pow_right (by omega) hq
  have hpos : 0 < 2 ^ q := Nat.two_pow_pos q
  have h1 : (2 ^ q - 1) % 2 ^ 8 = 2 ^ q - 1 := Nat.mod_eq_of_lt (by omega)
  have h2 : b.toNat % 2 ^ q % 2 ^ 8 = b.toNat % 2 ^ q :=
    Nat.mod_eq_of_lt (lt_of_lt_of_le (Nat.mod_lt _ hpos) hp)
  simp only [BitVec.toNat_and, BitVec.toNat_ofNat, h1, h2, Nat.and_two_pow_sub_one_eq_mod]

theorem byte_ushiftRight (b : Byte) (q : Nat) : b >>> q = BitVec.ofNat 8 (b.toNat / 2 ^ q) := by
  apply BitVec.eq_of_toNat_eq
  have hb := b.isLt
  have h : b.toNat / 2 ^ q < 2 ^ 8 := lt_of_le_of_lt (Nat.div_le_self _ _) hb
  simp only [BitVec.toNat_ushiftRight, Nat.shiftRight_eq_div_pow, BitVec.toNat_ofNat, Nat.mod_eq_of_lt h]

/-- OR of a code shifted above the codes already there is addition (R195). -/
theorem byte_or_shifted (b : Byte) (k f : Nat) (hb : b.toNat < 2 ^ f) (hk : k * 2 ^ f < 256) :
    b ||| (BitVec.ofNat 8 k <<< f) = BitVec.ofNat 8 (b.toNat + k * 2 ^ f) := by
  apply BitVec.eq_of_toNat_eq
  have hk' : k < 2 ^ 8 := by
    have := Nat.two_pow_pos f
    nlinarith
  have h1 : (k <<< f) % 2 ^ 8 = k * 2 ^ f := by
    rw [Nat.shiftLeft_eq]
    exact Nat.mod_eq_of_lt hk
  have h2 : b.toNat ||| (k * 2 ^ f) = b.toNat + k * 2 ^ f := by
    rw [Nat.or_comm, Nat.add_comm, Nat.mul_comm, Nat.two_pow_add_eq_or_of_lt hb]
  have h3 : b.toNat + k * 2 ^ f < 2 ^ 8 := by
    rw [← h2]
    exact Nat.or_lt_two_pow b.isLt hk
  simp only [BitVec.toNat_or, BitVec.toNat_shiftLeft, BitVec.toNat_ofNat, Nat.mod_eq_of_lt hk', h1, h2,
    Nat.mod_eq_of_lt h3]

end Sys2Proof.Machine
end

