-- ==== Sys2Proof/Laws/State.lean ====
section
/-! SUPPORT. One lemma per field of State for each named update of the state: what the update writes, and that every
other field keeps its value. Later proofs use these and unfold no record update. -/

namespace Sys2Proof.Machine.State
variable (s : State)

/-! ### `setRange` -/

@[simp] theorem setRange_params (r : Range) : (s.setRange r).params = s.params := rfl
@[simp] theorem setRange_cmd (r : Range) : (s.setRange r).cmd = s.cmd := rfl
@[simp] theorem setRange_busy (r : Range) : (s.setRange r).busy = s.busy := rfl
@[simp] theorem setRange_errCode (r : Range) : (s.setRange r).errCode = s.errCode := rfl
@[simp] theorem setRange_errOp (r : Range) : (s.setRange r).errOp = s.errOp := rfl
@[simp] theorem setRange_qsb (r : Range) : (s.setRange r).qsb = s.qsb := rfl
@[simp] theorem setRange_qcb (r : Range) : (s.setRange r).qcb = s.qcb := rfl
@[simp] theorem setRange_bw (r : Range) : (s.setRange r).bw = s.bw := rfl
@[simp] theorem setRange_bh (r : Range) : (s.setRange r).bh = s.bh := rfl
@[simp] theorem setRange_iw (r : Range) : (s.setRange r).iw = s.iw := rfl
@[simp] theorem setRange_ih (r : Range) : (s.setRange r).ih = s.ih := rfl
@[simp] theorem setRange_ax (r : Range) : (s.setRange r).ax = s.ax := rfl
@[simp] theorem setRange_ay (r : Range) : (s.setRange r).ay = s.ay := rfl
@[simp] theorem setRange_aw (r : Range) : (s.setRange r).aw = s.aw := rfl
@[simp] theorem setRange_ah (r : Range) : (s.setRange r).ah = s.ah := rfl
@[simp] theorem setRange_rmin (r : Range) : (s.setRange r).rmin = r.mn := rfl
@[simp] theorem setRange_rmax (r : Range) : (s.setRange r).rmax = r.mx := rfl
@[simp] theorem setRange_resIdx (r : Range) : (s.setRange r).resIdx = s.resIdx := rfl
@[simp] theorem setRange_resErr (r : Range) : (s.setRange r).resErr = s.resErr := rfl
@[simp] theorem setRange_resPix (r : Range) : (s.setRange r).resPix = s.resPix := rfl
@[simp] theorem setRange_errAcc0 (r : Range) : (s.setRange r).errAcc0 = s.errAcc0 := rfl
@[simp] theorem setRange_errAcc1 (r : Range) : (s.setRange r).errAcc1 = s.errAcc1 := rfl
@[simp] theorem setRange_errAcc2 (r : Range) : (s.setRange r).errAcc2 = s.errAcc2 := rfl
@[simp] theorem setRange_pacc (r : Range) : (s.setRange r).pacc = s.pacc := rfl
@[simp] theorem setRange_pfill (r : Range) : (s.setRange r).pfill = s.pfill := rfl
@[simp] theorem setRange_uacc (r : Range) : (s.setRange r).uacc = s.uacc := rfl
@[simp] theorem setRange_uavail (r : Range) : (s.setRange r).uavail = s.uavail := rfl
@[simp] theorem setRange_pixmem (r : Range) : (s.setRange r).pixmem = s.pixmem := rfl
@[simp] theorem setRange_tab (r : Range) : (s.setRange r).tab = s.tab := rfl
@[simp] theorem setRange_tabEpoch (r : Range) : (s.setRange r).tabEpoch = s.tabEpoch := rfl
@[simp] theorem setRange_out (r : Range) : (s.setRange r).out = s.out := rfl
@[simp] theorem setRange_inp (r : Range) : (s.setRange r).inp = s.inp := rfl
@[simp] theorem setRange_pending (r : Range) : (s.setRange r).pending = s.pending := rfl
@[simp] theorem setRange_reads (r : Range) : (s.setRange r).reads = s.reads := rfl

/-! ### `alignIn` -/

@[simp] theorem alignIn_params : s.alignIn.params = s.params := rfl
@[simp] theorem alignIn_cmd : s.alignIn.cmd = s.cmd := rfl
@[simp] theorem alignIn_busy : s.alignIn.busy = s.busy := rfl
@[simp] theorem alignIn_errCode : s.alignIn.errCode = s.errCode := rfl
@[simp] theorem alignIn_errOp : s.alignIn.errOp = s.errOp := rfl
@[simp] theorem alignIn_qsb : s.alignIn.qsb = s.qsb := rfl
@[simp] theorem alignIn_qcb : s.alignIn.qcb = s.qcb := rfl
@[simp] theorem alignIn_bw : s.alignIn.bw = s.bw := rfl
@[simp] theorem alignIn_bh : s.alignIn.bh = s.bh := rfl
@[simp] theorem alignIn_iw : s.alignIn.iw = s.iw := rfl
@[simp] theorem alignIn_ih : s.alignIn.ih = s.ih := rfl
@[simp] theorem alignIn_ax : s.alignIn.ax = s.ax := rfl
@[simp] theorem alignIn_ay : s.alignIn.ay = s.ay := rfl
@[simp] theorem alignIn_aw : s.alignIn.aw = s.aw := rfl
@[simp] theorem alignIn_ah : s.alignIn.ah = s.ah := rfl
@[simp] theorem alignIn_rmin : s.alignIn.rmin = s.rmin := rfl
@[simp] theorem alignIn_rmax : s.alignIn.rmax = s.rmax := rfl
@[simp] theorem alignIn_resIdx : s.alignIn.resIdx = s.resIdx := rfl
@[simp] theorem alignIn_resErr : s.alignIn.resErr = s.resErr := rfl
@[simp] theorem alignIn_resPix : s.alignIn.resPix = s.resPix := rfl
@[simp] theorem alignIn_errAcc0 : s.alignIn.errAcc0 = s.errAcc0 := rfl
@[simp] theorem alignIn_errAcc1 : s.alignIn.errAcc1 = s.errAcc1 := rfl
@[simp] theorem alignIn_errAcc2 : s.alignIn.errAcc2 = s.errAcc2 := rfl
@[simp] theorem alignIn_pacc : s.alignIn.pacc = s.pacc := rfl
@[simp] theorem alignIn_pfill : s.alignIn.pfill = s.pfill := rfl
@[simp] theorem alignIn_uacc : s.alignIn.uacc = 0 := rfl
@[simp] theorem alignIn_uavail : s.alignIn.uavail = 0 := rfl
@[simp] theorem alignIn_pixmem : s.alignIn.pixmem = s.pixmem := rfl
@[simp] theorem alignIn_tab : s.alignIn.tab = s.tab := rfl
@[simp] theorem alignIn_tabEpoch : s.alignIn.tabEpoch = s.tabEpoch := rfl
@[simp] theorem alignIn_out : s.alignIn.out = s.out := rfl
@[simp] theorem alignIn_inp : s.alignIn.inp = s.inp := rfl
@[simp] theorem alignIn_pending : s.alignIn.pending = s.pending := rfl
@[simp] theorem alignIn_reads : s.alignIn.reads = s.reads := rfl

/-! ### `clearErr` -/

@[simp] theorem clearErr_params : s.clearErr.params = s.params := rfl
@[simp] theorem clearErr_cmd : s.clearErr.cmd = s.cmd := rfl
@[simp] theorem clearErr_busy : s.clearErr.busy = s.busy := rfl
@[simp] theorem clearErr_errCode : s.clearErr.errCode = none := rfl
@[simp] theorem clearErr_errOp : s.clearErr.errOp = 0 := rfl
@[simp] theorem clearErr_qsb : s.clearErr.qsb = s.qsb := rfl
@[simp] theorem clearErr_qcb : s.clearErr.qcb = s.qcb := rfl
@[simp] theorem clearErr_bw : s.clearErr.bw = s.bw := rfl
@[simp] theorem clearErr_bh : s.clearErr.bh = s.bh := rfl
@[simp] theorem clearErr_iw : s.clearErr.iw = s.iw := rfl
@[simp] theorem clearErr_ih : s.clearErr.ih = s.ih := rfl
@[simp] theorem clearErr_ax : s.clearErr.ax = s.ax := rfl
@[simp] theorem clearErr_ay : s.clearErr.ay = s.ay := rfl
@[simp] theorem clearErr_aw : s.clearErr.aw = s.aw := rfl
@[simp] theorem clearErr_ah : s.clearErr.ah = s.ah := rfl
@[simp] theorem clearErr_rmin : s.clearErr.rmin = s.rmin := rfl
@[simp] theorem clearErr_rmax : s.clearErr.rmax = s.rmax := rfl
@[simp] theorem clearErr_resIdx : s.clearErr.resIdx = s.resIdx := rfl
@[simp] theorem clearErr_resErr : s.clearErr.resErr = s.resErr := rfl
@[simp] theorem clearErr_resPix : s.clearErr.resPix = s.resPix := rfl
@[simp] theorem clearErr_errAcc0 : s.clearErr.errAcc0 = s.errAcc0 := rfl
@[simp] theorem clearErr_errAcc1 : s.clearErr.errAcc1 = s.errAcc1 := rfl
@[simp] theorem clearErr_errAcc2 : s.clearErr.errAcc2 = s.errAcc2 := rfl
@[simp] theorem clearErr_pacc : s.clearErr.pacc = s.pacc := rfl
@[simp] theorem clearErr_pfill : s.clearErr.pfill = s.pfill := rfl
@[simp] theorem clearErr_uacc : s.clearErr.uacc = s.uacc := rfl
@[simp] theorem clearErr_uavail : s.clearErr.uavail = s.uavail := rfl
@[simp] theorem clearErr_pixmem : s.clearErr.pixmem = s.pixmem := rfl
@[simp] theorem clearErr_tab : s.clearErr.tab = s.tab := rfl
@[simp] theorem clearErr_tabEpoch : s.clearErr.tabEpoch = s.tabEpoch := rfl
@[simp] theorem clearErr_out : s.clearErr.out = s.out := rfl
@[simp] theorem clearErr_inp : s.clearErr.inp = s.inp := rfl
@[simp] theorem clearErr_pending : s.clearErr.pending = s.pending := rfl
@[simp] theorem clearErr_reads : s.clearErr.reads = s.reads := rfl

/-! ### `pixWrite` -/

@[simp] theorem pixWrite_params (x y : Nat) (p : Pixel) : (s.pixWrite x y p).params = s.params := rfl
@[simp] theorem pixWrite_cmd (x y : Nat) (p : Pixel) : (s.pixWrite x y p).cmd = s.cmd := rfl
@[simp] theorem pixWrite_busy (x y : Nat) (p : Pixel) : (s.pixWrite x y p).busy = s.busy := rfl
@[simp] theorem pixWrite_errCode (x y : Nat) (p : Pixel) : (s.pixWrite x y p).errCode = s.errCode := rfl
@[simp] theorem pixWrite_errOp (x y : Nat) (p : Pixel) : (s.pixWrite x y p).errOp = s.errOp := rfl
@[simp] theorem pixWrite_qsb (x y : Nat) (p : Pixel) : (s.pixWrite x y p).qsb = s.qsb := rfl
@[simp] theorem pixWrite_qcb (x y : Nat) (p : Pixel) : (s.pixWrite x y p).qcb = s.qcb := rfl
@[simp] theorem pixWrite_bw (x y : Nat) (p : Pixel) : (s.pixWrite x y p).bw = s.bw := rfl
@[simp] theorem pixWrite_bh (x y : Nat) (p : Pixel) : (s.pixWrite x y p).bh = s.bh := rfl
@[simp] theorem pixWrite_iw (x y : Nat) (p : Pixel) : (s.pixWrite x y p).iw = s.iw := rfl
@[simp] theorem pixWrite_ih (x y : Nat) (p : Pixel) : (s.pixWrite x y p).ih = s.ih := rfl
@[simp] theorem pixWrite_ax (x y : Nat) (p : Pixel) : (s.pixWrite x y p).ax = s.ax := rfl
@[simp] theorem pixWrite_ay (x y : Nat) (p : Pixel) : (s.pixWrite x y p).ay = s.ay := rfl
@[simp] theorem pixWrite_aw (x y : Nat) (p : Pixel) : (s.pixWrite x y p).aw = s.aw := rfl
@[simp] theorem pixWrite_ah (x y : Nat) (p : Pixel) : (s.pixWrite x y p).ah = s.ah := rfl
@[simp] theorem pixWrite_rmin (x y : Nat) (p : Pixel) : (s.pixWrite x y p).rmin = s.rmin := rfl
@[simp] theorem pixWrite_rmax (x y : Nat) (p : Pixel) : (s.pixWrite x y p).rmax = s.rmax := rfl
@[simp] theorem pixWrite_resIdx (x y : Nat) (p : Pixel) : (s.pixWrite x y p).resIdx = s.resIdx := rfl
@[simp] theorem pixWrite_resErr (x y : Nat) (p : Pixel) : (s.pixWrite x y p).resErr = s.resErr := rfl
@[simp] theorem pixWrite_resPix (x y : Nat) (p : Pixel) : (s.pixWrite x y p).resPix = s.resPix := rfl
@[simp] theorem pixWrite_errAcc0 (x y : Nat) (p : Pixel) : (s.pixWrite x y p).errAcc0 = s.errAcc0 := rfl
@[simp] theorem pixWrite_errAcc1 (x y : Nat) (p : Pixel) : (s.pixWrite x y p).errAcc1 = s.errAcc1 := rfl
@[simp] theorem pixWrite_errAcc2 (x y : Nat) (p : Pixel) : (s.pixWrite x y p).errAcc2 = s.errAcc2 := rfl
@[simp] theorem pixWrite_pacc (x y : Nat) (p : Pixel) : (s.pixWrite x y p).pacc = s.pacc := rfl
@[simp] theorem pixWrite_pfill (x y : Nat) (p : Pixel) : (s.pixWrite x y p).pfill = s.pfill := rfl
@[simp] theorem pixWrite_uacc (x y : Nat) (p : Pixel) : (s.pixWrite x y p).uacc = s.uacc := rfl
@[simp] theorem pixWrite_uavail (x y : Nat) (p : Pixel) : (s.pixWrite x y p).uavail = s.uavail := rfl
@[simp] theorem pixWrite_pixmem (x y : Nat) (p : Pixel) : (s.pixWrite x y p).pixmem = s.pixmem.setAll (s.pixAddr x y) [p.c0, p.c1, p.c2] := rfl
@[simp] theorem pixWrite_tab (x y : Nat) (p : Pixel) : (s.pixWrite x y p).tab = s.tab := rfl
@[simp] theorem pixWrite_tabEpoch (x y : Nat) (p : Pixel) : (s.pixWrite x y p).tabEpoch = s.tabEpoch := rfl
@[simp] theorem pixWrite_out (x y : Nat) (p : Pixel) : (s.pixWrite x y p).out = s.out := rfl
@[simp] theorem pixWrite_inp (x y : Nat) (p : Pixel) : (s.pixWrite x y p).inp = s.inp := rfl
@[simp] theorem pixWrite_pending (x y : Nat) (p : Pixel) : (s.pixWrite x y p).pending = s.pending := rfl
@[simp] theorem pixWrite_reads (x y : Nat) (p : Pixel) : (s.pixWrite x y p).reads = s.reads := rfl

/-! ### `tabWrite` -/

@[simp] theorem tabWrite_params (n code : Nat) : (s.tabWrite n code).params = s.params := rfl
@[simp] theorem tabWrite_cmd (n code : Nat) : (s.tabWrite n code).cmd = s.cmd := rfl
@[simp] theorem tabWrite_busy (n code : Nat) : (s.tabWrite n code).busy = s.busy := rfl
@[simp] theorem tabWrite_errCode (n code : Nat) : (s.tabWrite n code).errCode = s.errCode := rfl
@[simp] theorem tabWrite_errOp (n code : Nat) : (s.tabWrite n code).errOp = s.errOp := rfl
@[simp] theorem tabWrite_qsb (n code : Nat) : (s.tabWrite n code).qsb = s.qsb := rfl
@[simp] theorem tabWrite_qcb (n code : Nat) : (s.tabWrite n code).qcb = s.qcb := rfl
@[simp] theorem tabWrite_bw (n code : Nat) : (s.tabWrite n code).bw = s.bw := rfl
@[simp] theorem tabWrite_bh (n code : Nat) : (s.tabWrite n code).bh = s.bh := rfl
@[simp] theorem tabWrite_iw (n code : Nat) : (s.tabWrite n code).iw = s.iw := rfl
@[simp] theorem tabWrite_ih (n code : Nat) : (s.tabWrite n code).ih = s.ih := rfl
@[simp] theorem tabWrite_ax (n code : Nat) : (s.tabWrite n code).ax = s.ax := rfl
@[simp] theorem tabWrite_ay (n code : Nat) : (s.tabWrite n code).ay = s.ay := rfl
@[simp] theorem tabWrite_aw (n code : Nat) : (s.tabWrite n code).aw = s.aw := rfl
@[simp] theorem tabWrite_ah (n code : Nat) : (s.tabWrite n code).ah = s.ah := rfl
@[simp] theorem tabWrite_rmin (n code : Nat) : (s.tabWrite n code).rmin = s.rmin := rfl
@[simp] theorem tabWrite_rmax (n code : Nat) : (s.tabWrite n code).rmax = s.rmax := rfl
@[simp] theorem tabWrite_resIdx (n code : Nat) : (s.tabWrite n code).resIdx = s.resIdx := rfl
@[simp] theorem tabWrite_resErr (n code : Nat) : (s.tabWrite n code).resErr = s.resErr := rfl
@[simp] theorem tabWrite_resPix (n code : Nat) : (s.tabWrite n code).resPix = s.resPix := rfl
@[simp] theorem tabWrite_errAcc0 (n code : Nat) : (s.tabWrite n code).errAcc0 = s.errAcc0 := rfl
@[simp] theorem tabWrite_errAcc1 (n code : Nat) : (s.tabWrite n code).errAcc1 = s.errAcc1 := rfl
@[simp] theorem tabWrite_errAcc2 (n code : Nat) : (s.tabWrite n code).errAcc2 = s.errAcc2 := rfl
@[simp] theorem tabWrite_pacc (n code : Nat) : (s.tabWrite n code).pacc = s.pacc := rfl
@[simp] theorem tabWrite_pfill (n code : Nat) : (s.tabWrite n code).pfill = s.pfill := rfl
@[simp] theorem tabWrite_uacc (n code : Nat) : (s.tabWrite n code).uacc = s.uacc := rfl
@[simp] theorem tabWrite_uavail (n code : Nat) : (s.tabWrite n code).uavail = s.uavail := rfl
@[simp] theorem tabWrite_pixmem (n code : Nat) : (s.tabWrite n code).pixmem = s.pixmem := rfl
@[simp] theorem tabWrite_tab (n code : Nat) : (s.tabWrite n code).tab = s.tab.set (n / 4) (tabField (s.tabByte (n / 4)) n code) := rfl
@[simp] theorem tabWrite_tabEpoch (n code : Nat) : (s.tabWrite n code).tabEpoch = s.tabEpoch := rfl
@[simp] theorem tabWrite_out (n code : Nat) : (s.tabWrite n code).out = s.out := rfl
@[simp] theorem tabWrite_inp (n code : Nat) : (s.tabWrite n code).inp = s.inp := rfl
@[simp] theorem tabWrite_pending (n code : Nat) : (s.tabWrite n code).pending = s.pending := rfl
@[simp] theorem tabWrite_reads (n code : Nat) : (s.tabWrite n code).reads = s.reads := rfl

/-! ### `tabLoad` -/

@[simp] theorem tabLoad_params (bs : List Byte) : (s.tabLoad bs).params = s.params := rfl
@[simp] theorem tabLoad_cmd (bs : List Byte) : (s.tabLoad bs).cmd = s.cmd := rfl
@[simp] theorem tabLoad_busy (bs : List Byte) : (s.tabLoad bs).busy = s.busy := rfl
@[simp] theorem tabLoad_errCode (bs : List Byte) : (s.tabLoad bs).errCode = s.errCode := rfl
@[simp] theorem tabLoad_errOp (bs : List Byte) : (s.tabLoad bs).errOp = s.errOp := rfl
@[simp] theorem tabLoad_qsb (bs : List Byte) : (s.tabLoad bs).qsb = s.qsb := rfl
@[simp] theorem tabLoad_qcb (bs : List Byte) : (s.tabLoad bs).qcb = s.qcb := rfl
@[simp] theorem tabLoad_bw (bs : List Byte) : (s.tabLoad bs).bw = s.bw := rfl
@[simp] theorem tabLoad_bh (bs : List Byte) : (s.tabLoad bs).bh = s.bh := rfl
@[simp] theorem tabLoad_iw (bs : List Byte) : (s.tabLoad bs).iw = s.iw := rfl
@[simp] theorem tabLoad_ih (bs : List Byte) : (s.tabLoad bs).ih = s.ih := rfl
@[simp] theorem tabLoad_ax (bs : List Byte) : (s.tabLoad bs).ax = s.ax := rfl
@[simp] theorem tabLoad_ay (bs : List Byte) : (s.tabLoad bs).ay = s.ay := rfl
@[simp] theorem tabLoad_aw (bs : List Byte) : (s.tabLoad bs).aw = s.aw := rfl
@[simp] theorem tabLoad_ah (bs : List Byte) : (s.tabLoad bs).ah = s.ah := rfl
@[simp] theorem tabLoad_rmin (bs : List Byte) : (s.tabLoad bs).rmin = s.rmin := rfl
@[simp] theorem tabLoad_rmax (bs : List Byte) : (s.tabLoad bs).rmax = s.rmax := rfl
@[simp] theorem tabLoad_resIdx (bs : List Byte) : (s.tabLoad bs).resIdx = s.resIdx := rfl
@[simp] theorem tabLoad_resErr (bs : List Byte) : (s.tabLoad bs).resErr = s.resErr := rfl
@[simp] theorem tabLoad_resPix (bs : List Byte) : (s.tabLoad bs).resPix = s.resPix := rfl
@[simp] theorem tabLoad_errAcc0 (bs : List Byte) : (s.tabLoad bs).errAcc0 = s.errAcc0 := rfl
@[simp] theorem tabLoad_errAcc1 (bs : List Byte) : (s.tabLoad bs).errAcc1 = s.errAcc1 := rfl
@[simp] theorem tabLoad_errAcc2 (bs : List Byte) : (s.tabLoad bs).errAcc2 = s.errAcc2 := rfl
@[simp] theorem tabLoad_pacc (bs : List Byte) : (s.tabLoad bs).pacc = s.pacc := rfl
@[simp] theorem tabLoad_pfill (bs : List Byte) : (s.tabLoad bs).pfill = s.pfill := rfl
@[simp] theorem tabLoad_uacc (bs : List Byte) : (s.tabLoad bs).uacc = s.uacc := rfl
@[simp] theorem tabLoad_uavail (bs : List Byte) : (s.tabLoad bs).uavail = s.uavail := rfl
@[simp] theorem tabLoad_pixmem (bs : List Byte) : (s.tabLoad bs).pixmem = s.pixmem := rfl
@[simp] theorem tabLoad_tab (bs : List Byte) : (s.tabLoad bs).tab = s.tab.setAll 0 bs := rfl
@[simp] theorem tabLoad_tabEpoch (bs : List Byte) : (s.tabLoad bs).tabEpoch = s.tabEpoch := rfl
@[simp] theorem tabLoad_out (bs : List Byte) : (s.tabLoad bs).out = s.out := rfl
@[simp] theorem tabLoad_inp (bs : List Byte) : (s.tabLoad bs).inp = s.inp := rfl
@[simp] theorem tabLoad_pending (bs : List Byte) : (s.tabLoad bs).pending = s.pending := rfl
@[simp] theorem tabLoad_reads (bs : List Byte) : (s.tabLoad bs).reads = s.reads := rfl

/-! ### `deliver` -/

@[simp] theorem deliver_params (v : HostValue) : (s.deliver v).params = s.params := rfl
@[simp] theorem deliver_cmd (v : HostValue) : (s.deliver v).cmd = s.cmd := rfl
@[simp] theorem deliver_busy (v : HostValue) : (s.deliver v).busy = s.busy := rfl
@[simp] theorem deliver_errCode (v : HostValue) : (s.deliver v).errCode = s.errCode := rfl
@[simp] theorem deliver_errOp (v : HostValue) : (s.deliver v).errOp = s.errOp := rfl
@[simp] theorem deliver_qsb (v : HostValue) : (s.deliver v).qsb = s.qsb := rfl
@[simp] theorem deliver_qcb (v : HostValue) : (s.deliver v).qcb = s.qcb := rfl
@[simp] theorem deliver_bw (v : HostValue) : (s.deliver v).bw = s.bw := rfl
@[simp] theorem deliver_bh (v : HostValue) : (s.deliver v).bh = s.bh := rfl
@[simp] theorem deliver_iw (v : HostValue) : (s.deliver v).iw = s.iw := rfl
@[simp] theorem deliver_ih (v : HostValue) : (s.deliver v).ih = s.ih := rfl
@[simp] theorem deliver_ax (v : HostValue) : (s.deliver v).ax = s.ax := rfl
@[simp] theorem deliver_ay (v : HostValue) : (s.deliver v).ay = s.ay := rfl
@[simp] theorem deliver_aw (v : HostValue) : (s.deliver v).aw = s.aw := rfl
@[simp] theorem deliver_ah (v : HostValue) : (s.deliver v).ah = s.ah := rfl
@[simp] theorem deliver_rmin (v : HostValue) : (s.deliver v).rmin = s.rmin := rfl
@[simp] theorem deliver_rmax (v : HostValue) : (s.deliver v).rmax = s.rmax := rfl
@[simp] theorem deliver_resIdx (v : HostValue) : (s.deliver v).resIdx = s.resIdx := rfl
@[simp] theorem deliver_resErr (v : HostValue) : (s.deliver v).resErr = s.resErr := rfl
@[simp] theorem deliver_resPix (v : HostValue) : (s.deliver v).resPix = s.resPix := rfl
@[simp] theorem deliver_errAcc0 (v : HostValue) : (s.deliver v).errAcc0 = s.errAcc0 := rfl
@[simp] theorem deliver_errAcc1 (v : HostValue) : (s.deliver v).errAcc1 = s.errAcc1 := rfl
@[simp] theorem deliver_errAcc2 (v : HostValue) : (s.deliver v).errAcc2 = s.errAcc2 := rfl
@[simp] theorem deliver_pacc (v : HostValue) : (s.deliver v).pacc = s.pacc := rfl
@[simp] theorem deliver_pfill (v : HostValue) : (s.deliver v).pfill = s.pfill := rfl
@[simp] theorem deliver_uacc (v : HostValue) : (s.deliver v).uacc = s.uacc := rfl
@[simp] theorem deliver_uavail (v : HostValue) : (s.deliver v).uavail = s.uavail := rfl
@[simp] theorem deliver_pixmem (v : HostValue) : (s.deliver v).pixmem = s.pixmem := rfl
@[simp] theorem deliver_tab (v : HostValue) : (s.deliver v).tab = s.tab := rfl
@[simp] theorem deliver_tabEpoch (v : HostValue) : (s.deliver v).tabEpoch = s.tabEpoch := rfl
@[simp] theorem deliver_out (v : HostValue) : (s.deliver v).out = s.out := rfl
@[simp] theorem deliver_inp (v : HostValue) : (s.deliver v).inp = s.inp := rfl
@[simp] theorem deliver_pending (v : HostValue) : (s.deliver v).pending = s.pending := rfl
@[simp] theorem deliver_reads (v : HostValue) : (s.deliver v).reads = s.reads ++ [v] := rfl

/-! ### `recordSelection` -/

@[simp] theorem recordSelection_params (mb : Macroblock) : (s.recordSelection mb).params = s.params := rfl
@[simp] theorem recordSelection_cmd (mb : Macroblock) : (s.recordSelection mb).cmd = s.cmd := rfl
@[simp] theorem recordSelection_busy (mb : Macroblock) : (s.recordSelection mb).busy = s.busy := rfl
@[simp] theorem recordSelection_errCode (mb : Macroblock) : (s.recordSelection mb).errCode = s.errCode := rfl
@[simp] theorem recordSelection_errOp (mb : Macroblock) : (s.recordSelection mb).errOp = s.errOp := rfl
@[simp] theorem recordSelection_qsb (mb : Macroblock) : (s.recordSelection mb).qsb = s.qsb := rfl
@[simp] theorem recordSelection_qcb (mb : Macroblock) : (s.recordSelection mb).qcb = s.qcb := rfl
@[simp] theorem recordSelection_bw (mb : Macroblock) : (s.recordSelection mb).bw = s.bw := rfl
@[simp] theorem recordSelection_bh (mb : Macroblock) : (s.recordSelection mb).bh = s.bh := rfl
@[simp] theorem recordSelection_iw (mb : Macroblock) : (s.recordSelection mb).iw = s.iw := rfl
@[simp] theorem recordSelection_ih (mb : Macroblock) : (s.recordSelection mb).ih = s.ih := rfl
@[simp] theorem recordSelection_ax (mb : Macroblock) : (s.recordSelection mb).ax = s.ax := rfl
@[simp] theorem recordSelection_ay (mb : Macroblock) : (s.recordSelection mb).ay = s.ay := rfl
@[simp] theorem recordSelection_aw (mb : Macroblock) : (s.recordSelection mb).aw = s.aw := rfl
@[simp] theorem recordSelection_ah (mb : Macroblock) : (s.recordSelection mb).ah = s.ah := rfl
@[simp] theorem recordSelection_rmin (mb : Macroblock) : (s.recordSelection mb).rmin = s.rmin := rfl
@[simp] theorem recordSelection_rmax (mb : Macroblock) : (s.recordSelection mb).rmax = s.rmax := rfl
@[simp] theorem recordSelection_resIdx (mb : Macroblock) : (s.recordSelection mb).resIdx = BitVec.ofNat 8 (s.selectedShift mb) := rfl
@[simp] theorem recordSelection_resErr (mb : Macroblock) : (s.recordSelection mb).resErr = sat32 (s.trial mb (s.selectedShift mb)).2 := rfl
@[simp] theorem recordSelection_resPix (mb : Macroblock) : (s.recordSelection mb).resPix = s.resPix := rfl
@[simp] theorem recordSelection_errAcc0 (mb : Macroblock) : (s.recordSelection mb).errAcc0 = sat32 (s.trial mb 0).2 := rfl
@[simp] theorem recordSelection_errAcc1 (mb : Macroblock) : (s.recordSelection mb).errAcc1 = sat32 (s.trial mb 1).2 := rfl
@[simp] theorem recordSelection_errAcc2 (mb : Macroblock) : (s.recordSelection mb).errAcc2 = sat32 (s.trial mb 2).2 := rfl
@[simp] theorem recordSelection_pacc (mb : Macroblock) : (s.recordSelection mb).pacc = s.pacc := rfl
@[simp] theorem recordSelection_pfill (mb : Macroblock) : (s.recordSelection mb).pfill = s.pfill := rfl
@[simp] theorem recordSelection_uacc (mb : Macroblock) : (s.recordSelection mb).uacc = s.uacc := rfl
@[simp] theorem recordSelection_uavail (mb : Macroblock) : (s.recordSelection mb).uavail = s.uavail := rfl
@[simp] theorem recordSelection_pixmem (mb : Macroblock) : (s.recordSelection mb).pixmem = s.pixmem := rfl
@[simp] theorem recordSelection_tab (mb : Macroblock) : (s.recordSelection mb).tab = (s.tabWrite mb.n (s.selectedShift mb)).tab := rfl
@[simp] theorem recordSelection_tabEpoch (mb : Macroblock) : (s.recordSelection mb).tabEpoch = s.tabEpoch := rfl
@[simp] theorem recordSelection_out (mb : Macroblock) : (s.recordSelection mb).out = s.out := rfl
@[simp] theorem recordSelection_inp (mb : Macroblock) : (s.recordSelection mb).inp = s.inp := rfl
@[simp] theorem recordSelection_pending (mb : Macroblock) : (s.recordSelection mb).pending = s.pending := rfl
@[simp] theorem recordSelection_reads (mb : Macroblock) : (s.recordSelection mb).reads = s.reads := rfl

/-! ### `raise` -/

@[simp] theorem raise_params (k : ErrKind) : (s.raise k).params = s.params := by unfold State.raise; split <;> rfl
@[simp] theorem raise_cmd (k : ErrKind) : (s.raise k).cmd = s.cmd := by unfold State.raise; split <;> rfl
@[simp] theorem raise_busy (k : ErrKind) : (s.raise k).busy = s.busy := by unfold State.raise; split <;> rfl
@[simp] theorem raise_qsb (k : ErrKind) : (s.raise k).qsb = s.qsb := by unfold State.raise; split <;> rfl
@[simp] theorem raise_qcb (k : ErrKind) : (s.raise k).qcb = s.qcb := by unfold State.raise; split <;> rfl
@[simp] theorem raise_bw (k : ErrKind) : (s.raise k).bw = s.bw := by unfold State.raise; split <;> rfl
@[simp] theorem raise_bh (k : ErrKind) : (s.raise k).bh = s.bh := by unfold State.raise; split <;> rfl
@[simp] theorem raise_iw (k : ErrKind) : (s.raise k).iw = s.iw := by unfold State.raise; split <;> rfl
@[simp] theorem raise_ih (k : ErrKind) : (s.raise k).ih = s.ih := by unfold State.raise; split <;> rfl
@[simp] theorem raise_ax (k : ErrKind) : (s.raise k).ax = s.ax := by unfold State.raise; split <;> rfl
@[simp] theorem raise_ay (k : ErrKind) : (s.raise k).ay = s.ay := by unfold State.raise; split <;> rfl
@[simp] theorem raise_aw (k : ErrKind) : (s.raise k).aw = s.aw := by unfold State.raise; split <;> rfl
@[simp] theorem raise_ah (k : ErrKind) : (s.raise k).ah = s.ah := by unfold State.raise; split <;> rfl
@[simp] theorem raise_rmin (k : ErrKind) : (s.raise k).rmin = s.rmin := by unfold State.raise; split <;> rfl
@[simp] theorem raise_rmax (k : ErrKind) : (s.raise k).rmax = s.rmax := by unfold State.raise; split <;> rfl
@[simp] theorem raise_resIdx (k : ErrKind) : (s.raise k).resIdx = s.resIdx := by unfold State.raise; split <;> rfl
@[simp] theorem raise_resErr (k : ErrKind) : (s.raise k).resErr = s.resErr := by unfold State.raise; split <;> rfl
@[simp] theorem raise_resPix (k : ErrKind) : (s.raise k).resPix = s.resPix := by unfold State.raise; split <;> rfl
@[simp] theorem raise_errAcc0 (k : ErrKind) : (s.raise k).errAcc0 = s.errAcc0 := by unfold State.raise; split <;> rfl
@[simp] theorem raise_errAcc1 (k : ErrKind) : (s.raise k).errAcc1 = s.errAcc1 := by unfold State.raise; split <;> rfl
@[simp] theorem raise_errAcc2 (k : ErrKind) : (s.raise k).errAcc2 = s.errAcc2 := by unfold State.raise; split <;> rfl
@[simp] theorem raise_pacc (k : ErrKind) : (s.raise k).pacc = s.pacc := by unfold State.raise; split <;> rfl
@[simp] theorem raise_pfill (k : ErrKind) : (s.raise k).pfill = s.pfill := by unfold State.raise; split <;> rfl
@[simp] theorem raise_uacc (k : ErrKind) : (s.raise k).uacc = s.uacc := by unfold State.raise; split <;> rfl
@[simp] theorem raise_uavail (k : ErrKind) : (s.raise k).uavail = s.uavail := by unfold State.raise; split <;> rfl
@[simp] theorem raise_pixmem (k : ErrKind) : (s.raise k).pixmem = s.pixmem := by unfold State.raise; split <;> rfl
@[simp] theorem raise_tab (k : ErrKind) : (s.raise k).tab = s.tab := by unfold State.raise; split <;> rfl
@[simp] theorem raise_tabEpoch (k : ErrKind) : (s.raise k).tabEpoch = s.tabEpoch := by unfold State.raise; split <;> rfl
@[simp] theorem raise_out (k : ErrKind) : (s.raise k).out = s.out := by unfold State.raise; split <;> rfl
@[simp] theorem raise_inp (k : ErrKind) : (s.raise k).inp = s.inp := by unfold State.raise; split <;> rfl
@[simp] theorem raise_pending (k : ErrKind) : (s.raise k).pending = s.pending := by unfold State.raise; split <;> rfl
@[simp] theorem raise_reads (k : ErrKind) : (s.raise k).reads = s.reads := by unfold State.raise; split <;> rfl

theorem raise_of_none {s : State} (k : ErrKind) (h : s.errCode = none) :
    s.raise k = { s with errCode := some k, errOp := s.cmd.byte0 } := by
  simp [State.raise, h]

theorem raise_of_some {s : State} (k : ErrKind) (h : s.errCode ≠ none) : s.raise k = s := by
  cases he : s.errCode with
  | none => exact absurd he h
  | some e => simp [State.raise, he]

theorem raise_errCode_ne_none (k : ErrKind) : (s.raise k).errCode ≠ none := by
  cases he : s.errCode with
  | none => simp [raise_of_none k he]
  | some e => simp [raise_of_some k (by simp [he] : s.errCode ≠ none), he]

/-! ### `resetEvent` -/

@[simp] theorem resetEvent_params : s.resetEvent.params = s.params := rfl
@[simp] theorem resetEvent_cmd : s.resetEvent.cmd = 0 := rfl
@[simp] theorem resetEvent_busy : s.resetEvent.busy = false := rfl
@[simp] theorem resetEvent_errCode : s.resetEvent.errCode = none := rfl
@[simp] theorem resetEvent_errOp : s.resetEvent.errOp = 0 := rfl
@[simp] theorem resetEvent_qsb : s.resetEvent.qsb = 0 := rfl
@[simp] theorem resetEvent_qcb : s.resetEvent.qcb = 0 := rfl
@[simp] theorem resetEvent_bw : s.resetEvent.bw = 0 := rfl
@[simp] theorem resetEvent_bh : s.resetEvent.bh = 0 := rfl
@[simp] theorem resetEvent_iw : s.resetEvent.iw = 0 := rfl
@[simp] theorem resetEvent_ih : s.resetEvent.ih = 0 := rfl
@[simp] theorem resetEvent_ax : s.resetEvent.ax = 0 := rfl
@[simp] theorem resetEvent_ay : s.resetEvent.ay = 0 := rfl
@[simp] theorem resetEvent_aw : s.resetEvent.aw = 0 := rfl
@[simp] theorem resetEvent_ah : s.resetEvent.ah = 0 := rfl
@[simp] theorem resetEvent_rmin : s.resetEvent.rmin = Pixel.zero := rfl
@[simp] theorem resetEvent_rmax : s.resetEvent.rmax = Pixel.zero := rfl
@[simp] theorem resetEvent_resIdx : s.resetEvent.resIdx = 0 := rfl
@[simp] theorem resetEvent_resErr : s.resetEvent.resErr = 0 := rfl
@[simp] theorem resetEvent_resPix : s.resetEvent.resPix = Pixel.zero := rfl
@[simp] theorem resetEvent_errAcc0 : s.resetEvent.errAcc0 = 0 := rfl
@[simp] theorem resetEvent_errAcc1 : s.resetEvent.errAcc1 = 0 := rfl
@[simp] theorem resetEvent_errAcc2 : s.resetEvent.errAcc2 = 0 := rfl
@[simp] theorem resetEvent_pacc : s.resetEvent.pacc = 0 := rfl
@[simp] theorem resetEvent_pfill : s.resetEvent.pfill = 0 := rfl
@[simp] theorem resetEvent_uacc : s.resetEvent.uacc = 0 := rfl
@[simp] theorem resetEvent_uavail : s.resetEvent.uavail = 0 := rfl
@[simp] theorem resetEvent_pixmem : s.resetEvent.pixmem = s.pixmem := rfl
@[simp] theorem resetEvent_tab : s.resetEvent.tab = [] := rfl
@[simp] theorem resetEvent_tabEpoch : s.resetEvent.tabEpoch = s.tabEpoch + 1 := rfl
@[simp] theorem resetEvent_out : s.resetEvent.out = s.out := rfl
@[simp] theorem resetEvent_inp : s.resetEvent.inp = s.inp := rfl
@[simp] theorem resetEvent_pending : s.resetEvent.pending = s.pending := rfl
@[simp] theorem resetEvent_reads : s.resetEvent.reads = s.reads := rfl

end Sys2Proof.Machine.State
end

