-- ==== Sys2Proof/Laws/Memory.lean ====
section
/-! SUPPORT. Memory: read after write, the canonical form and the address bound kept by every write, and what the
reads of PIXMEM, TAB and pixels give after one. -/

namespace Sys2Proof.Machine

namespace Memory

@[simp] theorem get?_nil (x : Nat) : Memory.get? [] x = none := rfl

/-- Read after write: the written byte at its address, every other address as before. -/
theorem get?_set (m : Memory) (x y : Nat) (v : Byte) :
    (m.set x v).get? y = if y = x then some v else m.get? y := by
  induction m with
  | nil => simp [Memory.set, Memory.get?]
  | cons c m ih =>
    obtain ⟨a, b⟩ := c
    simp only [Memory.set]
    split
    · next h => simp [Memory.get?]
    · next h =>
      split
      · next h2 => subst h2; by_cases hy : y = x <;> simp [Memory.get?, hy]
      · next h2 =>
        simp only [Memory.get?, ih]
        by_cases hya : y = a
        · subst hya; simp [Ne.symm h2]
        · simp [hya]

/-- Read after a write of consecutive bytes. -/
theorem get?_setAll (bs : List Byte) : ∀ (m : Memory) (x y : Nat),
    (m.setAll x bs).get? y = if x ≤ y ∧ y < x + bs.length then some (bs.getD (y - x) 0) else m.get? y := by
  induction bs with
  | nil => intro m x y; simp [Memory.setAll]
  | cons b bs ih =>
    intro m x y
    rw [Memory.setAll, ih, get?_set]
    by_cases h1 : x + 1 ≤ y ∧ y < x + 1 + bs.length
    · have h2 : x ≤ y ∧ y < x + (b :: bs).length := by simp; omega
      have h3 : y - x = (y - (x + 1)) + 1 := by omega
      rw [if_pos h1, if_pos h2, h3, List.getD_cons_succ]
    · rw [if_neg h1]
      by_cases h2 : y = x
      · subst h2; simp
      · have h3 : ¬ (x ≤ y ∧ y < x + (b :: bs).length) := by simp; omega
        rw [if_neg h2, if_neg h3]

theorem mem_set {m : Memory} {x : Nat} {v : Byte} {c : Host.Cell} (h : c ∈ m.set x v) : c = (x, v) ∨ c ∈ m := by
  induction m with
  | nil => simpa [Memory.set] using h
  | cons d m ih =>
    obtain ⟨a, b⟩ := d
    simp only [Memory.set] at h
    split at h
    · simpa using h
    · split at h
      · rcases List.mem_cons.mp h with h | h
        · exact .inl h
        · exact .inr (List.mem_cons_of_mem _ h)
      · rcases List.mem_cons.mp h with h | h
        · exact .inr (by simp [h])
        · rcases ih h with h | h
          · exact .inl h
          · exact .inr (List.mem_cons_of_mem _ h)

/-- A write keeps the canonical form. -/
theorem wf_set {m : Memory} (h : m.wf) (x : Nat) (v : Byte) : (m.set x v).wf := by
  induction m with
  | nil => simp [Memory.set, Memory.wf]
  | cons d m ih =>
    obtain ⟨a, b⟩ := d
    have ⟨hd, hm⟩ := List.pairwise_cons.mp h
    simp only [Memory.set]
    split
    · next hx =>
      refine List.pairwise_cons.mpr ⟨?_, h⟩
      intro c hc
      rcases List.mem_cons.mp hc with rfl | hc
      · exact hx
      · exact lt_trans hx (hd c hc)
    · next hx =>
      split
      · next hxa =>
        subst hxa
        exact List.pairwise_cons.mpr ⟨hd, hm⟩
      · next hxa =>
        refine List.pairwise_cons.mpr ⟨?_, ih hm⟩
        intro c hc
        rcases mem_set hc with rfl | hc
        · show a < x
          omega
        · exact hd c hc

theorem wf_setAll {bs : List Byte} : ∀ {m : Memory}, m.wf → ∀ x, (m.setAll x bs).wf := by
  induction bs with
  | nil => intro m h x; exact h
  | cons b bs ih => intro m h x; exact ih (wf_set h x b) (x + 1)

/-- Writes below a bound keep every address below it. -/
theorem bounded_set {m : Memory} {cap x : Nat} {v : Byte} (h : ∀ c ∈ m, c.1 < cap) (hx : x < cap) :
    ∀ c ∈ m.set x v, c.1 < cap := by
  intro c hc
  rcases mem_set hc with rfl | hc
  · exact hx
  · exact h c hc

theorem bounded_setAll {bs : List Byte} : ∀ {m : Memory} {cap x : Nat}, (∀ c ∈ m, c.1 < cap) →
    x + bs.length ≤ cap → ∀ c ∈ m.setAll x bs, c.1 < cap := by
  induction bs with
  | nil => intro m cap x h _; exact h
  | cons b bs ih =>
    intro m cap x h hx
    simp only [List.length_cons] at hx
    exact ih (bounded_set h (by omega)) (by omega)

end Memory

namespace State
variable (s : State)

theorem tabByte_set (k x : Nat) (v : Byte) :
    { s with tab := s.tab.set k v }.tabByte x = if x = k then v else s.tabByte x := by
  simp only [State.tabByte, Memory.get?_set]
  split <;> simp

theorem pixByte_set (a x : Nat) (v : Byte) :
    { s with pixmem := s.pixmem.set a v }.pixByte x = if x = a then v else s.pixByte x := by
  simp only [State.pixByte, Memory.get?_set]
  split <;> simp

/-- TAB after a write of bytes from 0 up (R212, R215). -/
theorem tabByte_setAll (bs : List Byte) (x : Nat) :
    { s with tab := s.tab.setAll 0 bs }.tabByte x = if x < bs.length then bs.getD x 0 else s.tabByte x := by
  simp only [State.tabByte, Memory.get?_setAll]
  by_cases h : x < bs.length
  · have h' : 0 ≤ x ∧ x < 0 + bs.length := by omega
    simp [h]
  · simp [h]

@[simp] theorem tabByte_tabLoad (bs : List Byte) (x : Nat) :
    (s.tabLoad bs).tabByte x = if x < bs.length then bs.getD x 0 else s.tabByte x :=
  s.tabByte_setAll bs x

theorem tabByte_tabWrite (n code x : Nat) :
    (s.tabWrite n code).tabByte x = if x = n / 4 then tabField (s.tabByte (n / 4)) n code else s.tabByte x :=
  s.tabByte_set (n / 4) x _

/-- PIXMEM after a pixel write: its three bytes, and no other (R72). -/
theorem pixByte_pixWrite (x y a : Nat) (p : Pixel) :
    (s.pixWrite x y p).pixByte a =
      if a = s.pixAddr x y then p.c0 else if a = s.pixAddr x y + 1 then p.c1
      else if a = s.pixAddr x y + 2 then p.c2 else s.pixByte a := by
  simp only [State.pixByte, State.pixWrite_pixmem, Memory.get?_setAll]
  by_cases h0 : a = s.pixAddr x y
  · subst h0; simp
  by_cases h1 : a = s.pixAddr x y + 1
  · subst h1; simp
  by_cases h2 : a = s.pixAddr x y + 2
  · subst h2; simp
  have h3 : ¬ (s.pixAddr x y ≤ a ∧ a < s.pixAddr x y + [p.c0, p.c1, p.c2].length) := by simp; omega
  rw [if_neg h3, if_neg h0, if_neg h1, if_neg h2]

/-- PixWrite changes no byte but its pixel's three (R72). -/
theorem pixByte_pixWrite_outside {x y a : Nat} (p : Pixel) (h : a < s.pixAddr x y ∨ s.pixAddr x y + 2 < a) :
    (s.pixWrite x y p).pixByte a = s.pixByte a := by
  rw [pixByte_pixWrite, if_neg (by omega), if_neg (by omega), if_neg (by omega)]

@[simp] theorem pixAddr_pixWrite (x y u v : Nat) (p : Pixel) :
    (s.pixWrite x y p).pixAddr u v = s.pixAddr u v := rfl

/-- Pixels of one image row width have distinct addresses, three apart. -/
theorem pixAddr_inj {x y u v : Nat} (hx : x < s.iw.toNat) (hu : u < s.iw.toNat)
    (h : s.pixAddr x y = s.pixAddr u v) : x = u ∧ y = v := by
  have h' : y * s.iw.toNat + x = v * s.iw.toNat + u := by
    unfold State.pixAddr at h
    omega
  have hy : y = v := by
    have h1 : (y * s.iw.toNat + x) / s.iw.toNat = y := by
      rw [Nat.mul_comm, Nat.mul_add_div (by omega), Nat.div_eq_of_lt hx, Nat.add_zero]
    have h2 : (v * s.iw.toNat + u) / s.iw.toNat = v := by
      rw [Nat.mul_comm, Nat.mul_add_div (by omega), Nat.div_eq_of_lt hu, Nat.add_zero]
    rw [← h1, h', h2]
  subst hy
  exact ⟨by omega, rfl⟩

/-- A pixel after a pixel write in the same image (R72). -/
theorem pix_pixWrite {x y u v : Nat} (p : Pixel) (hx : x < s.iw.toNat) (hu : u < s.iw.toNat) :
    (s.pixWrite x y p).pix u v = if u = x ∧ v = y then p else s.pix u v := by
  have hmod : ∀ a b c d, (s.pixAddr a b + c = s.pixAddr x y + d) → c < 3 → d < 3 →
      c = d ∧ s.pixAddr a b = s.pixAddr x y := by
    intro a b c d h hc hd
    unfold State.pixAddr at h ⊢
    omega
  by_cases h : u = x ∧ v = y
  · obtain ⟨rfl, rfl⟩ := h
    simp [State.pix, pixByte_pixWrite]
  · have hne : s.pixAddr u v ≠ s.pixAddr x y := fun e => h (s.pixAddr_inj hu hx e)
    have key : ∀ c, c < 3 → (s.pixWrite x y p).pixByte (s.pixAddr u v + c) = s.pixByte (s.pixAddr u v + c) := by
      intro c hc
      rw [pixByte_pixWrite]
      rw [if_neg (fun e => hne (hmod u v c 0 (by rw [e, Nat.add_zero]) hc (by omega)).2),
        if_neg (fun e => hne (hmod u v c 1 e hc (by omega)).2),
        if_neg (fun e => hne (hmod u v c 2 e hc (by omega)).2)]
    have k0 := key 0 (by omega)
    rw [if_neg h]
    simp only [State.pix, pixAddr_pixWrite, key 1 (by omega), key 2 (by omega)]
    simpa using k0

/-- Reads depend on nothing but the memory, the image width and the draws. -/
theorem pix_congr {s t : State} (hm : t.pixmem = s.pixmem) (hw : t.iw = s.iw) (x y : Nat) : t.pix x y = s.pix x y := by
  simp [State.pix, State.pixByte, State.pixAddr, hm, hw]

theorem block_congr {s t : State} (hm : t.pixmem = s.pixmem) (hw : t.iw = s.iw) (b : Block) :
    t.block b = s.block b := by
  simp [State.block, pix_congr hm hw]

end State
end Sys2Proof.Machine
end

