-- ==== Sys2Proof/Laws/Ops.lean ====
section
/-! SUPPORT. What the shared operations can do, said once: sequencing and raising, the configuration check, the
stream primitives, the packer, and the operand forms. Provers cite these and do not unfold the operations. -/

namespace Sys2Proof.Machine

/-! ### Sequencing -/

@[simp] theorem Result.bind_ok {α β : Type} (a : α) (s : State) (f : α → State → Result β) :
    (Result.ok a s).bind f = f a s := rfl

@[simp] theorem Result.bind_raised {α β : Type} (k : ErrKind) (s : State) (f : α → State → Result β) :
    (Result.raised k s : Result α).bind f = .raised k s := rfl

@[simp] theorem Result.finish_ok (u : Unit) (s : State) : (Result.ok u s).finish = .next s := rfl

@[simp] theorem Result.finish_raised (k : ErrKind) (s : State) :
    (Result.raised k s : Result Unit).finish = .next (s.raise k) := rfl

/-- The state a result carries, whichever way it ended. -/
def Result.state {α : Type} : Result α → State
  | .ok _ s => s
  | .raised _ s => s

/-- A command's result always ends in a next state: the one it carries, with an error recorded if it raised. -/
theorem Result.finish_cases (r : Result Unit) :
    r.finish = .next r.state ∨ ∃ k, r.finish = .next (r.state.raise k) := by
  cases r with
  | ok u s => exact .inl rfl
  | raised k s => exact .inr ⟨k, rfl⟩

/-! ### The configuration check -/

/-- What a passed configuration check says (R243). -/
structure ConfigOk (s : State) : Prop where
  qsb : s.qsb.toNat ∈ [1, 2, 4, 8]
  qcb : s.qcb.toNat = 16
  bw_pow2 : ∃ e, s.bw.toNat = 2 ^ e
  bh_pow2 : ∃ e, s.bh.toNat = 2 ^ e
  bw_ge : 2 ≤ s.bw.toNat
  bh_ge : 2 ≤ s.bh.toNat
  bw_le : s.bw.toNat ≤ s.params.maxBlockDim
  bh_le : s.bh.toNat ≤ s.params.maxBlockDim
  iw_pos : 0 < s.iw.toNat
  ih_pos : 0 < s.ih.toNat
  iw_granule : s.iw.toNat % 16 = 0
  ih_granule : s.ih.toNat % 16 = 0
  bw_le_iw : s.bw.toNat ≤ s.iw.toNat
  bh_le_ih : s.bh.toNat ≤ s.ih.toNat
  iw_grid : s.iw.toNat % s.bw.toNat = 0
  ih_grid : s.ih.toNat % s.bh.toNat = 0
  pixmem : s.iw.toNat * s.ih.toNat * 3 ≤ s.params.pixmemCap
  sizetab : s.tabLen ≤ s.params.sizetabCap

theorem State.sideOk_iff {s : State} {n : Nat} :
    s.sideOk n = true ↔ (∃ e, n = 2 ^ e) ∧ 2 ≤ n ∧ n ≤ s.params.maxBlockDim := by
  simp [State.sideOk, isPow2_iff, and_assoc]

theorem configOk_of_none {s : State} (h : configCheck s = none) : ConfigOk s := by
  unfold configCheck at h
  split at h
  · cases h
  next h1 =>
  split at h
  · cases h
  next h2 =>
  split at h
  · cases h
  next h3 =>
  split at h
  · cases h
  next h4 =>
  split at h
  · cases h
  next h5 =>
  split at h
  · cases h
  next h6 =>
  split at h
  · cases h
  next h7 =>
  split at h
  · cases h
  next h8 =>
  split at h
  · cases h
  next h9 =>
  simp only [Bool.and_eq_true, not_not, State.sideOk_iff] at h3
  obtain ⟨⟨p1, p2, p3⟩, ⟨p4, p5, p6⟩⟩ := h3
  simp only [Config.granule, Config.legalQcb] at *
  exact ⟨not_not.mp h1, by omega, p1, p4, p2, p5, p3, p6, by omega, by omega, by omega, by omega, by omega, by omega,
    by omega, by omega, by omega, by omega⟩

/-- The configuration check reads only the configuration registers and the parameters. -/
theorem configCheck_congr {s t : State} (hp : t.params = s.params) (h1 : t.qsb = s.qsb) (h2 : t.qcb = s.qcb)
    (h3 : t.bw = s.bw) (h4 : t.bh = s.bh) (h5 : t.iw = s.iw) (h6 : t.ih = s.ih) : configCheck t = configCheck s := by
  unfold configCheck State.sideOk State.tabLen State.mbn State.mbw State.mbh
  rw [hp, h1, h2, h3, h4, h5, h6]

theorem runCommand_of_some {s : State} {k : ErrKind} (body : State → Result Unit) (h : configCheck s = some k) :
    runCommand body s = .next (s.raise k) := by
  simp [runCommand, h]

theorem runCommand_of_none {s : State} (body : State → Result Unit) (h : configCheck s = none) :
    runCommand body s = (body s).finish := by
  simp [runCommand, h]

/-- A command's outcome: the configuration error, or what its body leaves. -/
theorem runCommand_cases (body : State → Result Unit) (s : State) :
    (∃ k, configCheck s = some k ∧ runCommand body s = .next (s.raise k)) ∨
    (configCheck s = none ∧ runCommand body s = (body s).finish) := by
  cases h : configCheck s with
  | none => exact .inr ⟨rfl, runCommand_of_none body h⟩
  | some k => exact .inl ⟨k, rfl, runCommand_of_some body h⟩

namespace ConfigOk
variable {s : State} (c : ConfigOk s)
include c

theorem qsb_cases : s.qsb.toNat = 1 ∨ s.qsb.toNat = 2 ∨ s.qsb.toNat = 4 ∨ s.qsb.toNat = 8 := by
  simpa using c.qsb

theorem qsb_pos : 0 < s.qsb.toNat := by
  rcases c.qsb_cases with h | h | h | h <;> omega

theorem qsb_le : s.qsb.toNat ≤ 8 := by
  rcases c.qsb_cases with h | h | h | h <;> omega

theorem qsb_dvd : s.qsb.toNat ∣ 8 := by
  rcases c.qsb_cases with h | h | h | h <;> rw [h] <;> decide

theorem stepCount_pos : 0 < s.stepCount := by
  rcases c.qsb_cases with h | h | h | h <;> simp [State.stepCount, h]

theorem stepCount_lt : s.stepCount < 256 := by
  rcases c.qsb_cases with h | h | h | h <;> simp [State.stepCount, h]

/-- Every pixel the core addresses lies in PIXMEM (R72). -/
theorem pixAddr_lt {x y : Nat} (hx : x < s.iw.toNat) (hy : y < s.ih.toNat) :
    s.pixAddr x y + 3 ≤ s.params.pixmemCap := by
  have h1 : (y + 1) * s.iw.toNat ≤ s.ih.toNat * s.iw.toNat := Nat.mul_le_mul_right _ hy
  have h2 := c.pixmem
  have h3 : (y + 1) * s.iw.toNat = y * s.iw.toNat + s.iw.toNat := Nat.succ_mul _ _
  have h4 : s.ih.toNat * s.iw.toNat = s.iw.toNat * s.ih.toNat := Nat.mul_comm _ _
  unfold State.pixAddr
  omega

theorem mbw_mul : s.mbw * s.bw.toNat = s.iw.toNat :=
  Nat.div_mul_cancel (Nat.dvd_of_mod_eq_zero c.iw_grid)

theorem mbh_mul : s.mbh * s.bh.toNat = s.ih.toNat :=
  Nat.div_mul_cancel (Nat.dvd_of_mod_eq_zero c.ih_grid)

/-- A macroblock of the grid lies inside the image (R170). -/
theorem macroblock_inside {col row x y : Nat} (hc : col < s.mbw) (hr : row < s.mbh) (hx : x < s.bw.toNat)
    (hy : y < s.bh.toNat) : col * s.bw.toNat + x < s.iw.toNat ∧ row * s.bh.toNat + y < s.ih.toNat := by
  have h1 : (col + 1) * s.bw.toNat ≤ s.mbw * s.bw.toNat := Nat.mul_le_mul_right _ hc
  have h2 : (row + 1) * s.bh.toNat ≤ s.mbh * s.bh.toNat := Nat.mul_le_mul_right _ hr
  rw [c.mbw_mul, Nat.succ_mul] at h1
  rw [c.mbh_mul, Nat.succ_mul] at h2
  omega

/-- A macroblock's byte of the size table exists (R74). -/
theorem tabIndex_lt {col row : Nat} (hc : col < s.mbw) (hr : row < s.mbh) :
    (row * s.mbw + col) / 4 < s.params.sizetabCap := by
  have h1 : (row + 1) * s.mbw ≤ s.mbh * s.mbw := Nat.mul_le_mul_right _ hr
  rw [Nat.succ_mul] at h1
  have h2 := c.sizetab
  have h3 : s.mbh * s.mbw = s.mbn := Nat.mul_comm _ _
  unfold State.tabLen ceilDiv at h2
  omega

end ConfigOk

/-! ### Streams -/

theorem outWrite_of_room {bs : List Byte} {s : State} (h : s.out.bytes.length + bs.length ≤ s.out.cap) :
    outWrite bs s = .ok () { s with out := ⟨s.out.bytes ++ bs, s.out.cap⟩ } := by
  simp [outWrite, h]

theorem outWrite_of_short {bs : List Byte} {s : State} (h : ¬ s.out.bytes.length + bs.length ≤ s.out.cap) :
    outWrite bs s = .raised .executionFailure
      { s with out := ⟨s.out.bytes ++ bs.take (s.out.cap - s.out.bytes.length), s.out.cap⟩ } := by
  simp [outWrite, h]

/-- Whichever way it ends, OutWrite changes only OUT, by appending a prefix of the bytes within the capacity. -/
theorem outWrite_state (bs : List Byte) (s : State) :
    (outWrite bs s).state =
      { s with out := ⟨s.out.bytes ++ bs.take (s.out.cap - s.out.bytes.length), s.out.cap⟩ } := by
  unfold outWrite
  split
  · next h =>
    have hlen : bs.length ≤ s.out.cap - s.out.bytes.length := by omega
    simp [Result.state, List.take_of_length_le hlen]
  · rfl

theorem inRead_of_enough {n : Nat} {s : State} (h : s.inp.cur + n ≤ s.inp.bytes.length) :
    inRead n s = .ok (inBytes n s) { s with inp := ⟨s.inp.bytes, s.inp.cur + n⟩ } := by
  simp [inRead, h]

theorem inRead_of_short {n : Nat} {s : State} (h : ¬ s.inp.cur + n ≤ s.inp.bytes.length) :
    inRead n s = .raised .executionFailure { s with inp := ⟨s.inp.bytes, s.inp.bytes.length⟩ } := by
  simp [inRead, h]

theorem inBytes_length {n : Nat} {s : State} (h : s.inp.cur + n ≤ s.inp.bytes.length) : (inBytes n s).length = n := by
  simp [inBytes]
  omega

theorem inBytes_length_short {n : Nat} {s : State} :
    (inBytes n s).length = min n (s.inp.bytes.length - s.inp.cur) := by
  simp [inBytes]

theorem inBytes_getD {n i : Nat} {s : State} (h : i < n) :
    (inBytes n s).getD i 0 = s.inp.bytes.getD (s.inp.cur + i) 0 := by
  simp [inBytes, List.getD_eq_getElem?_getD, h]

/-- Whichever way it ends, InRead changes only IN's cursor. -/
theorem inRead_state (n : Nat) (s : State) :
    (inRead n s).state = { s with inp := ⟨s.inp.bytes,
      if s.inp.cur + n ≤ s.inp.bytes.length then s.inp.cur + n else s.inp.bytes.length⟩ } := by
  unfold inRead
  split <;> simp [Result.state]

/-! ### Packer -/

theorem flush_of_empty {s : State} (h : s.pfill.toNat = 0) : flush s = .ok () s := by
  simp [flush, h]

theorem flush_of_pending {s : State} (h : s.pfill.toNat ≠ 0) :
    flush s = outWrite [s.pacc] { s with pacc := 0, pfill := 0 } := by
  simp [flush, Nat.pos_of_ne_zero h]

/-- With the packer's invariant (R46), an empty packer holds no bits. -/
theorem packerOk_empty {s : State} (h : s.packerOk) (h0 : s.pfill.toNat = 0) : s.pacc = 0 ∧ s.pfill = 0 := by
  have h1 := h.2.2
  rw [h0] at h1
  constructor
  · exact BitVec.eq_of_toNat_eq (by simpa using h1)
  · exact BitVec.eq_of_toNat_eq (by simpa using h0)

/-- A successful flush: the packer is empty and its pending byte, if any, is at the end of OUT (R195). -/
theorem flush_ok {s : State} (hp : s.packerOk)
    (h : s.out.bytes.length + (if s.pfill.toNat = 0 then [] else [s.pacc]).length ≤ s.out.cap) :
    flush s = .ok () { s with
      pacc := 0, pfill := 0
      out := ⟨s.out.bytes ++ (if s.pfill.toNat = 0 then [] else [s.pacc]), s.out.cap⟩ } := by
  by_cases h0 : s.pfill.toNat = 0
  · obtain ⟨ha, hf⟩ := packerOk_empty hp h0
    rw [flush_of_empty h0]
    simp [h0, ← ha, ← hf]
  · simp only [if_neg h0] at h ⊢
    rw [flush_of_pending h0]
    exact outWrite_of_room h

/-- A flush with no room: the packer is emptied, the byte is lost, and the command raises (R195). -/
theorem flush_short {s : State} (h0 : s.pfill.toNat ≠ 0) (h : ¬ s.out.bytes.length + 1 ≤ s.out.cap) :
    flush s = .raised .executionFailure { s with pacc := 0, pfill := 0 } := by
  have hz : s.out.cap - s.out.bytes.length = 0 := by omega
  rw [flush_of_pending h0, outWrite_of_short h]
  simp [hz]

/-- Whichever way it ends, a flush changes only the packer and OUT. -/
theorem flush_state (s : State) : ∃ (a : Byte) (f : BitVec 4) (o : OutStream),
    (flush s).state = { s with pacc := a, pfill := f, out := o } := by
  unfold flush
  split
  · exact ⟨_, _, _, outWrite_state _ _⟩
  · exact ⟨_, _, _, rfl⟩

/-! ### Operands -/

theorem blockOperand_cases (s : State) :
    (blockOperand s = .ok ⟨s.ax.toNat, s.ay.toNat, s.aw.toNat, s.ah.toNat⟩ s ∧
      1 ≤ s.aw.toNat ∧ 1 ≤ s.ah.toNat ∧ s.aw.toNat ≤ s.params.maxBlockDim ∧ s.ah.toNat ≤ s.params.maxBlockDim ∧
      s.ax.toNat + s.aw.toNat ≤ s.iw.toNat ∧ s.ay.toNat + s.ah.toNat ≤ s.ih.toNat) ∨
    (blockOperand s = .raised .invalidArgument s ∧
      ¬ (1 ≤ s.aw.toNat ∧ 1 ≤ s.ah.toNat ∧ s.aw.toNat ≤ s.params.maxBlockDim ∧ s.ah.toNat ≤ s.params.maxBlockDim ∧
        s.ax.toNat + s.aw.toNat ≤ s.iw.toNat ∧ s.ay.toNat + s.ah.toNat ≤ s.ih.toNat)) := by
  unfold blockOperand
  split
  · exact .inr ⟨rfl, by omega⟩
  · split
    · exact .inr ⟨rfl, by omega⟩
    · exact .inl ⟨rfl, by omega⟩

theorem pixelOperand_cases (s : State) :
    (pixelOperand s = .ok (s.ax.toNat, s.ay.toNat) s ∧ s.ax.toNat < s.iw.toNat ∧ s.ay.toNat < s.ih.toNat) ∨
    (pixelOperand s = .raised .invalidArgument s ∧ ¬ (s.ax.toNat < s.iw.toNat ∧ s.ay.toNat < s.ih.toNat)) := by
  unfold pixelOperand
  split
  · exact .inr ⟨rfl, by omega⟩
  · exact .inl ⟨rfl, by omega⟩

theorem macroblockOperand_cases (s : State) :
    (macroblockOperand s =
      .ok ⟨s.ax.toNat * s.bw.toNat, s.ay.toNat * s.bh.toNat, s.ay.toNat * s.mbw + s.ax.toNat⟩ s ∧
      s.ax.toNat < s.mbw ∧ s.ay.toNat < s.mbh) ∨
    (macroblockOperand s = .raised .invalidArgument s ∧ ¬ (s.ax.toNat < s.mbw ∧ s.ay.toNat < s.mbh)) := by
  unfold macroblockOperand
  split
  · exact .inr ⟨rfl, by omega⟩
  · exact .inl ⟨rfl, by omega⟩

theorem indexOperand_cases (imm : Nat) (s : State) :
    (indexOperand imm s = .ok imm s ∧ imm ≤ s.stepCount) ∨
    (indexOperand imm s = .raised .invalidArgument s ∧ s.stepCount < imm) := by
  unfold indexOperand
  split
  · next h => exact .inr ⟨rfl, h⟩
  · exact .inl ⟨rfl, by omega⟩

theorem codeOperand_cases (imm : Nat) (s : State) :
    (codeOperand imm s = .ok imm s ∧ imm ≤ 2) ∨ (codeOperand imm s = .raised .invalidArgument s ∧ 2 < imm) := by
  unfold codeOperand
  split
  · next h => exact .inr ⟨rfl, h⟩
  · exact .inl ⟨rfl, by omega⟩

end Sys2Proof.Machine
end

