-- ==== Sys2Proof/Laws/Commands.lean ====
section
/-! SUPPORT. Every command but NOP and CLEAR_ERR is the configuration check and then its body, so that a claim
about all commands is a claim about their bodies. -/

namespace Sys2Proof.Machine

/-- The body each command runs after the configuration check; NOP and CLEAR_ERR, which run none, as if they did. -/
def bodyOf : Instr → State → Result Unit
  | .nop => fun s => .ok () s
  | .rangeMinmax => bodyRangeMinmax
  | .rangeLinear => bodyRangeLinear
  | .rangeRegress => bodyRangeRegress
  | .quantize => bodyQuantize
  | .dequantize imm => bodyDequantize imm
  | .dequantizeSt imm => bodyDequantizeSt imm
  | .packCtrl => bodyPackCtrl
  | .unpackCtrl => bodyUnpackCtrl
  | .packIdx imm => bodyPackIdx imm
  | .packFlush => flush
  | .unpackIdx => bodyUnpackIdx
  | .unpackAlign => bodyUnpackAlign
  | .sizetabClear => bodySizetabClear
  | .sizetabWrite imm => bodySizetabWrite imm
  | .sizetabRead => bodySizetabRead
  | .sizetabLoad => bodySizetabLoad
  | .selectMb => bodySelectMb
  | .decodeMb => bodyDecodeMb
  | .clearErr => fun s => .ok () s.clearErr

theorem exec_eq_runCommand {i : Instr} (h1 : i ≠ .nop) (h2 : i ≠ .clearErr) (s : State) :
    exec i s = runCommand (bodyOf i) s := by
  cases i <;> first | rfl | exact absurd rfl h1 | exact absurd rfl h2

@[simp] theorem exec_nop (s : State) : exec .nop s = .next s := rfl

@[simp] theorem exec_clearErr (s : State) : exec .clearErr s = .next s.clearErr := rfl

/-- Every way a command can end: the configuration error; its body's state; or its body's error recorded. -/
theorem exec_cases {i : Instr} {s t : State} (h : exec i s = .next t) :
    (∃ k, i ≠ .nop ∧ i ≠ .clearErr ∧ configCheck s = some k ∧ t = s.raise k) ∨
    (bodyOf i s = .ok () t ∧ (i = .nop ∨ i = .clearErr ∨ configCheck s = none)) ∨
    (∃ k u, configCheck s = none ∧ bodyOf i s = .raised k u ∧ t = u.raise k) := by
  by_cases h1 : i = .nop
  · subst h1
    rw [exec_nop] at h
    cases h
    exact .inr (.inl ⟨rfl, .inl rfl⟩)
  by_cases h2 : i = .clearErr
  · subst h2
    rw [exec_clearErr] at h
    cases h
    exact .inr (.inl ⟨rfl, .inr (.inl rfl)⟩)
  rw [exec_eq_runCommand h1 h2] at h
  rcases runCommand_cases (bodyOf i) s with ⟨k, hc, hr⟩ | ⟨hc, hr⟩
  · rw [hr] at h
    cases h
    exact .inl ⟨k, h1, h2, hc, rfl⟩
  · rw [hr] at h
    cases hb : bodyOf i s with
    | ok u t' =>
      rw [hb] at h
      cases h
      exact .inr (.inl ⟨rfl, .inr (.inr hc)⟩)
    | raised k u =>
      rw [hb] at h
      cases h
      exact .inr (.inr ⟨k, u, hc, rfl, rfl⟩)

/-- The state a command leaves is its body's, with an error recorded or not, or the state before with the
configuration error recorded. -/
theorem exec_state {i : Instr} {s t : State} (h : exec i s = .next t) :
    t = (bodyOf i s).state ∨ (∃ k, t = (bodyOf i s).state.raise k) ∨ ∃ k, t = s.raise k := by
  rcases exec_cases h with ⟨k, -, -, -, rfl⟩ | ⟨hb, -⟩ | ⟨k, u, -, hb, rfl⟩
  · exact .inr (.inr ⟨k, rfl⟩)
  · exact .inl (by rw [hb]; rfl)
  · exact .inr (.inl ⟨k, by rw [hb]; rfl⟩)

end Sys2Proof.Machine
end

