-- ==== Sys2Proof/Laws/Bodies.lean ====
section
/-! SUPPORT. For each command's body, the shape of the state it leaves, whichever way it ends: the fields it may have
written, every other field being the one it found. -/

namespace Sys2Proof.Machine

/-- The byte list that `OutWrite` may still append, and nothing else of OUT, changes between two streams. -/
def OutStream.extends (o o' : OutStream) : Prop :=
  o'.cap = o.cap ∧ o.bytes <+: o'.bytes ∧ (o.bytes.length ≤ o.cap → o'.bytes.length ≤ o'.cap)

/-- Only the cursor of IN moves, and not back. -/
def InStream.advances (i i' : InStream) : Prop :=
  i'.bytes = i.bytes ∧ (i.cur ≤ i.bytes.length → i.cur ≤ i'.cur ∧ i'.cur ≤ i'.bytes.length)

theorem OutStream.extends_refl (o : OutStream) : o.extends o := ⟨rfl, List.prefix_refl _, id⟩

theorem OutStream.extends_trans {a b c : OutStream} (h1 : a.extends b) (h2 : b.extends c) : a.extends c :=
  ⟨h2.1.trans h1.1, h1.2.1.trans h2.2.1, fun h => h2.2.2 (h1.2.2 h)⟩

theorem InStream.advances_refl (i : InStream) : i.advances i := ⟨rfl, fun h => ⟨le_refl _, h⟩⟩

theorem InStream.advances_trans {a b c : InStream} (h1 : a.advances b) (h2 : b.advances c) : a.advances c := by
  refine ⟨h2.1.trans h1.1, fun h => ?_⟩
  obtain ⟨h3, h4⟩ := h1.2 h
  obtain ⟨h5, h6⟩ := h2.2 h4
  exact ⟨h3.trans h5, h6⟩

theorem outWrite_extends (bs : List Byte) (s : State) :
    ∃ o, (outWrite bs s).state = { s with out := o } ∧ s.out.extends o := by
  refine ⟨_, outWrite_state bs s, rfl, List.prefix_append _ _, ?_⟩
  intro h
  simp only [List.length_append, List.length_take]
  omega

theorem inRead_advances (n : Nat) (s : State) :
    ∃ i, (inRead n s).state = { s with inp := i } ∧ s.inp.advances i := by
  refine ⟨_, inRead_state n s, rfl, ?_⟩
  intro h
  by_cases h2 : s.inp.cur + n ≤ s.inp.bytes.length
  · simp only [if_pos h2]
    exact ⟨Nat.le_add_right _ _, h2⟩
  · simp only [if_neg h2]
    exact ⟨h, le_refl _⟩

/-- The state of a sequence: the first part's, if it raised, or the second's. -/
theorem Result.bind_state_cases {α β : Type} (r : Result α) (f : α → State → Result β) :
    (∃ k, r = .raised k r.state ∧ (r.bind f).state = r.state) ∨
    (∃ a, r = .ok a r.state ∧ (r.bind f).state = (f a r.state).state) := by
  cases r with
  | ok a s => exact .inr ⟨a, rfl, rfl⟩
  | raised k s => exact .inl ⟨k, rfl, rfl⟩

theorem flush_extends (s : State) : ∃ a f o,
    (flush s).state = { s with pacc := a, pfill := f, out := o } ∧ s.out.extends o := by
  unfold flush
  split
  · obtain ⟨o, h1, h2⟩ := outWrite_extends [s.pacc] { s with pacc := 0, pfill := 0 }
    exact ⟨_, _, o, h1, h2⟩
  · exact ⟨_, _, _, rfl, s.out.extends_refl⟩

/-! ### RangeEstimator -/

theorem bodyRangeMinmax_state (s : State) : ∃ r, (bodyRangeMinmax s).state = s.setRange r := by
  rcases blockOperand_cases s with ⟨h, -⟩ | ⟨h, -⟩
  · exact ⟨_, by rw [bodyRangeMinmax, h]; rfl⟩
  · exact ⟨s.range, by rw [bodyRangeMinmax, h]; rfl⟩

theorem bodyRangeLinear_state (s : State) : ∃ r, (bodyRangeLinear s).state = s.setRange r := by
  rcases blockOperand_cases s with ⟨h, -⟩ | ⟨h, -⟩
  · exact ⟨_, by rw [bodyRangeLinear, h]; rfl⟩
  · exact ⟨s.range, by rw [bodyRangeLinear, h]; rfl⟩

theorem bodyRangeRegress_state (s : State) : ∃ r, (bodyRangeRegress s).state = s.setRange r := by
  rcases blockOperand_cases s with ⟨h, -⟩ | ⟨h, -⟩
  · rw [bodyRangeRegress, h, Result.bind_ok]
    split
    · exact ⟨s.range, rfl⟩
    · exact ⟨_, rfl⟩
  · exact ⟨s.range, by rw [bodyRangeRegress, h]; rfl⟩

/-! ### Quantizer -/

theorem bodyQuantize_state (s : State) : ∃ a p e,
    (bodyQuantize s).state = { s with resIdx := a, resPix := p, resErr := e } := by
  rcases pixelOperand_cases s with ⟨h, -⟩ | ⟨h, -⟩
  · exact ⟨_, _, _, by rw [bodyQuantize, h]; rfl⟩
  · exact ⟨s.resIdx, s.resPix, s.resErr, by rw [bodyQuantize, h]; rfl⟩

theorem bodyDequantize_state (k : Nat) (s : State) : ∃ p, (bodyDequantize k s).state = { s with resPix := p } := by
  rcases indexOperand_cases k s with ⟨h, -⟩ | ⟨h, -⟩
  · exact ⟨_, by rw [bodyDequantize, h]; rfl⟩
  · exact ⟨s.resPix, by rw [bodyDequantize, h]; rfl⟩

theorem bodyDequantizeSt_state (k : Nat) (s : State) :
    (bodyDequantizeSt k s).state = s ∨
    (s.ax.toNat < s.iw.toNat ∧ s.ay.toNat < s.ih.toNat ∧ ∃ p,
      (bodyDequantizeSt k s).state = { s with resPix := p }.pixWrite s.ax.toNat s.ay.toNat p) := by
  rcases indexOperand_cases k s with ⟨h, -⟩ | ⟨h, -⟩
  · rcases pixelOperand_cases s with ⟨h2, hx, hy⟩ | ⟨h2, -⟩
    · exact .inr ⟨hx, hy, _, by rw [bodyDequantizeSt, h, Result.bind_ok, h2]; rfl⟩
    · exact .inl (by rw [bodyDequantizeSt, h, Result.bind_ok, h2]; rfl)
  · exact .inl (by rw [bodyDequantizeSt, h]; rfl)

/-! ### BitPacker -/

theorem bodyPackCtrl_state (s : State) : ∃ a f o,
    (bodyPackCtrl s).state = { s with pacc := a, pfill := f, out := o } ∧ s.out.extends o := by
  obtain ⟨a, f, o, h1, h2⟩ := flush_extends s
  rcases Result.bind_state_cases (flush s) (fun _ s => outWrite (ctrlBytes s.range) s) with ⟨k, -, h⟩ | ⟨u, -, h⟩
  · exact ⟨a, f, o, h.trans h1, h2⟩
  · obtain ⟨o', h3, h4⟩ := outWrite_extends (ctrlBytes (flush s).state.range) (flush s).state
    rw [h1] at h3 h4
    exact ⟨a, f, o', by rw [bodyPackCtrl, h, h1]; exact h3, OutStream.extends_trans h2 h4⟩

theorem bodyUnpackCtrl_state (s : State) : ∃ r i,
    (bodyUnpackCtrl s).state = { s.setRange r with uacc := 0, uavail := 0, inp := i } ∧ s.inp.advances i := by
  obtain ⟨i, h1, h2⟩ := inRead_advances 4 s.alignIn
  rcases Result.bind_state_cases (inRead 4 s.alignIn) (fun b s => .ok () (s.setRange (ctrlDecode b))) with
    ⟨k, -, h⟩ | ⟨b, -, h⟩
  · exact ⟨s.range, i, by rw [bodyUnpackCtrl, h, h1]; rfl, h2⟩
  · exact ⟨ctrlDecode b, i, by rw [bodyUnpackCtrl, h, h1]; rfl, h2⟩

theorem packOne_state (k : Nat) (s : State) : ∃ a f o,
    (packOne k s).state = { s with pacc := a, pfill := f, out := o } ∧ s.out.extends o := by
  unfold packOne
  simp only
  split
  · obtain ⟨o, h1, h2⟩ := outWrite_extends [s.pacc ||| BitVec.ofNat 8 k <<< s.pfill.toNat] { s with pacc := 0, pfill := 0 }
    exact ⟨_, _, o, h1, h2⟩
  · exact ⟨_, _, _, rfl, s.out.extends_refl⟩

theorem bodyPackIdx_state (k : Nat) (s : State) : ∃ a f o,
    (bodyPackIdx k s).state = { s with pacc := a, pfill := f, out := o } ∧ s.out.extends o := by
  rcases indexOperand_cases k s with ⟨h, -⟩ | ⟨h, -⟩
  · obtain ⟨a, f, o, h1, h2⟩ := packOne_state k s
    exact ⟨a, f, o, by rw [bodyPackIdx, h]; exact h1, h2⟩
  · exact ⟨s.pacc, s.pfill, s.out, by rw [bodyPackIdx, h]; rfl, s.out.extends_refl⟩

theorem refill_state (s : State) : ∃ a v i,
    (refill s).state = { s with uacc := a, uavail := v, inp := i } ∧ s.inp.advances i := by
  unfold refill
  split
  · obtain ⟨i, h1, h2⟩ := inRead_advances 1 s
    rcases Result.bind_state_cases (inRead 1 s) (fun b s => .ok () { s with uacc := b.getD 0 0, uavail := 8 }) with
      ⟨k, -, h⟩ | ⟨b, -, h⟩
    · exact ⟨s.uacc, s.uavail, i, by rw [h, h1], h2⟩
    · exact ⟨b.getD 0 0, 8, i, by rw [h, h1]; rfl, h2⟩
  · exact ⟨_, _, _, rfl, s.inp.advances_refl⟩

theorem bodyUnpackIdx_state (s : State) : ∃ x a v i,
    (bodyUnpackIdx s).state = { s with resIdx := x, uacc := a, uavail := v, inp := i } ∧ s.inp.advances i := by
  obtain ⟨a, v, i, h1, h2⟩ := refill_state s
  cases h : refill s with
  | ok u t =>
    rw [h] at h1
    change t = _ at h1
    subst h1
    exact ⟨_, _, _, i, by rw [bodyUnpackIdx, h]; rfl, h2⟩
  | raised k t =>
    rw [h] at h1
    change t = _ at h1
    subst h1
    exact ⟨s.resIdx, a, v, i, by rw [bodyUnpackIdx, h]; rfl, h2⟩

theorem bodySizetabWrite_state (k : Nat) (s : State) :
    (bodySizetabWrite k s).state = s ∨
    (s.ax.toNat < s.mbw ∧ s.ay.toNat < s.mbh ∧ k ≤ 2 ∧
      (bodySizetabWrite k s).state = s.tabWrite (s.ay.toNat * s.mbw + s.ax.toNat) k) := by
  rcases macroblockOperand_cases s with ⟨h, hx, hy⟩ | ⟨h, -⟩
  · rcases codeOperand_cases k s with ⟨h2, hk⟩ | ⟨h2, -⟩
    · exact .inr ⟨hx, hy, hk, by rw [bodySizetabWrite, h, Result.bind_ok, h2]; rfl⟩
    · exact .inl (by rw [bodySizetabWrite, h, Result.bind_ok, h2]; rfl)
  · exact .inl (by rw [bodySizetabWrite, h]; rfl)

theorem bodySizetabRead_state (s : State) : ∃ x, (bodySizetabRead s).state = { s with resIdx := x } := by
  rcases macroblockOperand_cases s with ⟨h, -⟩ | ⟨h, -⟩
  · exact ⟨_, by rw [bodySizetabRead, h]; rfl⟩
  · exact ⟨s.resIdx, by rw [bodySizetabRead, h]; rfl⟩

theorem bodySizetabLoad_state (s : State) : ∃ bs i,
    (bodySizetabLoad s).state = { s.tabLoad bs with uacc := 0, uavail := 0, inp := i } ∧
    bs.length ≤ s.tabLen ∧ s.inp.advances i := by
  obtain ⟨i, h1, h2⟩ := inRead_advances s.tabLen s.alignIn
  have hlen : (inBytes s.tabLen s).length ≤ s.tabLen := by
    rw [inBytes_length_short]
    exact Nat.min_le_left _ _
  have hst : (bodySizetabLoad s).state = (inRead s.tabLen s.alignIn).state.tabLoad (inBytes s.tabLen s) := by
    have hb : inBytes s.tabLen s = inBytes s.tabLen s.alignIn := rfl
    rw [bodySizetabLoad, hb]
    generalize s.alignIn = t
    generalize s.tabLen = n
    by_cases h : t.inp.cur + n ≤ t.inp.bytes.length
    · simp only [inRead, if_pos h]
      rfl
    · simp only [inRead, if_neg h]
      rfl
  exact ⟨_, i, by rw [hst, h1]; rfl, hlen, h2⟩

/-! ### MacroblockSelector -/

theorem selectShift_le (p : Config.Params) (n e0 e1 : Nat) : selectShift p n e0 e1 ≤ 2 := by
  unfold selectShift
  split
  · decide
  · split <;> decide

/-- What SELECT_MB leaves: it raised before the trial, or it has written its code and registers. -/
theorem bodySelectMb_state (s : State) :
    ((bodySelectMb s).state = s) ∨
    (s.ax.toNat < s.mbw ∧ s.ay.toNat < s.mbh ∧ ∃ a f o, s.out.extends o ∧
      ((bodySelectMb s).state = { s with pacc := a, pfill := f, out := o } ∨
       ∃ e0 e1 e2 x e sel, sel ≤ 2 ∧
        (bodySelectMb s).state =
          { s.tabWrite (s.ay.toNat * s.mbw + s.ax.toNat) sel with
            pacc := a, pfill := f, out := o, errAcc0 := e0, errAcc1 := e1, errAcc2 := e2, resIdx := x, resErr := e })) := by
  rcases macroblockOperand_cases s with ⟨h, hx, hy⟩ | ⟨h, -⟩
  · refine .inr ⟨hx, hy, ?_⟩
    obtain ⟨a, f, o, h1, h2⟩ := flush_extends s
    cases hf : flush s with
    | ok u t =>
      rw [hf] at h1
      change t = _ at h1
      subst h1
      rw [bodySelectMb, h, Result.bind_ok, hf, Result.bind_ok]
      generalize hm : (⟨s.ax.toNat * s.bw.toNat, s.ay.toNat * s.bh.toNat, s.ay.toNat * s.mbw + s.ax.toNat⟩ : Macroblock) = mb
      generalize ht : ({ s with pacc := a, pfill := f, out := o } : State) = t
      obtain ⟨o', h3, h4⟩ := outWrite_extends (t.trial mb (t.selectedShift mb)).1 (t.recordSelection mb)
      rw [h3]
      have ho : t.out = o := by rw [← ht]
      rw [State.recordSelection_out, ho] at h4
      refine ⟨a, f, o', OutStream.extends_trans h2 h4, .inr ⟨sat32 (t.trial mb 0).2, sat32 (t.trial mb 1).2, sat32 (t.trial mb 2).2,
        BitVec.ofNat 8 (t.selectedShift mb), sat32 (t.trial mb (t.selectedShift mb)).2, t.selectedShift mb, selectShift_le _ _ _ _, ?_⟩⟩
      subst hm
      subst ht
      rfl
    | raised k t =>
      rw [hf] at h1
      change t = _ at h1
      subst h1
      exact ⟨a, f, o, h2, .inl (by rw [bodySelectMb, h, Result.bind_ok, hf]; rfl)⟩
  · exact .inl (by rw [bodySelectMb, h]; rfl)

/-- Pixel writes change only PIXMEM, and what every pixel write at one of the coordinates keeps, they keep. -/
theorem writePixels_state (l : List ((Nat × Nat) × Pixel)) : ∀ s : State, ∃ m,
    s.writePixels l = { s with pixmem := m } ∧
    ∀ P : Memory → Prop,
      (∀ c ∈ l, ∀ m, P m → P (m.setAll (s.pixAddr c.1.1 c.1.2) [c.2.c0, c.2.c1, c.2.c2])) → P s.pixmem → P m := by
  induction l with
  | nil => exact fun s => ⟨s.pixmem, rfl, fun P _ h => h⟩
  | cons c l ih =>
    intro s
    obtain ⟨m, h1, h2⟩ := ih (s.pixWrite c.1.1 c.1.2 c.2)
    refine ⟨m, by rw [State.writePixels, h1]; rfl, fun P hP h0 => ?_⟩
    exact h2 P (fun d hd m' hm' => hP d (List.mem_cons_of_mem _ hd) m' hm') (hP c (by simp) _ h0)

/-- A microblock's decoding moves IN's cursor and writes only pixels of its block; it writes none when a read is short. -/
theorem decodeMicro_state (b : Block) (s : State) : ∃ m i,
    (decodeMicro b s).state = { s with pixmem := m, inp := i } ∧ s.inp.advances i ∧
    ∀ P : Memory → Prop,
      (∀ c ∈ b.coords, ∀ (m : Memory) (p : Pixel), P m → P (m.setAll (s.pixAddr c.1 c.2) [p.c0, p.c1, p.c2])) →
      P s.pixmem → P m := by
  obtain ⟨i, h1, h2⟩ := inRead_advances 4 s
  cases hr : inRead 4 s with
  | raised k t =>
    rw [hr] at h1
    exact ⟨s.pixmem, i, by rw [decodeMicro, hr]; exact h1, h2, fun P _ h => h⟩
  | ok cb t =>
    rw [hr] at h1
    change t = _ at h1
    obtain ⟨i', h3, h4⟩ := inRead_advances (t.indexBytes b.w b.h) t
    have h5 : s.inp.advances i' := by
      have : t.inp = i := by rw [h1]
      exact InStream.advances_trans h2 (this ▸ h4)
    cases hr2 : inRead (t.indexBytes b.w b.h) t with
    | raised k u =>
      rw [hr2] at h3
      change u = _ at h3
      exact ⟨s.pixmem, i', by rw [decodeMicro, hr, Result.bind_ok, hr2, Result.bind_raised, Result.state, h3, h1], h5,
        fun P _ h => h⟩
    | ok ib u =>
      rw [hr2] at h3
      change u = _ at h3
      generalize hl : b.coords.zip ((unpackIndices u.qsb.toNat u.stepCount ib (b.w * b.h)).map
        (dequant u.stepCount (ctrlDecode cb))) = l
      obtain ⟨m, h6, h7⟩ := writePixels_state l u
      refine ⟨m, i', ?_, h5, fun P hP h0 => ?_⟩
      · rw [decodeMicro, hr, Result.bind_ok, hr2, Result.bind_ok]
        simp only [hl, h6, Result.state]
        rw [h3, h1]
      · refine h7 P (fun c hc m' hm' => ?_) (by rw [h3, h1]; exact h0)
        have hc2 : c.1 ∈ b.coords := by
          rw [← hl] at hc
          exact (List.of_mem_zip hc).1
        have ha : u.pixAddr c.1.1 c.1.2 = s.pixAddr c.1.1 c.1.2 := by rw [h3, h1]; rfl
        rw [ha]
        exact hP c.1 hc2 m' c.2 hm'

/-- So does the decoding of microblocks in order, whichever way it ends. -/
theorem decodeMicros_state (bs : List Block) : ∀ s : State, ∃ m i,
    (decodeMicros bs s).state = { s with pixmem := m, inp := i } ∧ s.inp.advances i ∧
    ∀ P : Memory → Prop,
      (∀ b ∈ bs, ∀ c ∈ b.coords, ∀ (m : Memory) (p : Pixel), P m →
        P (m.setAll (s.pixAddr c.1 c.2) [p.c0, p.c1, p.c2])) →
      P s.pixmem → P m := by
  induction bs with
  | nil => exact fun s => ⟨s.pixmem, s.inp, rfl, s.inp.advances_refl, fun P _ h => h⟩
  | cons b bs ih =>
    intro s
    obtain ⟨m, i, h1, h2, h3⟩ := decodeMicro_state b s
    cases hr : decodeMicro b s with
    | raised k t =>
      rw [hr] at h1
      refine ⟨m, i, by rw [decodeMicros, hr]; exact h1, h2, fun P hP h0 => h3 P (fun c hc => hP b (by simp) c hc) h0⟩
    | ok u t =>
      rw [hr] at h1
      change t = _ at h1
      obtain ⟨m', i', h4, h5, h6⟩ := ih t
      refine ⟨m', i', by rw [decodeMicros, hr, Result.bind_ok, h4, h1], ?_, fun P hP h0 => ?_⟩
      · have : t.inp = i := by rw [h1]
        exact InStream.advances_trans h2 (this ▸ h5)
      · refine h6 P (fun b' hb' c hc m'' p hm'' => ?_) ?_
        · have ha : t.pixAddr c.1 c.2 = s.pixAddr c.1 c.2 := by rw [h1]; rfl
          rw [ha]
          exact hP b' (List.mem_cons_of_mem _ hb') c hc m'' p hm''
        · rw [h1]
          exact h3 P (fun c hc => hP b (by simp) c hc) h0

/-- What DECODE_MB leaves: it raised before any effect, or it has cleared the unpacker, moved IN's cursor and written
only pixels of its macroblock's microblocks. -/
theorem bodyDecodeMb_state (s : State) :
    (bodyDecodeMb s).state = s ∨
    (s.ax.toNat < s.mbw ∧ s.ay.toNat < s.mbh ∧ ∃ x m i,
      (bodyDecodeMb s).state = { s with uacc := 0, uavail := 0, resIdx := x, pixmem := m, inp := i } ∧
      s.inp.advances i ∧
      ∀ P : Memory → Prop,
        (∀ b ∈ s.micro ⟨s.ax.toNat * s.bw.toNat, s.ay.toNat * s.bh.toNat, s.ay.toNat * s.mbw + s.ax.toNat⟩
            (s.tabRead (s.ay.toNat * s.mbw + s.ax.toNat)),
          ∀ c ∈ b.coords, ∀ (m : Memory) (p : Pixel), P m →
            P (m.setAll (s.pixAddr c.1 c.2) [p.c0, p.c1, p.c2])) →
        P s.pixmem → P m) := by
  rcases macroblockOperand_cases s with ⟨h, hx, hy⟩ | ⟨h, -⟩
  · refine .inr ⟨hx, hy, ?_⟩
    generalize hn : s.ay.toNat * s.mbw + s.ax.toNat = n at h
    generalize hm : (⟨s.ax.toNat * s.bw.toNat, s.ay.toNat * s.bh.toNat, n⟩ : Macroblock) = mb at h
    have hmn : mb.n = n := by rw [← hm]
    by_cases h3 : s.tabRead mb.n = 3
    · refine ⟨s.resIdx, s.pixmem, s.inp, ?_, s.inp.advances_refl, fun P _ h0 => h0⟩
      rw [bodyDecodeMb, h, Result.bind_ok]
      simp only [h3, if_true]
      rfl
    · obtain ⟨m, i, h4, h5, h6⟩ := decodeMicros_state (s.micro mb (s.tabRead mb.n))
        { s.alignIn with resIdx := BitVec.ofNat 8 (s.tabRead mb.n) }
      refine ⟨BitVec.ofNat 8 (s.tabRead mb.n), m, i, ?_, h5, ?_⟩
      · rw [bodyDecodeMb, h, Result.bind_ok]
        simp only [h3, if_false]
        rw [h4]
        rfl
      · rw [hmn] at h6
        exact h6
  · exact .inl (by rw [bodyDecodeMb, h]; rfl)

end Sys2Proof.Machine
end

