-- ==== Sys2Proof/Laws/Packing.lean ====
section
/-! SUPPORT. What the index packer and the size table compute, bit by bit (spec/43_bitpacker.md R194-R211). -/

namespace Sys2Proof.Machine

/-- A bit of an OR over the entries that meet a condition. -/
theorem foldl_or_getLsbD (f : Nat × Nat → Byte) (c : Nat × Nat → Prop) [DecidablePred c] (l : List (Nat × Nat))
    (b : Nat) : ∀ a : Byte,
    (l.foldl (fun x kt => if c kt then x ||| f kt else x) a).getLsbD b = true ↔ a.getLsbD b = true ∨ ∃ kt ∈ l, c kt ∧
        (f kt).getLsbD b = true := by
  induction l with
  | nil => intro a; simp
  | cons x l ih =>
    intro a
    rw [List.foldl_cons, ih]
    by_cases hx : c x
    · rw [if_pos hx]; simp [hx, or_assoc]
    · rw [if_neg hx]; simp [hx]

/-- Bit b of byte j of `pack_indices` is bit (8j+b) mod QSB of code (8j+b) div QSB (R194, R196). -/
theorem packedByte_bit {q : Nat} (hq : q ∈ [1, 2, 4, 8]) {ks : List Nat} (hk : ∀ k ∈ ks, k ≤ 2 ^ q - 1) (j b : Nat)
    (hb : b < 8) :
    (packedByte q ks j).getLsbD b = (ks.getD ((j * 8 + b) / q) 0).testBit ((j * 8 + b) % q) := by
  have hq0 : 0 < q := by simp at hq; omega
  have hqd : q ∣ 8 := by simp at hq; rcases hq with rfl | rfl | rfl | rfl <;> decide
  obtain ⟨e, he⟩ := hqd
  rw [Bool.eq_iff_iff]
  unfold packedByte
  rw [foldl_or_getLsbD (fun kt => BitVec.ofNat 8 kt.1 <<< (kt.2 * q % 8)) (fun kt => kt.2 * q / 8 = j)]
  have hz : ¬ ((0 : Byte).getLsbD b = true) := by simp
  rw [or_iff_right hz]
  constructor
  · rintro ⟨⟨k, t⟩, hm, hj, hbit⟩
    simp only at hj hbit
    have hget := List.mem_zipIdx_iff_getElem?.mp hm
    simp only at hget
    have hkk := hk k (List.mem_of_getElem? hget)
    rw [BitVec.getLsbD_shiftLeft] at hbit
    simp only [Bool.and_eq_true, decide_eq_true_eq, Bool.not_eq_true', decide_eq_false_iff_not,
        BitVec.getLsbD_ofNat] at hbit
    obtain ⟨⟨h1, h2⟩, h3, h4⟩ := hbit
    have h5 : b - t * q % 8 < q := by
      by_contra hcon
      have : k < 2 ^ (b - t * q % 8) := lt_of_lt_of_le (by have := Nat.two_pow_pos q; omega)
          (Nat.pow_le_pow_right (by omega) (Nat.le_of_not_lt hcon))
      rw [Nat.testBit_lt_two_pow this] at h4
      cases h4
    have h6 : j * 8 + b = q * t + (b - t * q % 8) := by
      rw [Nat.mul_comm q t]
      have := Nat.div_add_mod (t * q) 8
      omega
    rw [h6, Nat.mul_add_div hq0, Nat.div_eq_of_lt h5, Nat.mul_add_mod, Nat.mod_eq_of_lt h5, Nat.add_zero,
        List.getD_eq_getElem?_getD, hget]
    exact h4
  · intro h
    generalize ht : (j * 8 + b) / q = t at h
    generalize hr : (j * 8 + b) % q = r at h
    have hrq : r < q := hr ▸ Nat.mod_lt _ hq0
    have hdm : q * t + r = j * 8 + b := by rw [← ht, ← hr]; exact Nat.div_add_mod _ _
    have htl : t < ks.length := by
      by_contra hcon
      rw [List.getD_eq_getElem?_getD, List.getElem?_eq_none (Nat.le_of_not_lt hcon)] at h
      simp at h
    rw [List.getD_eq_getElem?_getD, List.getElem?_eq_getElem htl] at h
    have hd8 : q * (e * j) = j * 8 := by rw [he]; ring
    have htj : e * j ≤ t := by
      rw [← ht, Nat.le_div_iff_mul_le hq0, Nat.mul_comm, hd8]; omega
    have h7 : q * (e * j) ≤ q * t := Nat.mul_le_mul_left _ htj
    have h8 : t * q / 8 = j := by
      rw [Nat.mul_comm]
      omega
    have h9 : t * q % 8 = b - r := by
      rw [Nat.mul_comm]
      omega
    refine ⟨(ks[t], t), List.mem_zipIdx_iff_getElem?.mpr (by simp [htl]), h8, ?_⟩
    simp only [h9, BitVec.getLsbD_shiftLeft, BitVec.getLsbD_ofNat]
    have : b - (b - r) = r := by
      have := Nat.div_add_mod (t * q) 8
      rw [Nat.mul_comm t q] at this h8 h9
      omega
    rw [this]
    simp only [Option.getD_some] at h
    simp [h]
    omega

/-- `pack_indices` gives ceil(m * QSB / 8) bytes (R7). -/
theorem packIndices_length (q : Nat) (ks : List Nat) : (packIndices q ks).length = (ks.length * q + 7) / 8 := by
  simp [packIndices, ceilDiv_eight]

/-- A byte of `pack_indices`. -/
theorem packIndices_get (q : Nat) (ks : List Nat) {j : Nat} (hj : j < (ks.length * q + 7) / 8)
    : (packIndices q ks).getD j 0 = packedByte q ks j := by
  have : j < ceilDiv (ks.length * q) 8 := hj
  simp [packIndices, List.getD_eq_getElem?_getD, this]

/-- The t-th QSB-bit field of the packed bytes is code t (R194). -/
theorem packed_field {q : Nat} (hq : q ∈ [1, 2, 4, 8]) {ks : List Nat} (hk : ∀ k ∈ ks, k ≤ 2 ^ q - 1) {t : Nat}
    (ht : t < ks.length) :
    (packedByte q ks (t * q / 8)).toNat / 2 ^ (t * q % 8) % 2 ^ q = ks[t] := by
  have hq0 : 0 < q := by simp at hq; omega
  have hqd : q ∣ 8 := by simp at hq; rcases hq with rfl | rfl | rfl | rfl <;> decide
  have hkt := hk _ (List.getElem_mem ht)
  have hfit : t * q % 8 + q ≤ 8 := by
    simp at hq; rcases hq with rfl | rfl | rfl | rfl <;> omega
  apply Nat.eq_of_testBit_eq
  intro i
  rw [Nat.testBit_mod_two_pow, Nat.testBit_div_two_pow]
  by_cases hi : i < q
  · have hb := packedByte_bit hq hk (t * q / 8) (t * q % 8 + i) (by omega)
    have e : t * q / 8 * 8 + (t * q % 8 + i) = q * t + i := by
      rw [Nat.mul_comm q t]
      have := Nat.div_add_mod (t * q) 8
      omega
    rw [e, Nat.mul_add_div hq0, Nat.div_eq_of_lt hi, Nat.mul_add_mod, Nat.mod_eq_of_lt hi, Nat.add_zero,
        List.getD_eq_getElem?_getD, List.getElem?_eq_getElem ht] at hb
    rw [Nat.add_comm i]
    change (packedByte q ks (t * q / 8)).toNat.testBit (t * q % 8 + i) = _ at hb
    rw [hb]
    simp [hi]
  · have : ks[t] < 2 ^ i := lt_of_lt_of_le (by have := Nat.two_pow_pos q; omega) (Nat.pow_le_pow_right (by omega)
      (Nat.le_of_not_lt hi))
    rw [Nat.testBit_lt_two_pow this]
    simp [hi]

/-- What one more code changes in a packed byte (R195). -/
theorem packedByte_snoc (q : Nat) (ks : List Nat) (k j : Nat) :
    packedByte q (ks ++ [k]) j = if ks.length * q / 8 =
        j then packedByte q ks j ||| (BitVec.ofNat 8 k <<< (ks.length * q % 8)) else packedByte q ks j := by
  unfold packedByte
  rw [List.zipIdx_append, List.foldl_append]
  simp

/-- A byte past the last code holds none of its bits. -/
theorem packedByte_beyond (q : Nat) (ks : List Nat) (j : Nat) (h : ks.length * q ≤ 8 * j) (hq : 0 < q)
    : packedByte q ks j = 0 := by
  induction ks using List.reverseRecOn with
  | nil => rfl
  | append_singleton ks k ih =>
    rw [List.length_append, List.length_singleton, Nat.add_mul] at h
    rw [packedByte_snoc, if_neg (by omega), ih (by omega)]

/-- The other positions of the byte `tab_write` stores keep their codes (R211). -/
theorem tabField_other (b : Byte) (n code m : Nat) (hc : code ≤ 3) (hm : m % 4 ≠ n % 4) :
    (tabField b n code).toNat / 4 ^ (m % 4) % 4 = b.toNat / 4 ^ (m % 4) % 4 := by
  have hn : n % 4 < 4 := Nat.mod_lt _ (by omega)
  have hm' : m % 4 < 4 := Nat.mod_lt _ (by omega)
  unfold tabField tabShift
  generalize n % 4 = a at *
  generalize m % 4 = c at *
  revert b
  interval_cases code <;> interval_cases a <;> interval_cases c <;> first | (exact absurd rfl hm) | decide

/-- The position `tab_write` sets holds the code (R211). -/
theorem tabField_same (b : Byte) (n code : Nat) (hc : code ≤ 3) :
    (tabField b n code).toNat / 4 ^ (n % 4) % 4 = code := by
  have hn : n % 4 < 4 := Nat.mod_lt _ (by omega)
  unfold tabField tabShift
  generalize n % 4 = a at *
  revert b
  interval_cases code <;> interval_cases a <;> decide

/-- `tab_read(n)` as arithmetic (R210). -/
theorem State.tabRead_eq (s : State) (n : Nat) : s.tabRead n = (s.tabByte (n / 4)).toNat / 4 ^ (n % 4) % 4 := by
  unfold State.tabRead tabShift
  have : (3 : Byte) = BitVec.ofNat 8 (2^2-1) := rfl
  rw [this, byte_and_mask _ 2 (by omega), byte_ushiftRight]
  have hb := (s.tabByte (n / 4)).isLt
  have h4 : 2 ^ (n % 4 * 2) = 4 ^ (n % 4) := by rw [Nat.mul_comm, Nat.pow_mul]
  rw [h4]
  simp only [BitVec.toNat_ofNat]
  have : (s.tabByte (n/4)).toNat / 4 ^ (n % 4) ≤ (s.tabByte (n/4)).toNat := Nat.div_le_self _ _
  omega

end Sys2Proof.Machine
end

