-- ==== Sys2Proof/Laws/Selector.lean ====
section
/-! SUPPORT. The geometry of a macroblock: microblock sides are powers of two that divide its sides, and where the
pixels of its microblocks lie; a block's list of coordinates; and a trial as a sum over its microblocks. -/

namespace Sys2Proof.Machine

theorem ushiftRight_eq_div (n k : Nat) : n >>> k = n / 2 ^ k := Nat.shiftRight_eq_div_pow n k

/-- `max(2, side >> shift)` divides a side that is a power of two from 2 up (R170). -/
theorem microSide_dvd {n : Nat} (h : ∃ e, n = 2 ^ e) (h2 : 2 ≤ n) (shift : Nat) :
    max Config.minMicro (n >>> shift) ∣ n := by
  obtain ⟨e, rfl⟩ := h
  have he : 1 ≤ e := by
    by_contra hc
    have : e = 0 := by omega
    subst this
    omega
  rw [Nat.shiftRight_eq_div_pow]
  by_cases hs : shift + 1 ≤ e
  · rw [Nat.pow_div (by omega) (by omega), max_eq_right]
    · exact pow_dvd_pow 2 (by omega)
    · calc Config.minMicro = 2 ^ 1 := rfl
        _ ≤ 2 ^ (e - shift) := Nat.pow_le_pow_right (by omega) (by omega)
  · have hle : 2 ^ e / 2 ^ shift ≤ 1 := by
      calc 2 ^ e / 2 ^ shift ≤ 2 ^ shift / 2 ^ shift := Nat.div_le_div_right (Nat.pow_le_pow_right (by omega)
          (by omega))
        _ = 1 := Nat.div_self (Nat.two_pow_pos _)
    rw [max_eq_left (by show _ ≤ 2; omega)]
    exact dvd_pow_self 2 (by omega)

namespace ConfigOk
variable {s : State} (c : ConfigOk s)
include c

theorem mw_dvd (shift : Nat) : s.mw shift ∣ s.bw.toNat := microSide_dvd c.bw_pow2 c.bw_ge shift

theorem mh_dvd (shift : Nat) : s.mh shift ∣ s.bh.toNat := microSide_dvd c.bh_pow2 c.bh_ge shift

end ConfigOk

theorem mw_pos (s : State) (shift : Nat) : 0 < s.mw shift :=
  lt_of_lt_of_le (by decide : 0 < Config.minMicro) (le_max_left _ _)

theorem mh_pos (s : State) (shift : Nat) : 0 < s.mh shift :=
  lt_of_lt_of_le (by decide : 0 < Config.minMicro) (le_max_left _ _)

/-- The microblocks, by their column and row. -/
theorem mem_micro {s : State} {mb : Macroblock} {shift : Nat} {b : Block} : b ∈ s.micro mb shift ↔
    ∃ row col, row < s.bh.toNat / s.mh shift ∧ col < s.bw.toNat / s.mw shift ∧
      b = ⟨mb.ox + col * s.mw shift, mb.oy + row * s.mh shift, s.mw shift, s.mh shift⟩ := by
  simp only [State.micro, List.mem_flatMap, List.mem_map, List.mem_range]
  constructor
  · rintro ⟨row, hr, col, hc, rfl⟩
    exact ⟨row, col, hr, hc, rfl⟩
  · rintro ⟨row, col, hr, hc, rfl⟩
    exact ⟨row, hr, col, hc, rfl⟩

theorem Block.mem_coords {b : Block} {x y : Nat} :
    (x, y) ∈ b.coords ↔ b.x ≤ x ∧ x < b.x + b.w ∧ b.y ≤ y ∧ y < b.y + b.h := by
  simp only [Block.coords, List.mem_flatMap, List.mem_map, List.mem_range, Prod.mk.injEq]
  constructor
  · rintro ⟨j, hj, i, hi, rfl, rfl⟩
    omega
  · rintro ⟨h1, h2, h3, h4⟩
    exact ⟨y - b.y, by omega, x - b.x, by omega, by omega, by omega⟩

/-- Column `x - ox` of a macroblock is in exactly one column of microblocks. -/
theorem cell_bounds {n w i : Nat} (hd : w ∣ n) (hi : i < n / w) : i * w + w ≤ n := by
  have h : (i + 1) * w ≤ n / w * w := Nat.mul_le_mul_right _ hi
  rw [Nat.div_mul_cancel hd, Nat.succ_mul] at h
  exact h

/-- A pixel of a microblock is a pixel of its macroblock (R170). -/
theorem micro_inside {s : State} (c : ConfigOk s) {mb : Macroblock} {shift : Nat} {b : Block}
    (hb : b ∈ s.micro mb shift)
    {x y : Nat} (hxy : (x, y) ∈ b.coords) :
    mb.ox ≤ x ∧ x < mb.ox + s.bw.toNat ∧ mb.oy ≤ y ∧ y < mb.oy + s.bh.toNat := by
  obtain ⟨row, col, hr, hc, rfl⟩ := mem_micro.mp hb
  have h := Block.mem_coords.mp hxy
  have h1 := cell_bounds (c.mw_dvd shift) hc
  have h2 := cell_bounds (c.mh_dvd shift) hr
  simp only at h
  omega

/-- A block's coordinates, by position: raster order (R11). -/
theorem Block.coords_length (b : Block) : b.coords.length = b.w * b.h := by
  simp [Block.coords, List.length_flatMap, Nat.mul_comm]

theorem getElem?_flatMap_range {α : Type} (n w : Nat) (f : Nat → Nat → α) {i j : Nat} (hi : i < w) (hj : j < n) :
    ((List.range n).flatMap fun j => (List.range w).map fun i => f j i)[j * w + i]? = some (f j i) := by
  induction n with
  | zero => omega
  | succ n ih =>
    have hlen : ((List.range n).flatMap fun j => (List.range w).map fun i => f j i).length = n * w := by
      simp [List.length_flatMap]
    rw [List.range_succ, List.flatMap_append]
    by_cases hjn : j < n
    · have hlt : j * w + i < n * w := by
        have : (j + 1) * w ≤ n * w := Nat.mul_le_mul_right _ hjn
        rw [Nat.succ_mul] at this
        omega
      rw [List.getElem?_append_left (by rw [hlen]; exact hlt)]
      exact ih hjn
    · have : j = n := by omega
      subst this
      rw [List.getElem?_append_right (by rw [hlen]; omega), hlen]
      have : j * w + i - j * w = i := by omega
      simp [this, hi]

theorem Block.getElem?_coords (b : Block) {i j : Nat} (hi : i < b.w) (hj : j < b.h) :
    b.coords[j * b.w + i]? = some (b.x + i, b.y + j) :=
  getElem?_flatMap_range b.h b.w (fun j i => (b.x + i, b.y + j)) hi hj

theorem State.block_length (s : State) (b : Block) : (s.block b).length = b.w * b.h := by
  simp [State.block, Block.coords_length]

/-- A position of a macroblock side lies in a microblock side that divides it. -/
theorem cell_split {n w x o : Nat} (hd : w ∣ n) (hw : 0 < w) (h : o ≤ x ∧ x < o + n) : ∃ i, i < n / w ∧
    o + i * w ≤ x ∧ x < o + i * w + w := by
  refine ⟨(x - o) / w, ?_, ?_, ?_⟩
  · exact Nat.div_lt_div_of_lt_of_dvd hd (by omega)
  · have := Nat.div_mul_le_self (x - o) w; omega
  · have := Nat.lt_div_mul_add (a := x - o) hw; omega

/-- It lies in one only. -/
theorem cell_unique {w i i' x o : Nat} (h : o + i * w ≤ x) (h2 : x < o + i * w + w) (h' : o + i' * w ≤ x)
    (h2' : x < o + i' * w + w) : i = i' := by
  have key : ∀ i i', i < i' → o + i' * w ≤ x → x < o + i * w + w → False := by
    intro i i' hl a b
    have : (i + 1) * w ≤ i' * w := Nat.mul_le_mul_right _ hl
    rw [Nat.succ_mul] at this
    omega
  rcases Nat.lt_trichotomy i i' with hl | hl | hl
  · exact (key i i' hl h' h2).elim
  · exact hl
  · exact (key i' i hl h h2').elim

/-- A block lists each of its pixels once. -/
theorem coords_nodup (b : Block) : b.coords.Nodup := by
  unfold Block.coords
  rw [List.nodup_flatMap]
  constructor
  · intro j hj
    exact List.nodup_range.map (fun a b h => by simp at h; omega)
  · refine List.nodup_range.imp ?_
    intro j j' hne
    simp only [Function.onFun, List.disjoint_left, List.mem_map]
    rintro ⟨x, y⟩ ⟨i, -, h⟩ ⟨i', -, h'⟩
    simp at h h'
    omega

/-- The number of microblocks (R170). -/
theorem micro_length (s : State) (mb shift) : (s.micro mb shift).length = (s.bw.toNat / s.mw shift)
    * (s.bh.toNat / s.mh shift) := by
  simp [State.micro, List.length_flatMap, Nat.mul_comm]

theorem foldl_concat_sum (f : Block → List Byte × Nat) (l : List Block) : ∀ a : List Byte × Nat,
    l.foldl (fun t b => (t.1 ++ (f b).1, t.2 + (f b).2)) a = (a.1 ++ (l.map fun b => (f b).1).flatten,
    a.2 + (l.map fun b => (f b).2).sum) := by
  induction l with
  | nil => intro a; simp
  | cons x l ih => intro a; simp [ih, Nat.add_assoc]

/-- A trial as the concatenation and the sum over its microblocks (R172). -/
theorem trial_eq (s : State) (mb shift) : s.trial mb shift =
    (((s.micro mb shift).map fun b => (s.encodeMicro b).1).flatten,
    ((s.micro mb shift).map fun b => (s.encodeMicro b).2).sum) := by
  unfold State.trial
  rw [foldl_concat_sum]; simp

/-- A record has 4 + NB(w, h) bytes (R116). -/
theorem encodeMicro_length (s : State) (b : Block) : (s.encodeMicro b).1.length = 4 + (b.w * b.h * s.qsb.toNat + 7)
    / 8 := by
  unfold State.encodeMicro encodePixels
  simp only [List.length_append, packIndices_length, blockIndices, List.length_map, State.block_length]
  rfl

theorem length_flatten_const {α : Type} (l : List (List α)) (n : Nat) (h : ∀ x ∈ l, x.length = n)
    : l.flatten.length = l.length * n := by
  induction l with
  | nil => simp
  | cons a l ih =>
    rw [List.flatten_cons, List.length_append, ih (fun x hx => h x (by simp [hx])), h a (by simp),
        List.length_cons]; ring

/-- A trial depends on the parameters, QSB, the macroblock side and the microblocks' pixels only. -/
theorem trial_congr {s t : State} (h1 : t.params = s.params) (h2 : t.qsb = s.qsb) (h3 : t.bw = s.bw) (h4 : t.bh =
    s.bh) (mb : Macroblock) (shift : Nat)
    (hp : ∀ b ∈ s.micro mb shift, t.block b = s.block b) : t.trial mb shift = s.trial mb shift := by
  have hm : t.micro mb shift = s.micro mb shift := by simp [State.micro, State.mw, State.mh, h3, h4]
  rw [trial_eq, trial_eq, hm]
  have : ∀ b ∈ s.micro mb shift, t.encodeMicro b = s.encodeMicro b := by
    intro b hb
    unfold State.encodeMicro
    rw [hp b hb, h1, h2]
  congr 2 <;> exact List.map_congr_left fun b hb => by rw [this b hb]

/-- It does not depend on the packer or on OUT. -/
theorem trial_of_flushed (s : State) (a : Byte) (f : BitVec 4) (o : OutStream) (mb : Macroblock) (shift : Nat) :
    State.trial { s with pacc := a, pfill := f, out := o } mb shift = s.trial mb shift :=
  trial_congr rfl rfl rfl rfl mb shift fun b _ => State.block_congr rfl rfl b

end Sys2Proof.Machine
end

