-- ==== Sys2Proof/Laws/Decoding.lean ====
section
/-! SUPPORT. What DECODE_MB's loop does, in full: the pixels it writes,
the cursor it leaves and where it raises (spec/42_macroblock_selector.md R178). -/

namespace Sys2Proof.Machine

/-- A pixel that no write names keeps its value. -/
theorem writePixels_pix_other (l : List ((Nat × Nat) × Pixel)) : ∀ (s : State) (x y : Nat), x < s.iw.toNat →
    (∀ c ∈ l, c.1.1 < s.iw.toNat) → (x, y) ∉ l.map Prod.fst → (s.writePixels l).pix x y = s.pix x y := by
  induction l with
  | nil => intro s x y _ _ _; rfl
  | cons c l ih =>
    intro s x y hx hl hn
    rw [List.map_cons, List.mem_cons, not_or] at hn
    rw [State.writePixels, ih (s.pixWrite c.1.1 c.1.2 c.2) x y hx (fun d hd => hl d (by simp [hd])) hn.2,
        State.pix_pixWrite _ _ (hl c (by simp)) hx, if_neg]
    rintro ⟨h1, h2⟩
    exact hn.1 (Prod.ext h1 h2)

/-- Each pixel that one write names has that write's value. -/
theorem writePixels_pix_mem (l : List ((Nat × Nat) × Pixel)) : ∀ (s : State), (l.map Prod.fst).Nodup →
    (∀ c ∈ l, c.1.1 < s.iw.toNat) → ∀ c ∈ l, (s.writePixels l).pix c.1.1 c.1.2 = c.2 := by
  induction l with
  | nil => intro s _ _ c hc; cases hc
  | cons d l ih =>
    intro s hnd hl c hc
    rw [List.map_cons, List.nodup_cons] at hnd
    rcases List.mem_cons.mp hc with rfl | hc
    · rw [State.writePixels, writePixels_pix_other l (s.pixWrite c.1.1 c.1.2 c.2) _ _ (hl c (by simp))
        (fun d hd => hl d (by simp [hd])) hnd.1, State.pix_pixWrite _ _ (hl c (by simp)) (hl c (by simp))]
      simp
    · rw [State.writePixels]
      exact ih (s.pixWrite d.1.1 d.1.2 d.2) hnd.2 (fun d hd => hl d (by simp [hd])) c hc

/-- The 4 + nb bytes of IN at a position. -/
def recordAt (s : State) (c nb : Nat) : List Byte := (s.inp.bytes.drop c).take (4 + nb)

/-- The pixels a record reconstructs, in raster order. -/
def decodedBlock (s : State) (w h : Nat) (rec : List Byte) : List Pixel :=
  (unpackIndices s.qsb.toNat (2 ^ s.qsb.toNat - 1) (rec.drop 4) (w * h)).map (dequant (2 ^ s.qsb.toNat - 1)
      (ctrlDecode (rec.take 4)))

theorem decodedBlock_length (s w h rec) : (decodedBlock s w h rec).length = w * h := by simp [decodedBlock,
    unpackIndices]

/-- One microblock whose record is whole. -/
theorem decodeMicro_of_enough (b : Block) (s : State) (nb : Nat) (hnb : nb = s.indexBytes b.w b.h)
    (hlen : s.inp.cur + (4 + nb) ≤ s.inp.bytes.length)
   (hx : ∀ c ∈ b.coords, c.1 < s.iw.toNat) :
   ∃ m, decodeMicro b s = .ok () { s with pixmem := m, inp := ⟨s.inp.bytes, s.inp.cur + (4 + nb)⟩ } ∧
     State.block { s with pixmem := m } b = decodedBlock s b.w b.h (recordAt s s.inp.cur nb) ∧
     ∀ x y, x < s.iw.toNat → (x, y) ∉ b.coords → State.pix { s with pixmem := m } x y = s.pix x y := by
  have e1 : inRead 4 s = .ok (inBytes 4 s) { s with inp := ⟨s.inp.bytes,
      s.inp.cur + 4⟩ } := inRead_of_enough (by omega)
  let s1 : State := { s with inp := ⟨s.inp.bytes, s.inp.cur + 4⟩ }
  have e2 : inRead (s1.indexBytes b.w b.h) s1 = .ok (inBytes (s1.indexBytes b.w b.h) s1)
      { s1 with inp := ⟨s.inp.bytes, s.inp.cur + 4 + nb⟩ } := by
    rw [inRead_of_enough (by show s.inp.cur + 4 + s.indexBytes b.w b.h ≤ s.inp.bytes.length; omega)]
    subst hnb; rfl
  let s2 : State := { s with inp := ⟨s.inp.bytes, s.inp.cur + (4 + nb)⟩ }
  have hr4 : inBytes 4 s = (recordAt s s.inp.cur nb).take 4 := by
    unfold inBytes recordAt
    rw [List.take_take]
    congr 1
    omega
  have hrd : inBytes (s1.indexBytes b.w b.h) s1 = (recordAt s s.inp.cur nb).drop 4 := by
    unfold inBytes recordAt
    rw [List.drop_take, List.drop_drop]
    show List.take (s.indexBytes b.w b.h) (List.drop (s.inp.cur + 4) s.inp.bytes) = _
    rw [← hnb]
    congr 1
    omega
  have hdec : decodeMicro b s = .ok ()
      (s2.writePixels (b.coords.zip (decodedBlock s b.w b.h (recordAt s s.inp.cur nb)))) := by
    unfold decodeMicro
    rw [e1, Result.bind_ok]
    rw [show inRead (State.indexBytes { s with inp := ⟨s.inp.bytes, s.inp.cur + 4⟩ } b.w b.h)
        { s with inp := ⟨s.inp.bytes, s.inp.cur + 4⟩ } = _ from e2, Result.bind_ok]
    rw [hr4, hrd]
    simp only [s1, Nat.add_assoc]
    rfl
  obtain ⟨m, hm, -⟩ := writePixels_state (b.coords.zip (decodedBlock s b.w b.h (recordAt s s.inp.cur nb))) s2
  rw [hm] at hdec
  have hlenz : b.coords.length =
      (decodedBlock s b.w b.h (recordAt s s.inp.cur nb)).length := by rw [Block.coords_length, decodedBlock_length]
  have hmap : (b.coords.zip (decodedBlock s b.w b.h (recordAt s s.inp.cur nb))).map Prod.fst =
      b.coords := List.map_fst_zip (by omega)
  have hxl : ∀ c ∈ b.coords.zip (decodedBlock s b.w b.h (recordAt s s.inp.cur nb)),
      c.1.1 < s2.iw.toNat := fun c hc => hx _ (List.of_mem_zip hc).1
  have hpix : ∀ x y, State.pix { s with pixmem := m } x y =
      (s2.writePixels (b.coords.zip (decodedBlock s b.w b.h (recordAt s s.inp.cur nb)))).pix x y := by
    intro x y
    rw [hm]; rfl
  refine ⟨m, hdec, ?_, ?_⟩
  · apply List.ext_getElem?
    intro i
    by_cases hi : i < b.coords.length
    · have hi2 : i < (decodedBlock s b.w b.h (recordAt s s.inp.cur nb)).length := by omega
      unfold State.block
      rw [List.getElem?_map, List.getElem?_eq_getElem hi, List.getElem?_eq_getElem hi2]
      simp only [Option.map_some]
      rw [hpix]
      congr 1
      exact writePixels_pix_mem _ s2 (by rw [hmap]; exact coords_nodup b) hxl (b.coords[i],
          (decodedBlock s b.w b.h (recordAt s s.inp.cur nb))[i]) (by
        rw [List.mem_iff_getElem?]
        exact ⟨i, by simp [hi, hi2]⟩)
    · rw [List.getElem?_eq_none, List.getElem?_eq_none]
      · omega
      · rw [State.block_length, ← Block.coords_length]; omega
  · intro x y hx hn
    rw [hpix, writePixels_pix_other _ s2 x y hx hxl (by rw [hmap]; exact hn)]
    rfl

/-- One microblock whose record is not: the cursor is at the end and no pixel is written. -/
theorem decodeMicro_of_short (b : Block) (s : State) (nb : Nat) (hnb : nb = s.indexBytes b.w b.h)
    (hlen : ¬ s.inp.cur + (4 + nb) ≤ s.inp.bytes.length) :
   decodeMicro b s = .raised .executionFailure { s with inp := ⟨s.inp.bytes, s.inp.bytes.length⟩ } := by
  unfold decodeMicro
  by_cases h4 : s.inp.cur + 4 ≤ s.inp.bytes.length
  · rw [inRead_of_enough h4, Result.bind_ok]
    rw [inRead_of_short (by show ¬ s.inp.cur + 4 + s.indexBytes b.w b.h ≤ s.inp.bytes.length; omega)]
    rfl
  · rw [inRead_of_short h4]
    rfl

/-- The loop: it writes the microblocks whose records are whole, and no other pixel. -/
theorem decodeMicros_spec (w h nb : Nat) (bs : List Block) : ∀ s : State, nb = s.indexBytes w h →
    (∀ b ∈ bs, b.w = w ∧ b.h = h) → (∀ b ∈ bs, ∀ c ∈ b.coords, c.1 < s.iw.toNat) → (bs.flatMap Block.coords).Nodup →
    s.inp.cur ≤ s.inp.bytes.length →
   ∃ m c, (decodeMicros bs s).state = { s with pixmem := m, inp := ⟨s.inp.bytes, c⟩ } ∧
     (s.inp.cur + bs.length * (4 + nb) ≤ s.inp.bytes.length →
       decodeMicros bs s = .ok () { s with pixmem := m, inp := ⟨s.inp.bytes, c⟩ } ∧
       c = s.inp.cur + bs.length * (4 + nb)) ∧
     (s.inp.bytes.length < s.inp.cur + bs.length * (4 + nb) → decodeMicros bs s =
         .raised .executionFailure { s with pixmem := m, inp := ⟨s.inp.bytes, c⟩ } ∧ c = s.inp.bytes.length) ∧
     (∀ i b, s.inp.cur + (i + 1) * (4 + nb) ≤ s.inp.bytes.length → bs[i]? = some b →
         State.block { s with pixmem := m } b = decodedBlock s w h (recordAt s (s.inp.cur + i * (4 + nb)) nb)) ∧
     (∀ x y, x < s.iw.toNat → (∀ i b, s.inp.cur + (i + 1) * (4 + nb) ≤ s.inp.bytes.length → bs[i]? = some b →
         (x, y) ∉ b.coords) → State.pix { s with pixmem := m } x y = s.pix x y) := by
  induction bs with
  | nil =>
    intro s hnb hsz hx hnd hcur
    exact ⟨s.pixmem, s.inp.cur, rfl, fun _ => ⟨rfl, by simp⟩, fun h => by simp at h; omega, by simp, by intros; rfl⟩
  | cons b bs ih =>
    intro s hnb hsz hx hnd hcur
    obtain ⟨hbw, hbh⟩ := hsz b (by simp)
    have hnb' : nb = s.indexBytes b.w b.h := by rw [hbw, hbh]; exact hnb
    have hmul : (b :: bs).length * (4 + nb) = bs.length * (4 + nb) + (4 + nb) := by rw [List.length_cons,
        Nat.succ_mul]
    rw [hmul]
    by_cases hl : s.inp.cur + (4 + nb) ≤ s.inp.bytes.length
    · obtain ⟨m1, hd, hb1, ho1⟩ := decodeMicro_of_enough b s nb hnb' hl (hx b (by simp))
      rw [List.flatMap_cons, List.nodup_append] at hnd
      obtain ⟨hn1, hn2, hn3⟩ := hnd
      let t : State := { s with pixmem := m1, inp := ⟨s.inp.bytes, s.inp.cur + (4 + nb)⟩ }
      obtain ⟨m, c, h1, h2, h3, h4, h5⟩ := ih t hnb (fun b hb => hsz b (by simp [hb]))
          (fun b hb => hx b (by simp [hb])) hn2 hl
      have hds : decodeMicros (b :: bs) s = decodeMicros bs t := by
        rw [decodeMicros, hd, Result.bind_ok]
      rw [hds]
      have hpt : ∀ x y, State.pix { t with pixmem := m } x y = State.pix { s with pixmem := m } x y := fun _ _ => rfl
      have hpt1 : ∀ x y, t.pix x y = State.pix { s with pixmem := m1 } x y := fun _ _ => rfl
      have hcurt : t.inp.cur = s.inp.cur + (4 + nb) := rfl
      have hbt : t.inp.bytes = s.inp.bytes := rfl
      rw [hcurt, hbt] at h2 h3 h4 h5
      refine ⟨m, c, h1, fun h => ?_, fun h => ?_, ?_, ?_⟩
      · obtain ⟨e1, e2⟩ := h2 (by omega)
        exact ⟨e1, by omega⟩
      · obtain ⟨e1, e2⟩ := h3 (by omega)
        exact ⟨e1, e2⟩
      · intro i b' hi hb'
        rcases i with _ | i
        · simp at hb'
          subst hb'
          have : State.block { s with pixmem := m } b = State.block { s with pixmem := m1 } b := by
            apply List.map_congr_left
            rintro ⟨x, y⟩ hxy
            have := h5 x y (hx b (by simp) _ hxy) (by
              intro i b' _ hb' hmem
              exact hn3 _ hxy (x, y) (List.mem_flatMap.mpr ⟨b', List.mem_of_getElem? hb', hmem⟩) rfl)
            exact this
          rw [this, hb1, hbw, hbh]
          simp
        · have := h4 i b' (by rw [Nat.succ_mul] at hi; omega) (by simpa using hb')
          rw [show State.block { s with pixmem := m } b' = State.block { t with pixmem := m } b' from rfl, this]
          rw [Nat.succ_mul, show s.inp.cur + (4 + nb) + i * (4 + nb) = s.inp.cur + (i * (4 + nb) + (4 + nb)) by omega]
          rfl
      · intro x y hxw hn
        have hn0 := hn 0 b (by simpa using hl) (by simp)
        have := h5 x y hxw (fun i b' hi hb' => hn (i + 1) b' (by rw [Nat.succ_mul]; omega) (by simpa using hb'))
        rw [← hpt, this, hpt1, ho1 x y hxw hn0]
    · rw [decodeMicros, decodeMicro_of_short b s nb hnb' hl]
      refine ⟨s.pixmem, s.inp.bytes.length, rfl, fun h => absurd h (by omega), fun _ => ⟨rfl, rfl⟩, ?_,
          fun _ _ _ _ => rfl⟩
      intro i b' hi _
      rw [Nat.succ_mul] at hi
      omega

end Sys2Proof.Machine
end

