-- ==== Sys2Proof/Laws/Estimator.lean ====
section
/-! SUPPORT. What the searches of the RangeEstimator and the encoder keep,
and the bounds of the Quantizer's functions (spec/40_range_estimator.md R131-R133, spec/41_quantizer.md R152-R153). -/

namespace Sys2Proof.Machine

theorem byteMin_toNat (a b : Byte) : (byteMin a b).toNat = min a.toNat b.toNat := by
  unfold byteMin
  simp only [BitVec.le_def]
  split <;> omega

theorem byteMax_toNat (a b : Byte) : (byteMax a b).toNat = max a.toNat b.toNat := by
  unfold byteMax
  simp only [BitVec.le_def]
  split <;> omega

/-- A minimum over a list is one of its elements, or the start, and bounds them all. -/
theorem foldl_byteMin (l : List Byte) : ∀ a, ((l.foldl byteMin a) = a ∨ l.foldl byteMin a ∈ l) ∧
    (l.foldl byteMin a).toNat ≤ a.toNat ∧ ∀ b ∈ l, (l.foldl byteMin a).toNat ≤ b.toNat := by
  induction l with
  | nil => intro a; simp
  | cons x l ih =>
    intro a
    obtain ⟨h1, h2, h3⟩ := ih (byteMin a x)
    rw [byteMin_toNat] at h2
    simp only [List.foldl_cons]
    refine ⟨?_, by omega, ?_⟩
    · rcases h1 with h1 | h1
      · rw [h1]; unfold byteMin; split <;> simp
      · simp [h1]
    · intro b hb
      rcases List.mem_cons.mp hb with rfl | hb
      · omega
      · exact h3 b hb

/-- A maximum over a list is one of its elements, or the start, and bounds them all. -/
theorem foldl_byteMax (l : List Byte) : ∀ a, ((l.foldl byteMax a) = a ∨ l.foldl byteMax a ∈ l) ∧
    a.toNat ≤ (l.foldl byteMax a).toNat ∧ ∀ b ∈ l, b.toNat ≤ (l.foldl byteMax a).toNat := by
  induction l with
  | nil => intro a; simp
  | cons x l ih =>
    intro a
    obtain ⟨h1, h2, h3⟩ := ih (byteMax a x)
    rw [byteMax_toNat] at h2
    simp only [List.foldl_cons]
    refine ⟨?_, by omega, ?_⟩
    · rcases h1 with h1 | h1
      · rw [h1]; unfold byteMax; split <;> simp
      · simp [h1]
    · intro b hb
      rcases List.mem_cons.mp hb with rfl | hb
      · omega
      · exact h3 b hb

/-- A fold that replaces its element only by a strictly greater one keeps the first greatest (R133). -/
theorem foldl_keepFirstGreatest {α : Type} (f : α → Nat) (l : List α) : ∀ x0 : α,
    ∃ i, i < l.length + 1 ∧ (x0 :: l)[i]? = some (l.foldl (fun b x => if f b < f x then x else b) x0) ∧
      ∀ j y, (x0 :: l)[j]? = some y → f y ≤ f (l.foldl (fun b x => if f b < f x then x else b) x0) ∧
        (j < i → f y < f (l.foldl (fun b x => if f b < f x then x else b) x0)) := by
  induction l with
  | nil => intro x0; refine ⟨0, by simp, by simp, ?_⟩
           intro j y hj
           rcases j with _ | j <;> simp at hj
           subst hj; simp
  | cons x l ih =>
    intro x0
    simp only [List.foldl_cons]
    by_cases h : f x0 < f x
    · rw [if_pos h]
      obtain ⟨i, h1, h2, h3⟩ := ih x
      refine ⟨i + 1, by simp; omega, by simpa using h2, ?_⟩
      have hx := (h3 0 x (by simp)).1
      intro j y hj
      rcases j with _ | j
      · simp at hj; subst hj; omega
      · have := h3 j y (by simpa using hj)
        exact ⟨this.1, fun hji => this.2 (by omega)⟩
    · rw [if_neg h]
      obtain ⟨i, h1, h2, h3⟩ := ih x0
      have hx := h3 0 x0 (by simp)
      rcases i with _ | i
      · refine ⟨0, by simp, by simpa using h2, ?_⟩
        intro j y hj
        rcases j with _ | _ | j
        · simp at hj; subst hj; exact ⟨hx.1, by omega⟩
        · simp at hj; subst hj; exact ⟨by omega, by omega⟩
        · exact ⟨(h3 (j + 1) y (by simpa using hj)).1, by omega⟩
      · refine ⟨i + 2, by simp at *; omega, by simpa using h2, ?_⟩
        have hx2 := hx.2 (by omega)
        intro j y hj
        rcases j with _ | _ | j
        · simp at hj; subst hj; exact ⟨hx.1, fun _ => hx2⟩
        · simp at hj; subst hj; exact ⟨by omega, fun _ => by omega⟩
        · have := h3 (j + 1) y (by simpa using hj)
          exact ⟨this.1, fun hji => this.2 (by omega)⟩

/-- `leastError` is the first candidate with the least error (R171). -/
theorem leastError_isFirstLeast (err : Range → Nat) (l : List Range) (x : Range) :
    ∃ i : Nat, (x :: l)[i]? = some (leastError err x l) ∧ ∀ (j : Nat) (c : Range), (x :: l)[j]? = some c →
        err (leastError err x l) ≤ err c ∧ (j < i → err (leastError err x l) < err c) := by
  unfold leastError
  induction l generalizing x with
  | nil =>
    refine ⟨0, by simp, ?_⟩
    intro j c hj
    rcases j with _ | j <;> simp at hj
    subst hj; simp
  | cons a l ih =>
    simp only [List.foldl_cons]
    by_cases h : err a < err x
    · rw [if_pos h]
      obtain ⟨i, h2, h3⟩ := ih a
      refine ⟨i + 1, by simpa using h2, ?_⟩
      have hx := (h3 0 a (by simp)).1
      intro j y hj
      rcases j with _ | j
      · simp at hj; subst hj; omega
      · have := h3 j y (by simpa using hj)
        exact ⟨this.1, fun hji => this.2 (by omega)⟩
    · rw [if_neg h]
      obtain ⟨i, h2, h3⟩ := ih x
      have hx := h3 0 x (by simp)
      rcases i with _ | i
      · refine ⟨0, by simpa using h2, ?_⟩
        intro j y hj
        rcases j with _ | _ | j
        · simp at hj; subst hj; exact ⟨hx.1, by omega⟩
        · simp at hj; subst hj; exact ⟨by omega, by omega⟩
        · exact ⟨(h3 (j + 1) y (by simpa using hj)).1, by omega⟩
      · refine ⟨i + 2, by simpa using h2, ?_⟩
        have hx2 := hx.2 (by omega)
        intro j y hj
        rcases j with _ | _ | j
        · simp at hj; subst hj; exact ⟨hx.1, fun _ => hx2⟩
        · simp at hj; subst hj; exact ⟨by omega, fun _ => by omega⟩
        · have := h3 (j + 1) y (by simpa using hj)
          exact ⟨this.1, fun hji => this.2 (by omega)⟩

/-- Positions in raster order compare by row, then by column. -/
theorem lexicographic_lt {i j a b n : Nat} (ha : a < n) (hb : b < n) : i * n + a < j * n + b ↔ i < j ∨ (i = j ∧
    a < b) := by
  constructor
  · intro h
    rcases Nat.lt_trichotomy i j with h1 | h1 | h1
    · exact .inl h1
    · subst h1; exact .inr ⟨rfl, by omega⟩
    · have : (j + 1) * n ≤ i * n := Nat.mul_le_mul_right _ h1
      rw [Nat.succ_mul] at this; omega
  · rintro (h | ⟨rfl, h⟩)
    · have : (i + 1) * n ≤ j * n := Nat.mul_le_mul_right _ h
      rw [Nat.succ_mul] at this; omega
    · omega

/-- The ordered pairs, by position: i outer, j inner (R133). -/
theorem orderedPairs_getElem? (blk : List Pixel) {i j : Nat} (hi : i < blk.length) (hj : j < blk.length) :
    (orderedPairs blk)[i * blk.length + j]? = some (blk.getD i Pixel.zero, blk.getD j Pixel.zero) := by
  have e : orderedPairs blk =
      (List.range blk.length).flatMap fun i => (List.range blk.length).map fun j => (blk.getD i Pixel.zero,
      blk.getD j Pixel.zero) := by
    have h : blk = (List.range blk.length).map fun i => blk.getD i Pixel.zero := by
      apply List.ext_getElem?
      intro k
      by_cases hk : k < blk.length
      · simp [hk, List.getD_eq_getElem?_getD]
      · simp [hk]
    unfold orderedPairs
    conv_lhs => rw [h]
    rw [List.flatMap_map]
    apply List.flatMap_congr
    intro a ha
    rw [List.map_map]
    rfl
  rw [e]
  exact getElem?_flatMap_range blk.length blk.length (fun i j => (blk.getD i Pixel.zero, blk.getD j Pixel.zero)) hj hi

/-- An index is at most S (R152). -/
theorem qindex_le (a : Config.QuantArith) (S : Nat) (r : Range) (p : Pixel) : qindex a S r p ≤ S := by
  unfold qindex; simp only; exact Nat.min_le_right _ _

theorem floatIndex_zero (p S l : Nat) : floatIndex p S l 0 = 0 := by
  simp [floatIndex, sqrtRnd, divRnd]

/-- The range minimum has index 0 (R155). -/
theorem qindex_zero (a : Config.QuantArith) (S : Nat) (r : Range) : qindex a S r r.mn = 0 := by
  unfold qindex
  simp only [sq_self, Nat.mul_zero, Nat.zero_div, isqrt_zero, floatIndex_zero]
  cases a <;> simp

/-- Index 0 reconstructs the range minimum (R153). -/
theorem dequant_zero (S : Nat) (r : Range) : dequant S r 0 = r.mn := by
  unfold dequant dequantChan
  simp

/-- Against a uniform range every index reconstructs its colour (R153). -/
theorem dequant_same (S : Nat) (v : Pixel) (k : Nat) : dequant S ⟨v, v⟩ k = v := by
  unfold dequant dequantChan
  simp

end Sys2Proof.Machine
end

