-- ==== Sys2Proof/Laws/PerInstr.lean ====
section
/-! SUPPORT. The family EncodedFields: for every command, the three fields of its word are its OPC, a zero RSV and
its IMM (spec/30_encoding.md R100, R110); one lemma per constructor. -/

namespace Sys2Proof.Laws.EncodedFields

/-- The fields of a word put together as R100 lays it out. -/
theorem fields_of_append (k : Nat) (o : Byte) (hk : k < 65536) :
    opcOf (BitVec.ofNat 16 k ++ (0#8 ++ o)) = o ∧ rsvOf (BitVec.ofNat 16 k ++ (0#8 ++ o)) = 0 ∧
    (immOf (BitVec.ofNat 16 k ++ (0#8 ++ o))).toNat = k := by
  have h : (BitVec.ofNat 16 k ++ (0#8 ++ o)).toNat = k * 65536 + o.toNat := by
    rw [BitVec.toNat_append, BitVec.toNat_append,
      ← Nat.shiftLeft_add_eq_or_of_lt (by simpa using lt_trans o.isLt (by norm_num)),
      ← Nat.shiftLeft_add_eq_or_of_lt o.isLt]
    simp [Nat.shiftLeft_eq, Nat.mod_eq_of_lt hk]
  have ho := o.isLt
  refine ⟨?_, ?_, ?_⟩
  · apply BitVec.eq_of_toNat_eq
    rw [BitVec.extractLsb'_toNat, h]
    simp
    omega
  · apply BitVec.eq_of_toNat_eq
    rw [BitVec.extractLsb'_toNat, h]
    simp [Nat.shiftRight_eq_div_pow]
    omega
  · rw [BitVec.extractLsb'_toNat, h]
    simp [Nat.shiftRight_eq_div_pow]
    omega

/-- A well-formed command's word has the command's OPC, RSV = 0 and the command's IMM. -/
def Statement (i : Instr) : Prop :=
  i.wf = true → opcOf (encode i) = i.opcode ∧ rsvOf (encode i) = 0 ∧ (immOf (encode i)).toNat = i.imm?.getD 0

/-- An immediate-free command. -/
theorem of_no_imm {i : Instr} (h : i.imm?.getD 0 = 0) : Statement i := by
  intro _
  have := fields_of_append 0 i.opcode (by omega)
  simpa only [encode, h] using this

/-- A command whose immediate fits. -/
theorem of_imm {i : Instr} (h : i.wf = true → i.imm?.getD 0 < 65536) : Statement i :=
  fun hwf => fields_of_append (i.imm?.getD 0) i.opcode (h hwf)

theorem nop : Statement .nop := of_no_imm rfl
theorem rangeMinmax : Statement .rangeMinmax := of_no_imm rfl
theorem rangeLinear : Statement .rangeLinear := of_no_imm rfl
theorem rangeRegress : Statement .rangeRegress := of_no_imm rfl
theorem quantize : Statement .quantize := of_no_imm rfl
theorem dequantize (imm : Nat) : Statement (.dequantize imm) := of_imm (by simp [Instr.wf, Instr.imm?])
theorem dequantizeSt (imm : Nat) : Statement (.dequantizeSt imm) := of_imm (by simp [Instr.wf, Instr.imm?])
theorem packCtrl : Statement .packCtrl := of_no_imm rfl
theorem unpackCtrl : Statement .unpackCtrl := of_no_imm rfl
theorem packIdx (imm : Nat) : Statement (.packIdx imm) := of_imm (by simp [Instr.wf, Instr.imm?])
theorem packFlush : Statement .packFlush := of_no_imm rfl
theorem unpackIdx : Statement .unpackIdx := of_no_imm rfl
theorem unpackAlign : Statement .unpackAlign := of_no_imm rfl
theorem sizetabClear : Statement .sizetabClear := of_no_imm rfl
theorem sizetabWrite (imm : Nat) : Statement (.sizetabWrite imm) := of_imm (by simp [Instr.wf, Instr.imm?])
theorem sizetabRead : Statement .sizetabRead := of_no_imm rfl
theorem sizetabLoad : Statement .sizetabLoad := of_no_imm rfl
theorem selectMb : Statement .selectMb := of_no_imm rfl
theorem decodeMb : Statement .decodeMb := of_no_imm rfl
theorem clearErr : Statement .clearErr := of_no_imm rfl

end Sys2Proof.Laws.EncodedFields
end

