-- ==== Sys2Proof/Laws/Words.lean ====
section
/-! SUPPORT. The words of the register window as numbers: concatenations as sums, each register's value by its
fields, and the bit fields of a word by division; and what a step does for each move of the host. -/

namespace Sys2Proof.Machine

/-- A concatenation is its high part times the weight of its low part's bits, plus the low part (R8). -/
theorem append_toNat {m n : Nat} (a : BitVec m) (b : BitVec n) : (a ++ b).toNat = a.toNat * 2 ^ n + b.toNat := by
  rw [BitVec.toNat_append, ← Nat.shiftLeft_add_eq_or_of_lt b.isLt, Nat.shiftLeft_eq]

theorem byte0_toNat (v : Word) : v.byte0.toNat = v.toNat % 256 := by
  simp [BitVec.extractLsb'_toNat]

theorem byte1_toNat (v : Word) : v.byte1.toNat = v.toNat / 256 % 256 := by
  simp [BitVec.extractLsb'_toNat, Nat.shiftRight_eq_div_pow]

theorem byte2_toNat (v : Word) : v.byte2.toNat = v.toNat / 65536 % 256 := by
  simp [BitVec.extractLsb'_toNat, Nat.shiftRight_eq_div_pow]

theorem half0_toNat (v : Word) : v.half0.toNat = v.toNat % 65536 := by
  simp [BitVec.extractLsb'_toNat]

theorem half1_toNat (v : Word) : v.half1.toNat = v.toNat / 65536 := by
  have h := v.isLt
  simp [BitVec.extractLsb'_toNat, Nat.shiftRight_eq_div_pow]
  omega

theorem pixelWord_toNat (p : Pixel) : p.toWord.toNat = p.c0.toNat + p.c1.toNat * 256 + p.c2.toNat * 65536 := by
  simp only [Pixel.toWord, append_toNat, BitVec.toNat_ofNat]
  omega

theorem halves_toNat (a b : Half) : (halves a b).toNat = a.toNat + b.toNat * 65536 := by
  simp only [halves, append_toNat]
  omega

theorem cfg0Word_toNat (s : State) : s.cfg0Word.toNat = s.qsb.toNat + s.qcb.toNat * 256 := by
  simp only [State.cfg0Word, append_toNat, BitVec.toNat_ofNat]
  omega

theorem resIdxWord_toNat (s : State) : s.resIdxWord.toNat = s.resIdx.toNat := by
  simp only [State.resIdxWord, append_toNat, BitVec.toNat_ofNat]
  omega

theorem pkstateWord_toNat (s : State) : s.pkstateWord.toNat =
    s.uavail.toNat * 16777216 + s.uacc.toNat * 65536 + s.pfill.toNat * 256 + s.pacc.toNat := by
  simp only [State.pkstateWord, append_toNat, BitVec.toNat_ofNat]
  omega

theorem statusWord_toNat (s : State) : s.statusWord.toNat =
    (if s.busy then 2147483648 else 0) + s.errOp.toNat * 256 + (errCodeBits s.errCode).toNat := by
  simp only [State.statusWord, append_toNat, BitVec.toNat_ofNat]
  cases s.busy
  · simp
  · simp
    omega

/-! ### The window -/

theorem windowOffset_of {s : State} {off : Nat} (h1 : off < 256) (h2 : off % 4 = 0) :
    windowOffset s (s.params.coreBase + off) = .ok off := by
  unfold windowOffset
  rw [if_neg (by omega), if_neg (by omega), Nat.add_sub_cancel_left]

/-- What a window address is: an aligned offset of this core's window, outside the window, or misaligned. -/
theorem windowOffset_cases (s : State) (addr : Nat) :
    (∃ off, addr = s.params.coreBase + off ∧ off < 256 ∧ off % 4 = 0 ∧ windowOffset s addr = .ok off) ∨
    ((addr < s.params.coreBase ∨ s.params.coreBase + 256 ≤ addr) ∧
      windowOffset s addr = .error (.outsideWindow addr)) ∨
    ((addr - s.params.coreBase) % 4 ≠ 0 ∧ windowOffset s addr = .error (.windowMisaligned addr)) := by
  unfold windowOffset
  split
  · next h => exact .inr (.inl ⟨h, rfl⟩)
  · split
    · next h => exact .inr (.inr ⟨h, rfl⟩)
    · next h1 h2 => exact .inl ⟨addr - s.params.coreBase, by omega, by omega, by omega, rfl⟩

/-- A register write to any offset changes only configuration, argument and range registers, the packer and the
unpacker. -/
theorem writeReg_fields (off : Nat) (v : Word) (s : State) :
    ∃ a b c d e f g h i j r m p q u w, writeReg off v s = { s with
      qsb := a, qcb := b, bw := c, bh := d, iw := e, ih := f, ax := g, ay := h, aw := i, ah := j, rmin := r, rmax := m,
      pacc := p, pfill := q, uacc := u, uavail := w } := by
  unfold writeReg
  split <;> exact ⟨_, _, _, _, _, _, _, _, _, _, _, _, _, _, _, _, rfl⟩

/-! ### Steps -/

theorem step_idle {s : State} (h : s.pending = []) : step s = .next s := by
  unfold step
  rw [h]

theorem step_cons {s : State} {op : HostOp} {rest : List HostOp} (h : s.pending = op :: rest) :
    step s = hostMove op { s with pending := rest } := by
  unfold step
  rw [h]

theorem hostMove_write {s : State} (hb : s.busy = false) {off : Nat} (h1 : off < 256) (h2 : off % 4 = 0)
    (h0 : off ≠ 0) (v : Word) : hostMove (.write (s.params.coreBase + off) v) s = .next (writeReg off v s) := by
  unfold hostMove
  rw [if_neg (by simp [hb])]
  simp only [windowWrite, windowOffset_of h1 h2, if_neg h0]

theorem hostMove_command {s : State} (hb : s.busy = false) (w : Word) :
    hostMove (.write s.params.coreBase w) s = accept w s := by
  have h := windowOffset_of (s := s) (off := 0) (by omega) (by omega)
  unfold hostMove
  rw [if_neg (by simp [hb])]
  rw [Nat.add_zero] at h
  simp only [windowWrite, h, if_true]

theorem hostMove_read {s : State} (hb : s.busy = false) {off : Nat} (h1 : off < 256) (h2 : off % 4 = 0) :
    hostMove (.read (s.params.coreBase + off)) s = .next (s.deliver (.word (readReg s off))) := by
  unfold hostMove
  rw [if_neg (by simp [hb])]
  simp only [windowRead, windowOffset_of h1 h2]

end Sys2Proof.Machine
end

