-- ==== Sys2Proof/Machine/HostProgram.lean ====
section
/-! DEFINITION. The host-program syntax of spec/30_encoding.md R110-R114 as lists of host moves: commands,
`wr` and `rd`, `pixel` and `fill`, the attach lines, and the pseudo-instructions with their expansions.
A host program runs by standing in State's `pending`. -/

namespace Sys2Proof.Machine.HostProgram

/-- The register names of `wr` and `rd` (R111), with their offsets (R31). -/
inductive Reg where
  | CMD | STATUS | CFG0 | CFG1 | CFG2 | ARG0 | ARG1 | RMIN | RMAX | RES_IDX | RES_ERR | RES_PIX
  | ERRACC0 | ERRACC1 | ERRACC2 | PKSTATE
deriving DecidableEq, Repr

/-- The offset table of R31. -/
def Reg.offset : Reg → Nat
  | .CMD => 0x00
  | .STATUS => 0x04
  | .CFG0 => 0x08
  | .CFG1 => 0x0C
  | .CFG2 => 0x10
  | .ARG0 => 0x14
  | .ARG1 => 0x18
  | .RMIN => 0x1C
  | .RMAX => 0x20
  | .RES_IDX => 0x24
  | .RES_ERR => 0x28
  | .RES_PIX => 0x2C
  | .ERRACC0 => 0x30
  | .ERRACC1 => 0x34
  | .ERRACC2 => 0x38
  | .PKSTATE => 0x3C

/-- `wr REG, v`, on a platform whose window is at `base`. -/
def wr (base : Nat) (r : Reg) (v : Word) : HostOp := .write (base + r.offset) v

/-- `rd REG`. -/
def rd (base : Nat) (r : Reg) : HostOp := .read (base + r.offset)

/-- A command line: its encoding written to CMD (R110, R111). -/
def cmd (base : Nat) (i : Instr) : HostOp := wr base .CMD (encode i)

/-- `(hi << 16) | lo`, the operand words of R112. -/
def pairWord (lo hi : Nat) : Word := BitVec.ofNat 16 hi ++ BitVec.ofNat 16 lo

/-- `cfg qsb, bw, bh, iw, ih` (R112). -/
def cfg (base qsb bw bh iw ih : Nat) : List HostOp :=
  [wr base .CFG0 (0#16 ++ (16#8 ++ BitVec.ofNat 8 qsb)), wr base .CFG1 (pairWord bw bh), wr base .CFG2 (pairWord iw ih)]

/-- `at x, y` (R112). -/
def setAt (base x y : Nat) : List HostOp := [wr base .ARG0 (pairWord x y)]

/-- `blk x, y, w, h` (R112). -/
def blk (base x y w h : Nat) : List HostOp := [wr base .ARG0 (pairWord x y), wr base .ARG1 (pairWord w h)]

/-- `range (a0,a1,a2), (b0,b1,b2)` (R112). -/
def range (base : Nat) (a b : Pixel) : List HostOp := [wr base .RMIN a.toWord, wr base .RMAX b.toWord]

/-- `pixel x, y, (c0, c1, c2)`: the three byte writes, for an image of width `iw` (R72, R111). -/
def pixel (iw x y : Nat) (p : Pixel) : List HostOp :=
  let a := (y * iw + x) * 3
  [.pixWrite a p.c0, .pixWrite (a + 1) p.c1, .pixWrite (a + 2) p.c2]

/-- `fill x, y, w, h, (c0, c1, c2)` (R111). -/
def fill (iw x y w h : Nat) (p : Pixel) : List HostOp :=
  (Block.coords ⟨x, y, w, h⟩).flatMap fun c => pixel iw c.1 c.2 p

/-- `outattach cap` (R111). -/
def outattach (cap : Nat) : HostOp := .outAttach ⟨[], cap⟩

/-- `inattach [b0, b1, ...]` (R111). -/
def inattach (bs : List Byte) : HostOp := .inAttach ⟨bs, 0⟩

/-- `tab k, v` (R111). -/
def tab (k : Nat) (v : Byte) : HostOp := .tabWrite k v

/-- The macroblock loop of R113 and R114: `at i, j` and a command, in raster order. -/
def overMacroblocks (base mbw mbh : Nat) (i : Instr) : List HostOp :=
  (List.range mbh).flatMap fun row => (List.range mbw).flatMap fun col => setAt base col row ++ [cmd base i]

/-- `ENCODE_IMAGE` (R113). -/
def encodeImage (base mbw mbh : Nat) : List HostOp :=
  cmd base .sizetabClear :: overMacroblocks base mbw mbh .selectMb

/-- `DECODE_IMAGE` (R114). -/
def decodeImage (base mbw mbh : Nat) : List HostOp :=
  cmd base .sizetabLoad :: overMacroblocks base mbw mbh .decodeMb

end Sys2Proof.Machine.HostProgram
end

