-- ==== Sys2Proof/Tests/Slice0.lean ====
section
/-! SUPPORT. Tests: ill-formed terms refused; every command's word written out from spec/30_encoding.md R100 and R102;
single steps against the vectors of spec/95_test_vectors.md; and witnesses that the hypotheses of the statements can
be met. -/

namespace Sys2Proof.Tests
open Sys2Proof.Machine Sys2Proof.Claims

/-! ### Helpers -/

/-- A pixel from its channels. -/
def px (a b c : Nat) : Pixel := ⟨BitVec.ofNat 8 a, BitVec.ofNat 8 b, BitVec.ofNat 8 c⟩

/-- A pixel's channels. -/
def chans (p : Pixel) : List Nat := [p.c0.toNat, p.c1.toNat, p.c2.toNat]

/-- A state configured as `cfg qsb, bw, bh, iw, ih` leaves it (R112). -/
def cfgd (qsb bw bh iw ih : Nat) : State :=
  { State.reset with
    qsb := BitVec.ofNat 8 qsb, qcb := 16, bw := BitVec.ofNat 16 bw, bh := BitVec.ofNat 16 bh
    iw := BitVec.ofNat 16 iw, ih := BitVec.ofNat 16 ih }

/-- The pixels of the top rows of the image, `w` a row, in raster order. -/
def paint (w : Nat) (ps : List Pixel) (s : State) : State :=
  s.writePixels (ps.zipIdx.map fun pt => ((pt.2 % w, pt.2 / w), pt.1))

/-- ARG0 := (x, y). -/
def at0 (x y : Nat) (s : State) : State := { s with ax := BitVec.ofNat 16 x, ay := BitVec.ofNat 16 y }

/-- ARG0 := (x, y) and ARG1 := (w, h). -/
def blk (x y w h : Nat) (s : State) : State :=
  { at0 x y s with aw := BitVec.ofNat 16 w, ah := BitVec.ofNat 16 h }

/-- RMIN and RMAX. -/
def rng (a b : Pixel) (s : State) : State := { s with rmin := a, rmax := b }

/-- OUT empty, with a capacity. -/
def room (n : Nat) (s : State) : State := { s with out := ⟨[], n⟩ }

/-- IN at its start. -/
def feed (bs : List Byte) (s : State) : State := { s with inp := ⟨bs, 0⟩ }

/-- The next state of an outcome. -/
def next? (o : Host.Outcome State Fault Refusal) : Option State :=
  match o with
  | .next t => some t
  | .fault _ => none
  | .refused _ => none

/-- What a command leaves, seen through a function. -/
def after {α : Type} (i : Instr) (s : State) (f : State → α) : Option α := (next? (exec i s)).map f

/-- The words of STATUS, as numbers. -/
def status (s : State) : Nat := s.statusWord.toNat

/-- The state after the host's next move, seen through a function. -/
def stepped {α : Type} (s : State) (f : State → α) : Option α := (next? (step s)).map f

def black : Pixel := px 0 0 0
def grey : Pixel := px 100 100 100
def white : Pixel := px 255 255 255

/-- The block of spec/95_test_vectors.md 2.3: B4, 2 by 2. -/
def b4 : List Pixel := [px 10 200 30, px 50 20 90, px 0 100 255, px 30 40 50]

/-- A block of two rows at the image's origin, as the block argument. -/
def estim (w h : Nat) (ps : List Pixel) : State := blk 0 0 w h (paint w ps (cfgd 2 16 16 16 16))

/-- The pixels of one quadrant pattern (MS3's first block): K, G, G, W, in 2 by 2 macroblocks. -/
def quad : State := room 16 (paint 2 [black, grey, grey, white] (cfgd 2 2 2 16 16))

/-! ### Well-formedness -/

theorem test_wf_dequantize : (Instr.dequantize 65536).wf = false ∧ (Instr.dequantize 65535).wf = true := by decide
theorem test_wf_dequantizeSt : (Instr.dequantizeSt 65536).wf = false ∧ (Instr.dequantizeSt 65535).wf = true := by decide
theorem test_wf_packIdx : (Instr.packIdx 65536).wf = false ∧ (Instr.packIdx 65535).wf = true := by decide
theorem test_wf_sizetabWrite : (Instr.sizetabWrite 65536).wf = false ∧ (Instr.sizetabWrite 65535).wf = true := by decide

/-! ### Decoding: words from R100 and R102, `IMM[31:16] RSV[15:8] OPC[7:0]` -/

theorem test_decode_nop : decode 0b0000000000000000_00000000_00000000#32 = .ok .nop := by decide
theorem test_decode_rangeMinmax : decode 0b0000000000000000_00000000_00000001#32 = .ok .rangeMinmax := by decide
theorem test_decode_rangeLinear : decode 0b0000000000000000_00000000_00000010#32 = .ok .rangeLinear := by decide
theorem test_decode_rangeRegress : decode 0b0000000000000000_00000000_00000011#32 = .ok .rangeRegress := by decide
theorem test_decode_quantize : decode 0b0000000000000000_00000000_00010000#32 = .ok .quantize := by decide
theorem test_decode_dequantize : decode 0b1000000000000001_00000000_00010001#32 = .ok (.dequantize 32769) := by decide
theorem test_decode_dequantizeSt :
    decode 0b1111111111111111_00000000_00010010#32 = .ok (.dequantizeSt 65535) := by decide
theorem test_decode_packCtrl : decode 0b0000000000000000_00000000_00100000#32 = .ok .packCtrl := by decide
theorem test_decode_unpackCtrl : decode 0b0000000000000000_00000000_00100001#32 = .ok .unpackCtrl := by decide
theorem test_decode_packIdx : decode 0b0000000000000011_00000000_00100010#32 = .ok (.packIdx 3) := by decide
theorem test_decode_packFlush : decode 0b0000000000000000_00000000_00100011#32 = .ok .packFlush := by decide
theorem test_decode_unpackIdx : decode 0b0000000000000000_00000000_00100100#32 = .ok .unpackIdx := by decide
theorem test_decode_unpackAlign : decode 0b0000000000000000_00000000_00100101#32 = .ok .unpackAlign := by decide
theorem test_decode_sizetabClear : decode 0b0000000000000000_00000000_00110000#32 = .ok .sizetabClear := by decide
theorem test_decode_sizetabWrite : decode 0b0000000000000010_00000000_00110001#32 = .ok (.sizetabWrite 2) := by decide
theorem test_decode_sizetabRead : decode 0b0000000000000000_00000000_00110010#32 = .ok .sizetabRead := by decide
theorem test_decode_sizetabLoad : decode 0b0000000000000000_00000000_00110011#32 = .ok .sizetabLoad := by decide
theorem test_decode_selectMb : decode 0b0000000000000000_00000000_01000000#32 = .ok .selectMb := by decide
theorem test_decode_decodeMb : decode 0b0000000000000000_00000000_01000001#32 = .ok .decodeMb := by decide
theorem test_decode_clearErr : decode 0b0000000000000000_00000000_11110000#32 = .ok .clearErr := by decide

/-- DC1, DC2, DC3 of the vectors, and a CLEAR_ERR with an immediate (R231). -/
theorem test_decode_illegal :
    decode 0x00000004#32 = .error .unknownOpcode ∧ decode 0x00000110#32 = .error .reservedNonzero ∧
    decode 0x00010010#32 = .error .immediateNonzero ∧ decode 0x000100F0#32 = .error .immediateNonzero := by decide

/-- The words of programs P1 and P2. -/
theorem test_encode :
    encode .selectMb = 0x00000040#32 ∧ encode (.sizetabWrite 3) = 0x00030031#32 ∧
    encode (.packIdx 1) = 0x00010022#32 ∧ encode .clearErr = 0x000000F0#32 := by decide

theorem test_asm : (Instr.packIdx 3).asm = "PACK_IDX #3" ∧ Instr.selectMb.asm = "SELECT_MB" := by decide

/-! ### Configuration check: CF1-CF13 -/

theorem test_configCheck_order :
    configCheck State.reset = some .invalidArgument ∧
    configCheck (cfgd 3 16 16 16 16) = some .invalidArgument ∧
    configCheck { cfgd 2 16 16 16 16 with qcb := 8 } = some .invalidResource ∧
    configCheck (cfgd 2 12 12 48 48) = some .invalidArgument ∧
    configCheck (cfgd 2 32 32 64 64) = some .invalidArgument ∧
    configCheck (cfgd 2 1 16 16 16) = some .invalidArgument ∧
    configCheck (cfgd 2 16 16 0 16) = some .invalidArgument ∧
    configCheck (cfgd 2 16 16 24 16) = some .invalidResource := by decide

/-- CF9 and CF10 have MAX_BLOCK_DIM = 64. -/
theorem test_configCheck_sizes :
    configCheck { cfgd 2 64 64 32 32 with params := { Config.Params.default with maxBlockDim := 64 } }
      = some .invalidResource ∧
    configCheck { cfgd 2 32 32 48 48 with params := { Config.Params.default with maxBlockDim := 64 } }
      = some .invalidResource ∧
    configCheck (cfgd 2 16 16 256 256) = some .outOfMemory ∧
    configCheck (cfgd 2 2 2 128 64) = some .outOfMemory ∧
    configCheck (cfgd 2 2 2 64 64) = none := by decide

/-! ### Commands -/

/-- CF14. -/
theorem test_nop : after .nop State.reset status = some 0 := by decide

/-- 2.9: CLEAR_ERR with STATUS = 0x2103; it needs no configuration. -/
theorem test_clearErr :
    after .clearErr { State.reset with errCode := some .executionFailure, errOp := 0x21 } status = some 0 := by decide

/-- RE1. -/
theorem test_rangeMinmax :
    after .rangeMinmax (estim 2 2 b4) (fun t => chans t.rmin ++ chans t.rmax) = some [0, 20, 30, 50, 200, 255] := by
  decide

/-- RE15 and RE17: the block leaves the image; it is too wide. -/
theorem test_rangeMinmax_block :
    after .rangeMinmax { blk 15 0 2 1 (cfgd 2 16 16 16 16) with cmd := 0x01 } status = some 0x0101 ∧
    after .rangeMinmax { blk 0 0 17 1 (cfgd 2 16 16 32 16) with cmd := 0x01 } status = some 0x0101 := by decide

/-- RE4: the pair (0, 2). -/
theorem test_rangeLinear :
    after .rangeLinear (estim 2 2 b4) (fun t => chans t.rmin ++ chans t.rmax) = some [10, 200, 30, 0, 100, 255] := by
  decide +kernel

/-- RE5 and RE6: the tie, and the swap. -/
theorem test_rangeLinear_order :
    after .rangeLinear (estim 3 1 [black, px 10 0 0, px 0 10 0]) (fun t => chans t.rmin ++ chans t.rmax)
      = some [10, 0, 0, 0, 10, 0] ∧
    after .rangeLinear (estim 2 1 [px 200 200 200, black]) (fun t => chans t.rmin ++ chans t.rmax)
      = some [0, 0, 0, 200, 200, 200] := by decide +kernel

/-- RE11: the fitted G is clamped, and the (G, B) line is evaluated at the unclamped value. -/
theorem test_rangeRegress :
    after .rangeRegress (estim 4 1 [black, px 10 0 100, px 20 30 250, px 30 30 0])
      (fun t => chans t.rmin ++ chans t.rmax) = some [0, 0, 42, 30, 33, 132] := by
  decide +kernel

/-- RE12: every c0 equal. -/
theorem test_rangeRegress_constant :
    after .rangeRegress { estim 2 1 [px 5 0 0, px 5 9 9] with cmd := 0x03 }
      (fun t => status t :: chans t.rmin ++ chans t.rmax) = some [0x0302, 0, 0, 0, 0, 0, 0] := by
  decide +kernel

/-- V-Q1: the pixel, its index and its error. -/
theorem test_quantize :
    after .quantize (rng black white (paint 1 [grey] (cfgd 2 16 16 16 16)))
      (fun t => t.resIdx.toNat :: t.resErr.toNat :: chans t.resPix) = some [1, 675, 85, 85, 85] := by decide

/-- V-Q6 (clamped), and V-Q14 (outside the image). -/
theorem test_quantize_edges :
    after .quantize (rng grey (px 110 100 100) (paint 1 [black] (cfgd 2 16 16 16 16)))
      (fun t => t.resIdx.toNat :: t.resErr.toNat :: chans t.resPix) = some [3, 31881, 109, 100, 100] ∧
    after .quantize { at0 16 0 (cfgd 2 16 16 16 16) with cmd := 0x10 } status = some 0x1001 := by decide

/-- spec/93_implementation_defined.md I3 and 2.4: the three arithmetics. -/
theorem test_qindex_modes :
    let k := fun (m : Config.QuantArith) (stepCount : Nat) (mx p : Pixel) => qindex m stepCount ⟨black, mx⟩ p
    let all := fun (stepCount : Nat) (mx p : Pixel) =>
      [k .real stepCount mx p, k .f64 stepCount mx p, k .f32 stepCount mx p]
    all 3 (px 3 3 3) (px 1 1 1) = [1, 0, 1] ∧ all 15 (px 1 0 0) (px 1 0 0) = [15, 15, 14] ∧
    all 15 (px 1 1 0) (px 1 1 0) = [15, 14, 14] ∧ all 255 (px 1 0 0) (px 1 0 0) = [255, 255, 254] ∧
    all 255 (px 1 1 1) (px 1 1 1) = [255, 254, 255] ∧ all 255 (px 1 11 30) (px 1 22 23) = [253, 253, 254] ∧
    all 3 (px 2 2 2) (px 1 1 1) = [1, 1, 1] := by decide +kernel

/-- V-D1 and V-D6: a falling channel truncates toward zero. -/
theorem test_dequantize :
    after (.dequantize 2) (rng (px 10 200 30) (px 0 100 255) (cfgd 2 16 16 16 16)) (fun t => chans t.resPix)
      = some [4, 134, 180] ∧
    after (.dequantize 1) (rng white black (cfgd 2 16 16 16 16)) (fun t => chans t.resPix)
      = some [170, 170, 170] := by decide

/-- V-D7. -/
theorem test_dequantize_index :
    after (.dequantize 4) { cfgd 2 16 16 16 16 with cmd := 0x00040011 } status = some 0x1101 := by decide

/-- V-D8: PIXMEM[0..2] = 01 65 FF. -/
theorem test_dequantizeSt :
    after (.dequantizeSt 3) (rng (px 10 200 30) (px 0 100 255) (cfgd 2 16 16 16 16))
      (fun t => [t.pixByte 0, t.pixByte 1, t.pixByte 2]) = some [0x01, 0x65, 0xFF] := by decide

/-- V-D9: the index check comes first; no byte is stored. -/
theorem test_dequantizeSt_index :
    after (.dequantizeSt 4) { at0 16 0 (cfgd 2 16 16 16 16) with cmd := 0x00040012 } (fun t => (status t, t.pixmem))
      = some (0x1201, []) := by decide

/-- V-C12: the pending byte first. -/
theorem test_packCtrl :
    after .packCtrl { room 8 (rng black white (cfgd 2 16 16 16 16)) with pacc := 0x03, pfill := 2 }
      (fun t => (t.out.bytes, t.pkstateWord)) = some ([0x03, 0, 0, 0xFF, 0xFF], 0) := by decide

/-- V-C13 with V-C11's range: the first two of 41 1E 20 FB fit. -/
theorem test_packCtrl_short :
    after .packCtrl { room 2 (rng (px 10 200 30) (px 0 100 255) (cfgd 2 16 16 16 16)) with cmd := 0x20 }
      (fun t => (t.out.bytes, status t)) = some ([0x41, 0x1E], 0x2003) := by decide

/-- V-C14. -/
theorem test_unpackCtrl :
    after .unpackCtrl (feed [0, 0, 0xFF, 0xFF] (cfgd 2 16 16 16 16)) (fun t => chans t.rmin ++ chans t.rmax)
      = some [0, 0, 0, 248, 252, 248] := by decide

/-- V-C15. -/
theorem test_unpackCtrl_short :
    after .unpackCtrl { feed [1, 2, 3] (cfgd 2 16 16 16 16) with cmd := 0x21 }
      (fun t => status t :: t.inp.cur :: chans t.rmax) = some [0x2103, 3, 0, 0, 0] := by decide

/-- P4: PACK_IDX #0 after #1 #2 #3 emits 39; V-I6: three codes pending. -/
theorem test_packIdx :
    after (.packIdx 0) { room 8 (cfgd 2 16 16 16 16) with pacc := 0x39, pfill := 6 }
      (fun t => (t.out.bytes, t.pkstateWord)) = some ([0x39], 0) ∧
    after (.packIdx 3) { room 8 (cfgd 2 16 16 16 16) with pacc := 0x0F, pfill := 4 }
      (fun t => (t.out.bytes, t.pkstateWord)) = some ([], 0x0000063F) := by decide

/-- V-I10: the byte is lost; DC4: the index above S. -/
theorem test_packIdx_errors :
    after (.packIdx 0) { cfgd 2 16 16 16 16 with pacc := 0x39, pfill := 6, cmd := 0x22 }
      (fun t => (t.pkstateWord, status t)) = some (0, 0x2203) ∧
    after (.packIdx 4) { cfgd 2 16 16 16 16 with cmd := 0x00040022 } (fun t => (t.pkstateWord, status t))
      = some (0, 0x2201) := by decide

/-- V-I7 and V-I8. -/
theorem test_packFlush :
    after .packFlush { room 8 (cfgd 2 16 16 16 16) with pacc := 0x3F, pfill := 6 }
      (fun t => (t.out.bytes, t.pkstateWord)) = some ([0x3F], 0) ∧
    after .packFlush (room 8 (cfgd 2 16 16 16 16)) (fun t => (t.out.bytes, t.pkstateWord)) = some ([], 0) := by decide

/-- V-U2: the last of the bits, and one bit of a new byte. -/
theorem test_unpackIdx :
    after .unpackIdx (feed [0x39] (cfgd 2 16 16 16 16)) (fun t => [t.resIdx.toNat, t.inp.cur, t.pkstateWord.toNat])
      = some [1, 1, 0x060E0000] ∧
    after .unpackIdx { cfgd 1 16 16 16 16 with inp := ⟨[0x0D, 0xFF], 1⟩ }
      (fun t => [t.resIdx.toNat, t.inp.cur, t.pkstateWord.toNat]) = some [1, 2, 0x077F0000] := by decide

/-- V-U5. -/
theorem test_unpackIdx_empty :
    after .unpackIdx { cfgd 2 16 16 16 16 with cmd := 0x24 } (fun t => (t.pkstateWord, status t)) = some (0, 0x2403) := by
  decide

/-- P4: PKSTATE 0x06000000 goes to 0. -/
theorem test_unpackAlign :
    after .unpackAlign { cfgd 2 16 16 16 16 with uavail := 6 } State.pkstateWord = some 0 := by decide

/-- V-T11: only T bytes. -/
theorem test_sizetabClear :
    after .sizetabClear { cfgd 2 16 16 32 32 with tab := [(0, 0xFF), (1, 0x55)] } (fun t => [t.tabByte 0, t.tabByte 1])
      = some [0, 0x55] := by decide

/-- V-T2 and V-T3 together: a field is cleared before it is set. -/
theorem test_sizetabWrite :
    after (.sizetabWrite 1) (at0 1 1 { cfgd 2 16 16 32 32 with tab := [(0, 0x02)] }) (fun t => t.tabByte 0)
      = some 0x42 ∧
    after (.sizetabWrite 0) (at0 1 1 { cfgd 2 16 16 32 32 with tab := [(0, 0x42)] }) (fun t => t.tabByte 0)
      = some 0x02 := by decide

/-- DC5, and V-T6's field. -/
theorem test_sizetabWrite_code :
    after (.sizetabWrite 3) { cfgd 2 16 16 16 16 with cmd := 0x00030031 } (fun t => (status t, t.tab))
      = some (0x3101, []) ∧
    after (.sizetabWrite 2) (at0 5 0 { cfgd 2 4 4 32 32 with tab := [(1, 0)] }) (fun t => t.tabByte 1)
      = some 0x08 := by decide

/-- V-T8 and V-T9. -/
theorem test_sizetabRead :
    after .sizetabRead (at0 1 1 { cfgd 2 16 16 32 32 with tab := [(0, 0xC0)] }) (fun t => t.resIdx) = some 3 ∧
    after .sizetabRead { at0 2 0 (cfgd 2 16 16 32 32) with cmd := 0x32 } status = some 0x3201 := by decide

/-- V-T10. -/
theorem test_sizetabLoad :
    after .sizetabLoad (feed [0x02, 0xAA] (cfgd 2 16 16 32 32)) (fun t => (t.tabByte 0, t.inp.cur)) = some (0x02, 1) := by
  decide

/-- S4: a truncated table. -/
theorem test_sizetabLoad_short :
    after .sizetabLoad { feed [1, 2, 0, 0, 1] (cfgd 2 4 4 32 32) with cmd := 0x33 }
      (fun t => (status t, t.inp.cur, t.tab)) = some (0x3303, 5, [(0, 1), (1, 2), (2, 0), (3, 0), (4, 1)]) := by decide

/-- P5's SELECT_MB: the record, the code, the sums. -/
theorem test_selectMb :
    after .selectMb { quad with tab := [(0, 0)] }
      (fun t => (t.out.bytes, [t.resIdx.toNat, t.resErr.toNat, t.errAcc0.toNat, t.errAcc2.toNat], t.tabByte 0))
      = some ([0, 0, 0xFF, 0xFF, 0xD4], [2, 1350, 1350, 1350], 0x02) := by decide

/-- MS5 and MS6: an error sum at the threshold selects shift 0, one above it shift 2. -/
theorem test_selectMb_threshold :
    after .selectMb (room 16 (paint 2 [black, px 16 0 0, black, px 51 0 0] (cfgd 2 2 2 16 16)))
      (fun t => [t.resIdx.toNat, t.errAcc0.toNat]) = some [0, 256] ∧
    after .selectMb (room 16 (paint 2 [black, px 16 0 0, black, px 49 0 0] (cfgd 2 2 2 16 16)))
      (fun t => [t.resIdx.toNat, t.errAcc0.toNat]) = some [2, 257] := by decide

/-- R170 written out for a macroblock of 8 by 4 pixels at (16, 8), shift 1: my outer, mx inner. -/
theorem test_micro_rowMajor :
    (cfgd 2 8 4 32 16).micro ⟨16, 8, 10⟩ 1 =
      [⟨16, 8, 4, 2⟩, ⟨20, 8, 4, 2⟩, ⟨16, 10, 4, 2⟩, ⟨20, 10, 4, 2⟩] := by decide

/-- DM1. -/
theorem test_decodeMb :
    after .decodeMb (feed [0xAC, 0xCC, 0xAC, 0xCC, 0] { cfgd 2 2 2 16 16 with tab := [(0, 0)] })
      (fun t => (t.resIdx.toNat :: t.inp.cur :: chans (t.pix 0 0), [t.pix 1 0, t.pix 0 1, t.pix 1 1]))
      = some ([0, 5, 96, 148, 200], [px 96 148 200, px 96 148 200, px 96 148 200]) := by decide

/-- DM3, and a record cut short in its index bytes: no pixel is written (R178). -/
theorem test_decodeMb_errors :
    after .decodeMb { cfgd 2 4 4 16 16 with tab := [(0, 3)], cmd := 0x41 } (fun t => (status t, t.pixmem))
      = some (0x4102, []) ∧
    after .decodeMb { feed [0xAC, 0xCC, 0xAC, 0xCC] (cfgd 2 2 2 16 16) with tab := [(0, 0)], cmd := 0x41 }
      (fun t => (status t, t.inp.cur, t.pixmem)) = some (0x4103, 4, []) := by decide

/-! ### Steps -/

/-- A discarded command leaves only its word (R246); CLEAR_ERR is not discarded. -/
theorem test_step_discard :
    stepped { cfgd 2 16 16 16 16 with errCode := some .executionFailure, errOp := 0x21, pending := [.write 0 0x20] }
      (fun t => (t.cmd, status t)) = some (0x20, 0x2103) ∧
    stepped { cfgd 2 16 16 16 16 with errCode := some .executionFailure, errOp := 0x21, pending := [.write 0 0xF0] }
      (fun t => (t.cmd, status t)) = some (0xF0, 0) := by decide

/-- The first command after reset: the configuration check fails (CF1); withFetchWord places it. -/
theorem test_step_withFetchWord :
    stepped (State.reset.withFetchWord 32 0x00000001) (fun t => (t.cmd, status t)) = some (0x01, 0x0101) ∧
    decodeTableWord 32 0x00020031 = some (.sizetabWrite 2) ∧ decodeTableWord 32 0x00000110 = none := by decide

/-- A register write and read through the window (R31): bits 31:24 of RMIN are reserved. -/
theorem test_step_window :
    stepped { State.reset with pending := [.write 0x1C 0xFF123456] } (fun t => t.rmin.toWord) = some 0x00123456 ∧
    stepped { State.reset with cmd := 0x30, pending := [.read 0x00] } (fun t => t.reads) = some [.word 0x30] := by
  decide

/-- `cfg 2, 16, 16, 32, 32` of program P2, by its words. -/
theorem test_cfg_expansion :
    HostProgram.cfg 0 2 16 16 32 32 =
      [.write 0x08 0x00001002, .write 0x0C 0x00100010, .write 0x10 0x00200020] := by decide

/-! ### Witnesses: states and operands that meet the hypotheses of the statements -/

/-- A configured core: QSB = 2, macroblocks and image 16 by 16. -/
def core16 : State := cfgd 2 16 16 16 16

/-- A configured core with an error recorded. -/
def failed : State := { core16 with errCode := some .executionFailure, errOp := 0x21 }

/-- A host write to CMD as the next move. -/
def writing (w : Word) (s : State) : State := { s with pending := [.write 0 w] }

/-- A host move as the next one. -/
def moving (op : HostOp) (s : State) : State := { s with pending := [op] }

/-- Three macroblocks in a row, 16 by 16 each; T = 1. -/
def row3 : State := cfgd 2 16 16 48 16

/-- A uniform macroblock of 2 by 2 pixels, and room for its record. -/
def plain : State := room 5 (paint 2 [grey, grey, grey, grey] (cfgd 2 2 2 16 16))

theorem witness_DecodeAndEncodeAgree :
    (Instr.packIdx 0).wf = true ∧ (Instr.packIdx 65535).wf = true ∧ Instr.clearErr.wf = true ∧
    decode 0xFFFF0022#32 = .ok (.packIdx 65535) := by decide

theorem witness_IllegalWordRaisesInvalidArgument :
    (writesCmd (writing 0x04 core16) 0x04 [] ∧ (writing 0x04 core16).errCode = none ∧ illegalWord 0x04) ∧
    (writesCmd (writing 0x110 core16) 0x110 [] ∧ illegalWord 0x110) ∧
    (writesCmd (writing 0x10010 core16) 0x10010 [] ∧ illegalWord 0x10010) ∧ ¬ illegalWord 0x10011 := by decide

theorem witness_StepRunsTheDecodedCommand :
    (writesCmd (writing 0x03 core16) 0x03 [] ∧ decode 0x03 = .ok .rangeRegress ∧ (writing 0x03 core16).errCode = none) ∧
    (writesCmd (writing 0xF0 failed) 0xF0 [] ∧ decode 0xF0 = .ok .clearErr ∧ (0xF0#32).toNat % 256 = 0xF0) ∧
    State.reset.pending = [] := by decide

theorem witness_ErrorDiscardsCommands :
    (writesCmd (writing 0x20 failed) 0x20 [] ∧ (writing 0x20 failed).errCode ≠ none ∧ (0x20#32).toNat % 256 ≠ 0xF0) ∧
    (stepped (writing 0x20 failed) (fun t => t.errCode) = some (some .executionFailure)) ∧
    (stepped (writing 0xF0 failed) (fun t => t.errCode) = some none) ∧
    (stepped (moving .reset failed) (fun t => t.errCode) = some none) := by decide

theorem witness_StepStopsOnlyOnHostErrors :
    step (moving (.pixRead 65536) core16) = .fault (.pixmemAbsent 65536) ∧
    step (moving (.pixWrite 65536 0) core16) = .fault (.pixmemAbsent 65536) ∧
    step (moving (.tabRead 256) core16) = .fault (.tabAbsent 256) ∧
    step (moving (.tabWrite 256 0) core16) = .fault (.tabAbsent 256) ∧
    step (moving (.read 256) core16) = .refused (.outsideWindow 256) ∧
    step (moving (.write 2 0) core16) = .refused (.windowMisaligned 2) ∧
    step (moving (.outAttach ⟨[0], 0⟩) core16) = .refused .illFormedStream ∧
    step (moving (.inAttach ⟨[], 1⟩) core16) = .refused .illFormedStream ∧
    step { moving .outRead core16 with busy := true } = .refused .accessWhileBusy :=
  ⟨rfl, rfl, rfl, rfl, rfl, rfl, rfl, rfl, rfl⟩

theorem witness_EveryCommandCompletes : writesCmd (writing 0xFFFFFFFF failed) 0xFFFFFFFF [] := by decide

theorem witness_ResetLeavesRegistersZero :
    (moving .reset failed).busy = false ∧ (moving .reset failed).pending = [.reset] ∧
    (moving .reset failed).qsb ≠ 0 := by decide

theorem witness_ResetKeepsMemoriesAndStreams :
    (moving .reset quad).pending = [.reset] ∧ (next? (step (moving .reset quad))).isSome = true ∧
    (moving .reset quad).out ≠ ⟨[], 0⟩ ∧ (moving .reset quad).pixmem ≠ [] := by decide

theorem witness_UnconfiguredCoreRefusesCommands :
    writesCmd (writing 0x00020031 State.reset) 0x00020031 [] ∧ (writing 0x00020031 State.reset).errCode = none ∧
    (writing 0x00020031 State.reset).qsb = 0 ∧ decode 0x00020031 = .ok (.sizetabWrite 2) ∧
    Instr.sizetabWrite 2 ≠ .nop ∧ Instr.sizetabWrite 2 ≠ .clearErr := by decide

theorem witness_WindowReadsBackWrites :
    core16.busy = false ∧ (∀ off ∈ [0x00, 0x04, 0x08, 0x0C, 0x10, 0x14, 0x18, 0x1C, 0x20, 0x24, 0x3C, 0x40, 0xFC],
      off < 256 ∧ off % 4 = 0 ∧
      (moving (.read (core16.params.coreBase + off)) core16).pending = [.read (core16.params.coreBase + off)] ∧
      (next? (step (moving (.read off) core16))).isSome = true ∧
      (next? (step (moving (.write off 0xFFFFFFFF) core16))).isSome = true) := by decide

theorem witness_Cfg0WriteEmptiesPackers :
    core16.busy = false ∧
    (moving (.write (core16.params.coreBase + 0x08) 0xFFFF) core16).pending =
      [.write (core16.params.coreBase + 0x08) 0xFFFF] := by decide

theorem witness_HostReachesEveryByte :
    core16.busy = false ∧ 0 < core16.params.pixmemCap ∧ 65535 < core16.params.pixmemCap ∧
    0 < core16.params.sizetabCap ∧ 255 < core16.params.sizetabCap ∧
    (moving (.pixWrite 65535 1) core16).pending = [.pixWrite 65535 1] ∧
    (moving (.pixRead 0) core16).pending = [.pixRead 0] ∧
    (moving (.tabWrite 255 1) core16).pending = [.tabWrite 255 1] ∧
    (moving (.tabRead 0) core16).pending = [.tabRead 0] ∧
    ((⟨[7, 8], 2⟩ : OutStream).bytes.length ≤ (⟨[7, 8], 2⟩ : OutStream).cap ∧
      (moving (.outAttach ⟨[7, 8], 2⟩) core16).pending = [.outAttach ⟨[7, 8], 2⟩]) ∧
    ((⟨[7, 8], 2⟩ : InStream).cur ≤ (⟨[7, 8], 2⟩ : InStream).bytes.length ∧
      (moving (.inAttach ⟨[7, 8], 2⟩) core16).pending = [.inAttach ⟨[7, 8], 2⟩]) ∧
    (moving .outRead core16).pending = [.outRead] ∧ (moving .inRead core16).pending = [.inRead] := by decide

theorem witness_ConfigCheckIsTheNineChecksInOrder :
    configCheck State.reset = some .invalidArgument ∧ State.reset.errCode = none ∧
    configCheck { failed with qcb := 8 } = some .invalidResource ∧ { failed with qcb := 8 }.errCode ≠ none := by decide

theorem witness_FirstErrorIsKept :
    (failed.errCode ≠ none ∧ after .packFlush failed (fun t => t.errCode) = some (some .executionFailure)) ∧
    (core16.errCode = none ∧ after .unpackIdx core16 (fun t => t.errCode) = some (some .executionFailure)) ∧
    (core16.errCode = none ∧ after .packFlush core16 (fun t => t.errCode) = some none) := by decide

theorem witness_CommandsRaiseOnlyListedErrors :
    configCheck core16 = none ∧ core16.errCode = none ∧
    after .unpackIdx core16 (fun t => t.errCode) = some (some .executionFailure) ∧
    after .rangeMinmax core16 (fun t => t.errCode) = some (some .invalidArgument) ∧
    after .decodeMb { core16 with tab := [(0, 3)] } (fun t => t.errCode) = some (some .invalidResource) := by decide

theorem witness_NopAndClearErr :
    (writesCmd (writing 0x100F0 failed) 0x100F0 [] ∧ (writing 0x100F0 failed).errCode ≠ none ∧
      (0x100F0#32).toNat % 256 = 0xF0 ∧ (0x100F0#32) ≠ 0xF0#32) ∧
    (writesCmd (writing 0x100 core16) 0x100 [] ∧ (writing 0x100 core16).errCode = none ∧
      (0x100#32).toNat % 256 = 0x00 ∧ (0x100#32) ≠ 0x00#32) := by decide

theorem witness_PixelAddressesAndRasterOrder :
    configCheck core16 = none ∧ 15 < core16.iw.toNat ∧ 15 < core16.ih.toNat ∧ 0 < core16.iw.toNat := by decide

/-- A block of size 0, one over MAX_BLOCK_DIM, and one past the image's edge. -/
theorem witness_RangeCommandsCheckTheirBlock :
    (configCheck (blk 0 0 0 1 core16) = none ∧ ¬ blockOk (blk 0 0 0 1 core16)) ∧
    (configCheck (blk 0 0 17 1 row3) = none ∧ ¬ blockOk (blk 0 0 17 1 row3)) ∧
    (configCheck (blk 15 0 2 1 core16) = none ∧ ¬ blockOk (blk 15 0 2 1 core16)) := by decide

/-- The largest block, and the smallest in the last corner. -/
theorem witness_RangeMinmaxWritesTheBounds :
    configCheck (blk 0 0 16 16 core16) = none ∧ blockOk (blk 0 0 16 16 core16) ∧
    configCheck (blk 15 15 1 1 core16) = none ∧ blockOk (blk 15 15 1 1 core16) := by decide

theorem witness_MinmaxRangeBoundsItsBlock : px 0 100 255 ∈ b4 ∧ grey ∈ [grey] := by decide

theorem witness_RangeLinearTakesTheFirstFarthestPair :
    configCheck (estim 2 2 b4) = none ∧ blockOk (estim 2 2 b4) := by decide

theorem witness_RangeRegressFitsTwoLines :
    (configCheck (estim 2 2 b4) = none ∧ blockOk (estim 2 2 b4) ∧
      fitDen (argBlock (estim 2 2 b4)) Pixel.c0 ≠ 0 ∧ fitDen (argBlock (estim 2 2 b4)) Pixel.c1 ≠ 0) ∧
    (blockOk (estim 2 1 [px 5 0 0, px 5 9 9]) ∧
      fitDen (argBlock (estim 2 1 [px 5 0 0, px 5 9 9])) Pixel.c0 = 0) := by
  decide +kernel

theorem witness_RegressFailsExactlyOnConstantChannels :
    configCheck (estim 2 1 [px 0 7 0, px 9 7 9]) = none ∧ blockOk (estim 2 1 [px 0 7 0, px 9 7 9]) ∧
    (estim 2 1 [px 0 7 0, px 9 7 9]).errCode = none ∧
    after .rangeRegress (estim 2 1 [px 0 7 0, px 9 7 9]) (fun t => t.errCode) = some (some .invalidResource) := by
  decide +kernel

/-- A pixel outside, one in the last corner, a range of length 0, a pixel equal to RMIN. -/
theorem witness_QuantizeWritesIndexPixelAndError :
    (configCheck (at0 16 0 core16) = none ∧ ¬ pixelOk (at0 16 0 core16)) ∧
    (configCheck (at0 15 15 core16) = none ∧ pixelOk (at0 15 15 core16)) ∧
    sq (rng grey grey core16).rmax (rng grey grey core16).rmin = 0 ∧
    sq ((paint 1 [grey] core16).pix 0 0) (rng grey white core16).rmin = 0 ∧
    core16.params.quantArith = .real ∧ sq (rng grey white core16).rmax (rng grey white core16).rmin ≠ 0 := by decide

theorem witness_FloatSqrtIsNearest :
    ((24 = 24 ∨ 24 = 53) ∧ 0 < 1 ∧ 1 ≤ 195075) ∧ ((53 = 24 ∨ 53 = 53) ∧ 0 < 195075 ∧ 195075 ≤ 195075) ∧
    sqrtRnd 24 3 = ⟨14529495, 2 ^ 23⟩ := by decide +kernel

theorem witness_FloatQuotientIsNearestEven : 0 < 24 ∧ 0 < 1 ∧ divRnd 24 1 3 = ⟨11184811, 2 ^ 25⟩ := by decide +kernel

theorem witness_DequantizeReconstructs :
    configCheck core16 = none ∧ 2 ^ core16.qsb.toNat - 1 < 4 ∧ 3 ≤ 2 ^ core16.qsb.toNat - 1 := by decide

theorem witness_DequantizeStStoresThreeBytes :
    (configCheck (at0 15 15 core16) = none ∧ 3 ≤ 2 ^ core16.qsb.toNat - 1 ∧ pixelOk (at0 15 15 core16)) ∧
    ¬ pixelOk (at0 0 16 core16) ∧ 2 ^ core16.qsb.toNat - 1 < 4 := by decide

/-- With a pending byte and room for exactly five bytes, and for four. -/
theorem witness_PackCtrlAppendsControlBytes :
    let s := { room 5 core16 with pacc := 0x03, pfill := 2 }
    let u := { room 4 core16 with pacc := 0x03, pfill := 2 }
    configCheck s = none ∧ s.packerOk ∧ outRoom s (pendingByte s ++ controlBytes s.rmin s.rmax).length ∧
    configCheck u = none ∧ u.packerOk ∧ ¬ outRoom u (pendingByte u ++ controlBytes u.rmin u.rmax).length := by decide

theorem witness_UnpackCtrlReadsTheRange :
    configCheck (feed [1, 2, 3, 4] core16) = none ∧
    (feed [1, 2, 3, 4] core16).inp.cur + 4 ≤ (feed [1, 2, 3, 4] core16).inp.bytes.length ∧
    (feed [1, 2, 3] core16).inp.bytes.length < (feed [1, 2, 3] core16).inp.cur + 4 := by decide

theorem witness_PackIdxFillsTheByte :
    let s := { core16 with pacc := 0x0F, pfill := 4 }
    let u := { room 1 core16 with pacc := 0x3F, pfill := 6 }
    let v := { core16 with pacc := 0x3F, pfill := 6 }
    (configCheck s = none ∧ s.packerOk ∧ 2 ^ s.qsb.toNat - 1 < 4 ∧ 3 ≤ 2 ^ s.qsb.toNat - 1 ∧
      s.pfill.toNat + s.qsb.toNat < 8) ∧
    (configCheck u = none ∧ u.packerOk ∧ 8 ≤ u.pfill.toNat + u.qsb.toNat ∧ outRoom u 1) ∧
    (configCheck v = none ∧ v.packerOk ∧ 8 ≤ v.pfill.toNat + v.qsb.toNat ∧ ¬ outRoom v 1) := by decide

theorem witness_PackFlushEmitsThePendingByte :
    let s := { room 1 core16 with pacc := 0x0F, pfill := 4 }
    let u := { core16 with pacc := 0x0F, pfill := 4 }
    configCheck s = none ∧ s.packerOk ∧ outRoom s (pendingByte s).length ∧
    configCheck u = none ∧ u.packerOk ∧ u.pfill.toNat ≠ 0 ∧ ¬ outRoom u 1 ∧
    core16.packerOk ∧ outRoom core16 (pendingByte core16).length := by decide

theorem witness_UnpackIdxTakesTheLowBits :
    let s := { core16 with uacc := 0x03, uavail := 2 }
    let u := feed [0x39] core16
    (configCheck s = none ∧ s.unpackerOk ∧ s.inp.cur ≤ s.inp.bytes.length ∧ s.uavail.toNat ≠ 0) ∧
    (configCheck u = none ∧ u.unpackerOk ∧ u.uavail.toNat = 0 ∧ u.inp.cur < u.inp.bytes.length) ∧
    (core16.unpackerOk ∧ core16.uavail.toNat = 0 ∧ core16.inp.cur = core16.inp.bytes.length) := by decide

/-- S7's lists. -/
theorem witness_IndexPackingInverts :
    (1 ∈ [1, 2, 4, 8] ∧ ∀ k ∈ [1, 0, 1, 1, 0, 0, 1, 1, 1], k ≤ 2 ^ 1 - 1) ∧
    (8 ∈ [1, 2, 4, 8] ∧ ∀ k ∈ [255, 1], k ≤ 2 ^ 8 - 1) ∧
    packIndices 1 [1, 0, 1, 1, 0, 0, 1, 1, 1] = [0xCD, 0x01] ∧ packIndices 4 [15, 0, 9] = [0x0F, 0x09] := by decide

theorem witness_PackCommandsWritePackedIndices :
    configCheck (room 2 core16) = none ∧ (room 2 core16).pacc = 0 ∧ (room 2 core16).pfill = 0 ∧
    (∀ k ∈ [1, 2, 3, 0, 3], k ≤ 2 ^ (room 2 core16).qsb.toNat - 1) ∧
    outRoom (room 2 core16) (packIndices (room 2 core16).qsb.toNat [1, 2, 3, 0, 3]).length := by decide

theorem witness_UnpackCommandsReadPackedIndices :
    let s := feed [0x39, 0x03] core16
    configCheck s = none ∧ s.uavail = 0 ∧ (∀ k ∈ [1, 2, 3, 0, 3], k ≤ 2 ^ s.qsb.toNat - 1) ∧
    packIndices s.qsb.toNat [1, 2, 3, 0, 3] <+: s.inp.bytes.drop s.inp.cur ∧ 4 < [1, 2, 3, 0, 3].length := by decide

theorem witness_SizetabClearZeroesTheTable : configCheck row3 = none ∧ tableLength row3 = 1 := by decide

theorem witness_SizetabWriteAndReadOneCode :
    (configCheck (at0 2 0 row3) = none ∧ macroblockOk (at0 2 0 row3)) ∧
    (configCheck (at0 3 0 row3) = none ∧ ¬ macroblockOk (at0 3 0 row3)) ∧ ¬ macroblockOk (at0 0 1 row3) := by decide

theorem witness_SizetabLoadReadsTheTable :
    let s := feed [2] row3
    configCheck s = none ∧ s.inp.cur ≤ s.inp.bytes.length ∧ s.inp.cur + tableLength s ≤ s.inp.bytes.length ∧
    configCheck row3 = none ∧ row3.inp.cur ≤ row3.inp.bytes.length ∧
    row3.inp.bytes.length < row3.inp.cur + tableLength row3 := by decide

/-- The three macroblocks of a 48 by 16 image, in another order than raster order. -/
theorem witness_TablePackingInverts :
    let order : List (Half × Half × Nat) := [(2, 0, 1), (0, 0, 2), (1, 0, 0)]
    configCheck row3 = none ∧
    (∀ o ∈ order, o.1.toNat < row3.mbw ∧ o.2.1.toNat < row3.mbh ∧ o.2.2 ≤ 2) ∧
    (order.map fun o => (o.1, o.2.1)).Nodup ∧
    (∀ col row : Half, col.toNat < row3.mbw → row.toNat < row3.mbh → ∃ code, (col, row, code) ∈ order) := by
  refine ⟨by decide, by decide, by decide, ?_⟩
  intro col row hc hr
  have hc' : col.toNat < 3 := hc
  have hr' : row.toNat < 1 := hr
  have h0 : row = 0 := BitVec.eq_of_toNat_eq (by simpa using hr')
  have h1 : col = 0 ∨ col = 1 ∨ col = 2 := by
    rcases (by omega : col.toNat = 0 ∨ col.toNat = 1 ∨ col.toNat = 2) with h | h | h
    · exact .inl (BitVec.eq_of_toNat_eq h)
    · exact .inr (.inl (BitVec.eq_of_toNat_eq h))
    · exact .inr (.inr (BitVec.eq_of_toNat_eq h))
  subst h0
  rcases h1 with rfl | rfl | rfl <;> simp

theorem witness_MicroblocksTileTheMacroblock :
    configCheck core16 = none ∧ (core16.micro ⟨0, 0, 0⟩ 2).length = 16 ∧
    (3 < core16.bw.toNat / max 2 (core16.bw.toNat / 2 ^ 2) ∧ 3 < core16.bh.toNat / max 2 (core16.bh.toNat / 2 ^ 2)) := by
  decide

theorem witness_SelectMbEncodesTheMacroblock :
    (configCheck (at0 8 0 quad) = none ∧ ¬ macroblockOk (at0 8 0 quad)) ∧
    (configCheck { room 0 quad with pacc := 3, pfill := 2 } = none ∧
      macroblockOk { room 0 quad with pacc := 3, pfill := 2 } ∧
      ¬ outRoom { room 0 quad with pacc := 3, pfill := 2 } 1) ∧
    (configCheck quad = none ∧ macroblockOk quad ∧ quad.packerOk) ∧
    (let s : State := { room 6 quad with pacc := 3, pfill := 2 };
      s.packerOk ∧ outRoom s (pendingByte s ++ (s.trial (argMacroblock s) 2).1).length) ∧
    (let s : State := { room 5 quad with pacc := 3, pfill := 2 };
      s.packerOk ∧ outRoom s (pendingByte s).length ∧
        ¬ outRoom s (pendingByte s ++ (s.trial (argMacroblock s) 2).1).length) := by decide

theorem witness_UniformMacroblockSelectsShiftZero :
    configCheck plain = none ∧ macroblockOk plain ∧ plain.packerOk ∧ plain.params.encRange = .unpacked ∧
    uniformMacroblock plain grey ∧
    outRoom plain ((pendingByte plain).length + (plain.trial (argMacroblock plain) 0).1.length) ∧
    (next? (exec .selectMb plain)).isSome = true := by decide

/-- Two states that differ in a pixel outside the macroblock, in TAB, IN, the ranges and the results. -/
theorem witness_SelectMbDependsOnItsOwnPixels :
    let s₁ := quad
    let s₂ := { quad.pixWrite 2 0 white with tab := [(0, 0xFF)], inp := ⟨[1], 1⟩, rmin := grey, resIdx := 7 }
    s₁ ≠ s₂ ∧ s₁.params = s₂.params ∧ (s₁.qsb = s₂.qsb ∧ s₁.qcb = s₂.qcb ∧ s₁.bw = s₂.bw ∧ s₁.bh = s₂.bh) ∧
    (s₁.iw = s₂.iw ∧ s₁.ih = s₂.ih ∧ s₁.ax = s₂.ax ∧ s₁.ay = s₂.ay) ∧
    (s₁.pacc = s₂.pacc ∧ s₁.pfill = s₂.pfill ∧ s₁.out = s₂.out ∧ s₁.errCode = s₂.errCode) ∧
    configCheck s₁ = none ∧ macroblockOk s₁ ∧ outRoom s₁ (pendingByte s₁).length ∧
    (∀ x, x < s₁.bw.toNat → ∀ y, y < s₁.bh.toNat →
      s₁.pix (s₁.ax.toNat * s₁.bw.toNat + x) (s₁.ay.toNat * s₁.bh.toNat + y) =
      s₂.pix (s₁.ax.toNat * s₁.bw.toNat + x) (s₁.ay.toNat * s₁.bh.toNat + y)) ∧
    (next? (exec .selectMb s₁)).isSome = true ∧ (next? (exec .selectMb s₂)).isSome = true := by decide

/-- DM1's record whole; a macroblock outside; code 3; a record cut short; and one whole record of four. -/
theorem witness_DecodeMb :
    let s := feed [0xAC, 0xCC, 0xAC, 0xCC, 0] { cfgd 2 2 2 16 16 with tab := [(0, 0)] }
    let u := feed [0xAC, 0xCC, 0xAC, 0xCC] { cfgd 2 2 2 16 16 with tab := [(0, 0)] }
    (configCheck s = none ∧ macroblockOk s ∧ codeAt s (argIndex s) ≠ 3 ∧
      s.inp.cur + (s.micro (argMacroblock s) (codeAt s (argIndex s))).length * (4 + 1) ≤ s.inp.bytes.length) ∧
    ¬ macroblockOk (at0 8 0 s) ∧ codeAt { s with tab := [(0, 3)] } (argIndex s) = 3 ∧
    (configCheck u = none ∧ macroblockOk u ∧ codeAt u (argIndex u) ≠ 3 ∧ u.errCode = none ∧
      u.inp.cur ≤ u.inp.bytes.length ∧
      u.inp.bytes.length < u.inp.cur + (u.micro (argMacroblock u) (codeAt u (argIndex u))).length * (4 + 1) ∧
      (next? (exec .decodeMb u)).isSome = true) ∧
    (let v := feed [0xAC, 0xCC, 0xAC, 0xCC, 0, 1, 2] { cfgd 2 4 4 16 16 with tab := [(0, 1)] };
      configCheck v = none ∧ macroblockOk v ∧ codeAt v (argIndex v) = 1 ∧ v.inp.cur ≤ v.inp.bytes.length ∧
      (v.micro (argMacroblock v) 1).length = 4 ∧ v.inp.bytes.length < v.inp.cur + 4 * (4 + 1) ∧
      (v.inp.bytes.length - v.inp.cur) / (4 + 1) = 1) := by decide

theorem witness_SelectThenDecodeRoundTrip :
    configCheck quad = none ∧ macroblockOk quad ∧ quad.pacc = 0 ∧ quad.pfill = 0 ∧ quad.errCode = none ∧
    quad.streamsOk ∧ after .selectMb quad (fun t => t.errCode) = some none := by decide

theorem witness_UniformMacroblockRoundTrip :
    configCheck plain = none ∧ macroblockOk plain ∧ plain.pacc = 0 ∧ plain.pfill = 0 ∧ plain.errCode = none ∧
    plain.streamsOk ∧ uniformMacroblock plain grey ∧
    after .selectMb plain (fun t => t.errCode) = some none := by decide

/-- P5's block. -/
theorem witness_FineGrainedEncodeMatchesTheRecord :
    let s := blk 0 0 2 2 quad
    configCheck s = none ∧ blockOk s ∧ s.pacc = 0 ∧ s.pfill = 0 ∧ s.params.encRange = .unpacked ∧
    s.params.altEstimators = false ∧ outRoom s (s.encodeMicro ⟨0, 0, 2, 2⟩).1.length := by decide

theorem witness_CommandsWriteOnlyWhatTheirRulesName :
    (next? (exec .decodeMb State.reset)).isSome = true ∧
    after .packFlush { room 1 core16 with pacc := 1, pfill := 2 } (fun t => t.out.bytes) = some [1] := by decide

theorem witness_TableWritesStayInTheirField :
    Instr.selectMb.opcode.toNat ∈ [0x31, 0x40] ∧ Instr.sizetabLoad.opcode.toNat ∈ [0x30, 0x33] ∧
    (next? (exec .selectMb quad)).isSome = true ∧ 1 ≠ argIndex quad ∧
    (next? (exec .sizetabLoad row3)).isSome = true ∧ tableLength row3 ≤ 1 := by decide

theorem witness_PixelWritesStayInTheirBlock :
    let s := feed [0xAC, 0xCC, 0xAC, 0xCC, 0] { cfgd 2 2 2 16 16 with tab := [(0, 0)] }
    configCheck s = none ∧ (next? (exec .decodeMb s)).isSome = true ∧ macroblockOk s ∧
    (next? (exec (.dequantizeSt 3) s)).isSome = true ∧ (s.ay.toNat * s.iw.toNat + s.ax.toNat) * 3 + 2 < 3 := by decide

theorem witness_StreamsOnlyMoveForward :
    (feed [0x39] core16).streamsOk ∧ after .unpackIdx (feed [0x39] core16) (fun t => t.inp.cur) = some 1 := by decide

theorem witness_EveryStepKeepsTheInvariant :
    let s := moving (.write 0 0x40) quad
    s.Inv ∧ (next? (step s)).isSome = true ∧ (moving .reset failed).Inv ∧
    (next? (step (moving .reset failed))).isSome = true := by decide

end Sys2Proof.Tests
end

section
/-! Family 10_state: the machine's invariant. First the rules of the invariant for each part of the state an operation
may replace, then the packer and the unpacker, then one lemma per command body that needs more than its shape, and last
the host's moves and the step. -/

namespace Sys2Proof.Machine

/-! ### Replacing one part of a state that has the invariant -/

theorem inv_withOut {s : State} (h : s.Inv) {o : OutStream} (ho : o.bytes.length ≤ o.cap) :
    State.Inv { s with out := o } := by
  obtain ⟨hpar, hmem, ⟨-, hin⟩, hpack, hunpack, hstat⟩ := h
  exact ⟨hpar, hmem, ⟨ho, hin⟩, hpack, hunpack, hstat⟩

theorem inv_withInp {s : State} (h : s.Inv) {i : InStream} (hi : i.cur ≤ i.bytes.length) :
    State.Inv { s with inp := i } := by
  obtain ⟨hpar, hmem, ⟨hout, -⟩, hpack, hunpack, hstat⟩ := h
  exact ⟨hpar, hmem, ⟨hout, hi⟩, hpack, hunpack, hstat⟩

theorem inv_withPacker {s : State} (h : s.Inv) {a : Byte} {f : BitVec 4}
    (hp : State.packerOk { s with pacc := a, pfill := f }) : State.Inv { s with pacc := a, pfill := f } := by
  obtain ⟨hpar, hmem, hstr, -, hunpack, hstat⟩ := h
  exact ⟨hpar, hmem, hstr, hp, hunpack, hstat⟩

theorem inv_withUnpacker {s : State} (h : s.Inv) {a : Byte} {v : BitVec 4}
    (hu : State.unpackerOk { s with uacc := a, uavail := v }) : State.Inv { s with uacc := a, uavail := v } := by
  obtain ⟨hpar, hmem, hstr, hpack, -, hstat⟩ := h
  exact ⟨hpar, hmem, hstr, hpack, hu, hstat⟩

theorem inv_withPixmem {s : State} (h : s.Inv) {m : Memory} (hwf : m.wf) (hm : ∀ c ∈ m, c.1 < s.params.pixmemCap) :
    State.Inv { s with pixmem := m } := by
  obtain ⟨hpar, ⟨-, -, htab⟩, hstr, hpack, hunpack, hstat⟩ := h
  exact ⟨hpar, ⟨hwf, hm, htab⟩, hstr, hpack, hunpack, hstat⟩

theorem inv_withTab {s : State} (h : s.Inv) {m : Memory} (hwf : m.wf) (hm : ∀ c ∈ m, c.1 < s.params.sizetabCap) :
    State.Inv { s with tab := m } := by
  obtain ⟨hpar, ⟨hpix, hpixb, -⟩, hstr, hpack, hunpack, hstat⟩ := h
  exact ⟨hpar, ⟨hpix, hpixb, hwf, hm⟩, hstr, hpack, hunpack, hstat⟩

theorem inv_packerOk {s : State} (h : s.Inv) : s.packerOk := by
  obtain ⟨-, -, -, hpack, -⟩ := h
  exact hpack

theorem inv_unpackerOk {s : State} (h : s.Inv) : s.unpackerOk := by
  obtain ⟨-, -, -, -, hunpack, -⟩ := h
  exact hunpack

theorem inv_alignIn {s : State} (h : s.Inv) : s.alignIn.Inv :=
  inv_withUnpacker h ⟨dvd_zero _, Nat.zero_le _⟩

theorem inv_outExtends {s : State} (h : s.Inv) {o : OutStream} (ho : s.out.extends o) :
    State.Inv { s with out := o } := by
  have ⟨_, _, ⟨hout, _⟩, _⟩ := h
  obtain ⟨-, -, hlen⟩ := ho
  exact inv_withOut h (hlen hout)

theorem inv_inpAdvances {s : State} (h : s.Inv) {i : InStream} (hi : s.inp.advances i) :
    State.Inv { s with inp := i } := by
  have ⟨_, _, ⟨_, hin⟩, _⟩ := h
  obtain ⟨-, hcur⟩ := hi
  obtain ⟨-, hend⟩ := hcur hin
  exact inv_withInp h hend

theorem inv_pixmemSetAll {s : State} (h : s.Inv) {a : Nat} {bs : List Byte} (ha : a + bs.length ≤ s.params.pixmemCap) :
    State.Inv { s with pixmem := s.pixmem.setAll a bs } := by
  have ⟨_, ⟨hwf, hb, _⟩, _⟩ := h
  exact inv_withPixmem h (Memory.wf_setAll hwf a) (Memory.bounded_setAll hb ha)

theorem inv_tabSet {s : State} (h : s.Inv) {k : Nat} (b : Byte) (hk : k < s.params.sizetabCap) :
    State.Inv { s with tab := s.tab.set k b } := by
  have ⟨_, ⟨_, _, hwf, hb⟩, _⟩ := h
  exact inv_withTab h (Memory.wf_set hwf k b) (Memory.bounded_set hb hk)

theorem inv_tabLoad {s : State} (h : s.Inv) {bs : List Byte} (hbs : bs.length ≤ s.params.sizetabCap) :
    (s.tabLoad bs).Inv := by
  have ⟨_, ⟨_, _, hwf, hb⟩, _⟩ := h
  exact inv_withTab h (Memory.wf_setAll hwf 0) (Memory.bounded_setAll hb (by omega))

/-- A recorded error excuses ERROP (R245). -/
theorem inv_raise {s : State} (h : s.Inv) (k : ErrKind) : (s.raise k).Inv := by
  obtain ⟨hpar, hmem, hstr, hpack, hunpack, herr, hbusy⟩ := h
  unfold State.raise
  split
  · exact ⟨hpar, hmem, hstr, hpack, hunpack, nofun, hbusy⟩
  · exact ⟨hpar, hmem, hstr, hpack, hunpack, herr, hbusy⟩

theorem inv_clearErr {s : State} (h : s.Inv) : s.clearErr.Inv := by
  obtain ⟨hpar, hmem, hstr, hpack, hunpack, -, hbusy⟩ := h
  exact ⟨hpar, hmem, hstr, hpack, hunpack, fun _ => rfl, hbusy⟩

/-! ### The packer (R46) -/

@[simp] theorem Result.state_ok {α : Type} (a : α) (s : State) : (Result.ok a s).state = s := rfl

@[simp] theorem Result.state_raised {α : Type} (k : ErrKind) (s : State) :
    (Result.raised k s : Result α).state = s := rfl

/-- A property of a sequence's state: it holds where the first part ends, and the second part brings it about. -/
theorem Result.bind_state_of {α β : Type} {P : State → Prop} {r : Result α} {f : α → State → Result β}
    (h : P r.state) (hf : ∀ a, P (f a r.state).state) : P (r.bind f).state := by
  rcases Result.bind_state_cases r f with ⟨k, -, e⟩ | ⟨a, -, e⟩
  · rw [e]; exact h
  · rw [e]; exact hf a

theorem packerOk_of_empty {s : State} (ha : s.pacc = 0) (hf : s.pfill = 0) : s.packerOk := by
  simp [State.packerOk, ha, hf]

theorem packerOk_outWrite {s : State} (h : s.packerOk) (bs : List Byte) : (outWrite bs s).state.packerOk := by
  rw [outWrite_state]
  exact h

theorem packerOk_flush {s : State} (h : s.packerOk) : (flush s).state.packerOk := by
  by_cases h0 : s.pfill.toNat = 0
  · rw [flush_of_empty h0]
    exact h
  · rw [flush_of_pending h0]
    exact packerOk_outWrite (packerOk_of_empty rfl rfl) _

/-- A multiple of QSB below 8 leaves room for one more code. -/
theorem ConfigOk.room_for_code {s : State} (c : ConfigOk s) {f : Nat} (hd : s.qsb.toNat ∣ f) (hf : f < 8) :
    f + s.qsb.toNat ≤ 8 := by
  obtain ⟨m, hm⟩ := hd
  rcases c.qsb_cases with h | h | h | h <;> rw [h] at hm ⊢ <;> omega

/-- A code of q bits put above f bits takes f + q bits. -/
theorem add_code_lt {b k f q : Nat} (hb : b < 2 ^ f) (hk : k ≤ 2 ^ q - 1) : b + k * 2 ^ f < 2 ^ (f + q) := by
  have hq : k + 1 ≤ 2 ^ q := by have := Nat.two_pow_pos q; omega
  calc b + k * 2 ^ f < (k + 1) * 2 ^ f := by rw [Nat.succ_mul]; omega
    _ ≤ 2 ^ q * 2 ^ f := Nat.mul_le_mul_right _ hq
    _ = 2 ^ (f + q) := by rw [Nat.add_comm, Nat.pow_add]

/-- A code put above those of a packer that it does not fill keeps the packer's invariant (R195). -/
theorem packerOk_addCode {s : State} (c : ConfigOk s) (h : s.packerOk) {k : Nat} (hk : k ≤ s.stepCount)
    (hne : s.pfill.toNat + s.qsb.toNat ≠ 8) :
    State.packerOk { s with
      pacc := s.pacc ||| (BitVec.ofNat 8 k <<< s.pfill.toNat)
      pfill := BitVec.ofNat 4 (s.pfill.toNat + s.qsb.toNat) } := by
  obtain ⟨hd, hf, ha⟩ := h
  have hroom := c.room_for_code hd hf
  have hfill : (BitVec.ofNat 4 (s.pfill.toNat + s.qsb.toNat)).toNat = s.pfill.toNat + s.qsb.toNat :=
    Nat.mod_eq_of_lt (by omega)
  have hsum := add_code_lt ha hk
  have hbyte : 2 ^ (s.pfill.toNat + s.qsb.toNat) ≤ 2 ^ 8 := Nat.pow_le_pow_right (by omega) hroom
  have hacc : (s.pacc ||| (BitVec.ofNat 8 k <<< s.pfill.toNat)).toNat = s.pacc.toNat + k * 2 ^ s.pfill.toNat := by
    rw [byte_or_shifted s.pacc k s.pfill.toNat ha (by omega)]
    exact Nat.mod_eq_of_lt (by omega)
  simp only [State.packerOk, hfill, hacc]
  exact ⟨Nat.dvd_add hd (dvd_refl _), by omega, hsum⟩

theorem packOne_packerOk {s : State} (c : ConfigOk s) (h : s.packerOk) {k : Nat} (hk : k ≤ s.stepCount) :
    (packOne k s).state.packerOk := by
  unfold packOne
  simp only
  split
  · exact packerOk_outWrite (packerOk_of_empty rfl rfl) _
  · next hne => exact packerOk_addCode c h hk hne

theorem bodyPackCtrl_packerOk {s : State} (h : s.packerOk) : (bodyPackCtrl s).state.packerOk :=
  Result.bind_state_of (packerOk_flush h) fun _ => packerOk_outWrite (packerOk_flush h) _

theorem bodyPackIdx_packerOk {s : State} (c : ConfigOk s) (h : s.packerOk) (k : Nat) :
    (bodyPackIdx k s).state.packerOk := by
  rcases indexOperand_cases k s with ⟨e, hk⟩ | ⟨e, -⟩
  · rw [bodyPackIdx, e]
    exact packOne_packerOk c h hk
  · rw [bodyPackIdx, e]
    exact h

theorem packerOk_recordSelection {s : State} (h : s.packerOk) (mb : Macroblock) :
    (s.recordSelection mb).packerOk := by
  simpa only [State.packerOk, State.recordSelection_qsb, State.recordSelection_pfill, State.recordSelection_pacc]
    using h

theorem bodySelectMb_packerOk {s : State} (h : s.packerOk) : (bodySelectMb s).state.packerOk := by
  rcases macroblockOperand_cases s with ⟨e, -⟩ | ⟨e, -⟩
  · rw [bodySelectMb, e, Result.bind_ok]
    exact Result.bind_state_of (packerOk_flush h) fun _ =>
      packerOk_outWrite (packerOk_recordSelection (packerOk_flush h) _) _
  · rw [bodySelectMb, e]
    exact h

/-! ### The unpacker (R47) -/

/-- A refill leaves the unpacker as it was, or with the eight bits of a byte (R199). -/
theorem refill_unpackerOk {s : State} (c : ConfigOk s) (h : s.unpackerOk) : (refill s).state.unpackerOk := by
  unfold refill
  split
  · have hread : (inRead 1 s).state.unpackerOk ∧ (inRead 1 s).state.qsb = s.qsb := by
      rw [inRead_state]
      exact ⟨h, rfl⟩
    refine Result.bind_state_of hread.1 fun b => ?_
    simp only [Result.state_ok, State.unpackerOk, hread.2]
    exact ⟨c.qsb_dvd, le_refl 8⟩
  · exact h

/-- Taking one code off the unpacker keeps a whole number of them (R199). -/
theorem bodyUnpackIdx_unpackerOk {s : State} (c : ConfigOk s) (h : s.unpackerOk) :
    (bodyUnpackIdx s).state.unpackerOk := by
  have hr := refill_unpackerOk c h
  refine Result.bind_state_of hr fun _ => ?_
  obtain ⟨hd, hle⟩ := hr
  have hv : (BitVec.ofNat 4 ((refill s).state.uavail.toNat - (refill s).state.qsb.toNat)).toNat =
      (refill s).state.uavail.toNat - (refill s).state.qsb.toNat := Nat.mod_eq_of_lt (by omega)
  simp only [Result.state_ok, State.unpackerOk, hv]
  exact ⟨Nat.dvd_sub hd (dvd_refl _), by omega⟩

/-! ### The command bodies -/

theorem bodyDequantizeSt_inv {s : State} (c : ConfigOk s) (h : s.Inv) (k : Nat) : (bodyDequantizeSt k s).state.Inv := by
  rcases bodyDequantizeSt_state k s with e | ⟨hx, hy, p, e⟩
  · rw [e]
    exact h
  · have hres : State.Inv { s with resPix := p } := h
    rw [e]
    exact inv_pixmemSetAll hres (c.pixAddr_lt hx hy)

/-- A command that writes only the packer and the end of OUT keeps the invariant if it keeps the packer's. -/
theorem inv_of_packed {s t : State} (h : s.Inv) (hp : t.packerOk)
    (e : ∃ a f o, t = { s with pacc := a, pfill := f, out := o } ∧ s.out.extends o) : t.Inv := by
  obtain ⟨a, f, o, rfl, ho⟩ := e
  exact inv_withPacker (inv_outExtends h ho) hp

theorem bodyPackCtrl_inv {s : State} (h : s.Inv) : (bodyPackCtrl s).state.Inv :=
  inv_of_packed h (bodyPackCtrl_packerOk (inv_packerOk h)) (bodyPackCtrl_state s)

theorem bodyPackIdx_inv {s : State} (c : ConfigOk s) (h : s.Inv) (k : Nat) : (bodyPackIdx k s).state.Inv :=
  inv_of_packed h (bodyPackIdx_packerOk c (inv_packerOk h) k) (bodyPackIdx_state k s)

theorem flush_inv {s : State} (h : s.Inv) : (flush s).state.Inv :=
  inv_of_packed h (packerOk_flush (inv_packerOk h)) (flush_extends s)

theorem bodyUnpackCtrl_inv {s : State} (h : s.Inv) : (bodyUnpackCtrl s).state.Inv := by
  obtain ⟨r, i, e, hi⟩ := bodyUnpackCtrl_state s
  have hrange : (s.setRange r).Inv := h
  rw [e]
  exact inv_alignIn (inv_inpAdvances hrange hi)

theorem bodyUnpackIdx_inv {s : State} (c : ConfigOk s) (h : s.Inv) : (bodyUnpackIdx s).state.Inv := by
  have hu := bodyUnpackIdx_unpackerOk c (inv_unpackerOk h)
  obtain ⟨x, a, v, i, e, hi⟩ := bodyUnpackIdx_state s
  have hres : State.Inv { s with resIdx := x } := h
  rw [e] at hu ⊢
  exact inv_withUnpacker (inv_inpAdvances hres hi) hu

theorem bodySizetabClear_inv {s : State} (c : ConfigOk s) (h : s.Inv) : (bodySizetabClear s).state.Inv :=
  inv_tabLoad h (by simpa using c.sizetab)

theorem bodySizetabWrite_inv {s : State} (c : ConfigOk s) (h : s.Inv) (k : Nat) : (bodySizetabWrite k s).state.Inv := by
  rcases bodySizetabWrite_state k s with e | ⟨hx, hy, -, e⟩
  · rw [e]
    exact h
  · rw [e]
    exact inv_tabSet h _ (c.tabIndex_lt hx hy)

theorem bodySizetabLoad_inv {s : State} (c : ConfigOk s) (h : s.Inv) : (bodySizetabLoad s).state.Inv := by
  obtain ⟨bs, i, e, hbs, hi⟩ := bodySizetabLoad_state s
  rw [e]
  exact inv_alignIn (inv_inpAdvances (inv_tabLoad h (hbs.trans c.sizetab)) hi)

theorem bodySelectMb_inv {s : State} (c : ConfigOk s) (h : s.Inv) : (bodySelectMb s).state.Inv := by
  have hp := bodySelectMb_packerOk (inv_packerOk h)
  rcases bodySelectMb_state s with e | ⟨hx, hy, a, f, o, ho, e | ⟨e0, e1, e2, x, er, sel, -, e⟩⟩
  · rw [e]
    exact h
  · rw [e] at hp ⊢
    exact inv_withPacker (inv_outExtends h ho) hp
  · have htab : (s.tabWrite (s.ay.toNat * s.mbw + s.ax.toNat) sel).Inv := inv_tabSet h _ (c.tabIndex_lt hx hy)
    rw [e] at hp ⊢
    exact inv_withPacker (inv_outExtends htab ho) hp

/-- A pixel of a microblock of the grid is a pixel of its macroblock, and so of the image (R170). -/
theorem ConfigOk.micro_in_image {s : State} (c : ConfigOk s) {col row n shift : Nat} {b : Block} {x y : Nat}
    (hc : col < s.mbw) (hr : row < s.mbh) (hb : b ∈ s.micro ⟨col * s.bw.toNat, row * s.bh.toNat, n⟩ shift)
    (hxy : (x, y) ∈ b.coords) : x < s.iw.toNat ∧ y < s.ih.toNat := by
  obtain ⟨hx, hx', hy, hy'⟩ := micro_inside c hb hxy
  obtain ⟨i, rfl⟩ := Nat.exists_eq_add_of_le hx
  obtain ⟨j, rfl⟩ := Nat.exists_eq_add_of_le hy
  exact c.macroblock_inside hc hr (Nat.lt_of_add_lt_add_left hx') (Nat.lt_of_add_lt_add_left hy')

/-- DECODE_MB writes PIXMEM only at pixels of the image, so every pixel write keeps the bounds (R178). -/
theorem bodyDecodeMb_inv {s : State} (c : ConfigOk s) (h : s.Inv) : (bodyDecodeMb s).state.Inv := by
  rcases bodyDecodeMb_state s with e | ⟨hx, hy, x, m, i, e, hi, hm⟩
  · rw [e]
    exact h
  · have hpix : State.Inv { s with pixmem := m } := by
      refine hm (fun m => State.Inv { s with pixmem := m }) (fun b hb p hp m v hinv => ?_) h
      obtain ⟨hpx, hpy⟩ := c.micro_in_image hx hy hb hp
      exact inv_pixmemSetAll hinv (c.pixAddr_lt hpx hpy)
    have hres : State.Inv { s with resIdx := x, pixmem := m } := hpix
    rw [e]
    exact inv_alignIn (inv_inpAdvances hres hi)

/-- Whichever way it ends, a command's body keeps the invariant under a passed configuration check. -/
theorem bodyOf_inv {s : State} (c : ConfigOk s) (h : s.Inv) (i : Instr) : (bodyOf i s).state.Inv := by
  cases i with
  | nop => exact h
  | rangeMinmax => obtain ⟨r, e⟩ := bodyRangeMinmax_state s; rw [bodyOf, e]; exact h
  | rangeLinear => obtain ⟨r, e⟩ := bodyRangeLinear_state s; rw [bodyOf, e]; exact h
  | rangeRegress => obtain ⟨r, e⟩ := bodyRangeRegress_state s; rw [bodyOf, e]; exact h
  | quantize => obtain ⟨a, p, d, e⟩ := bodyQuantize_state s; rw [bodyOf, e]; exact h
  | dequantize k => obtain ⟨p, e⟩ := bodyDequantize_state k s; rw [bodyOf, e]; exact h
  | dequantizeSt k => exact bodyDequantizeSt_inv c h k
  | packCtrl => exact bodyPackCtrl_inv h
  | unpackCtrl => exact bodyUnpackCtrl_inv h
  | packIdx k => exact bodyPackIdx_inv c h k
  | packFlush => exact flush_inv h
  | unpackIdx => exact bodyUnpackIdx_inv c h
  | unpackAlign => exact inv_alignIn h
  | sizetabClear => exact bodySizetabClear_inv c h
  | sizetabWrite k => exact bodySizetabWrite_inv c h k
  | sizetabRead => obtain ⟨x, e⟩ := bodySizetabRead_state s; rw [bodyOf, e]; exact h
  | sizetabLoad => exact bodySizetabLoad_inv c h
  | selectMb => exact bodySelectMb_inv c h
  | decodeMb => exact bodyDecodeMb_inv c h
  | clearErr => exact inv_clearErr h

theorem exec_inv {i : Instr} {s t : State} (h : s.Inv) (e : exec i s = .next t) : t.Inv := by
  rcases exec_cases e with ⟨k, -, -, -, rfl⟩ | ⟨hb, rfl | rfl | hc⟩ | ⟨k, u, hc, hb, rfl⟩
  · exact inv_raise h k
  · cases hb
    exact h
  · cases hb
    exact inv_clearErr h
  · have hbody := bodyOf_inv (configOk_of_none hc) h i
    rw [hb] at hbody
    exact hbody
  · have hbody := bodyOf_inv (configOk_of_none hc) h i
    rw [hb] at hbody
    exact inv_raise hbody k

/-! ### The host's moves -/

theorem accept_inv {w : Word} {s t : State} (h : s.Inv) (e : accept w s = .next t) : t.Inv := by
  have hcmd : State.Inv { s with cmd := w } := h
  unfold accept at e
  simp only at e
  split at e
  · cases e
    exact hcmd
  · split at e
    · cases e
      exact inv_raise hcmd _
    · exact exec_inv hcmd e

/-- Only CFG0's write reaches a field of the invariant, and it empties the packer and the unpacker (R34). -/
theorem writeReg_inv {s : State} (h : s.Inv) (off : Nat) (v : Word) : (writeReg off v s).Inv := by
  have ⟨hpar, hmem, hstr, _, _, hstat⟩ := h
  unfold writeReg
  split
  case h_1 => exact ⟨hpar, hmem, hstr, packerOk_of_empty rfl rfl, ⟨dvd_zero _, Nat.zero_le _⟩, hstat⟩
  all_goals exact h

theorem windowWrite_inv {addr : Nat} {v : Word} {s t : State} (h : s.Inv) (e : windowWrite addr v s = .next t) :
    t.Inv := by
  unfold windowWrite at e
  split at e
  · cases e
  · split at e
    · exact accept_inv h e
    · cases e
      exact writeReg_inv h _ v

theorem windowRead_inv {addr : Nat} {s t : State} (h : s.Inv) (e : windowRead addr s = .next t) : t.Inv := by
  unfold windowRead at e
  split at e
  · cases e
  · cases e
    exact h

/-- Reset empties TAB, the packer, the unpacker and the error record, and keeps PIXMEM and the streams (R270, R271). -/
theorem inv_resetEvent {s : State} (h : s.Inv) : s.resetEvent.Inv := by
  obtain ⟨hpar, ⟨hpix, hpixb, -⟩, hstr, -⟩ := h
  exact ⟨hpar, ⟨hpix, hpixb, List.Pairwise.nil, nofun⟩, hstr, packerOk_of_empty rfl rfl,
    ⟨dvd_zero _, Nat.zero_le _⟩, fun _ => rfl, rfl⟩

theorem hostMove_inv {op : HostOp} {s t : State} (h : s.Inv) (e : hostMove op s = .next t) : t.Inv := by
  unfold hostMove at e
  split at e
  · cases e
  cases op with
  | write addr v => exact windowWrite_inv h e
  | read addr => exact windowRead_inv h e
  | pixWrite a b =>
    dsimp only at e
    split at e
    · next ha => cases e; exact inv_pixmemSetAll (bs := [b]) h ha
    · cases e
  | pixRead a =>
    dsimp only at e
    split at e
    · cases e; exact h
    · cases e
  | tabWrite k b =>
    dsimp only at e
    split at e
    · next hk => cases e; exact inv_tabSet h b hk
    · cases e
  | tabRead k =>
    dsimp only at e
    split at e
    · cases e; exact h
    · cases e
  | outAttach o =>
    dsimp only at e
    split at e
    · next ho => cases e; exact inv_withOut h ho
    · cases e
  | outRead => cases e; exact h
  | inAttach i =>
    dsimp only at e
    split at e
    · next hi => cases e; exact inv_withInp h hi
    · cases e
  | inRead => cases e; exact h
  | reset => cases e; exact inv_resetEvent h

end Sys2Proof.Machine

namespace Sys2Proof.Proofs
open Sys2Proof.Machine

/-- Settles O59: a step is idle or takes the host's next move, and each move keeps the invariant (`hostMove_inv`), a
command by its body's lemma (`bodyOf_inv`). -/
theorem everyStepKeepsTheInvariant : Obligations.EveryStepKeepsTheInvariant := by
  unfold Obligations.EveryStepKeepsTheInvariant
  intro s t h e
  cases hp : s.pending with
  | nil =>
    rw [step_idle hp] at e
    cases e
    exact h
  | cons op rest =>
    rw [step_cons hp] at e
    have hpending : State.Inv { s with pending := rest } := h
    exact hostMove_inv hpending e

end Sys2Proof.Proofs
end

section
/-! Family 10_state: the register window. The error code and the window's fields as numbers, a write's effect at each
offset, what it leaves of the other registers, and how a written register reads back. -/

namespace Sys2Proof.Machine
open Sys2Proof.Claims

/-! ### Fields of a written word -/

theorem lowByte_toNat (n : Nat) : (lowByte n).toNat = n % 256 := by
  rw [lowByte, BitVec.toNat_ofNat]
  omega

theorem lowHalf_toNat (n : Nat) : (lowHalf n).toNat = n % 65536 := by
  rw [lowHalf, BitVec.toNat_ofNat]
  omega

theorem byte0_eq_lowByte (v : Word) : v.byte0 = lowByte v.toNat :=
  BitVec.eq_of_toNat_eq (by rw [byte0_toNat, lowByte_toNat])

theorem byte1_eq_lowByte (v : Word) : v.byte1 = lowByte (v.toNat / 256) :=
  BitVec.eq_of_toNat_eq (by rw [byte1_toNat, lowByte_toNat])

theorem byte2_eq_lowByte (v : Word) : v.byte2 = lowByte (v.toNat / 65536) :=
  BitVec.eq_of_toNat_eq (by rw [byte2_toNat, lowByte_toNat])

theorem half0_eq_lowHalf (v : Word) : v.half0 = lowHalf v.toNat :=
  BitVec.eq_of_toNat_eq (by rw [half0_toNat, lowHalf_toNat])

theorem half1_eq_lowHalf (v : Word) : v.half1 = lowHalf (v.toNat / 65536) := by
  have hv := v.isLt
  exact BitVec.eq_of_toNat_eq (by rw [half1_toNat, lowHalf_toNat]; omega)

theorem pixelOfWord_eq (v : Word) : Pixel.ofWord v = pixelOfNat v.toNat := by
  rw [Pixel.ofWord, pixelOfNat, byte0_eq_lowByte, byte1_eq_lowByte, byte2_eq_lowByte]

/-! ### A write's next state at each writable offset (R34-R40) -/

theorem writeReg_cfg0 (v : Word) (s : State) : writeReg 0x08 v s = { s with
    qsb := lowByte v.toNat, qcb := lowByte (v.toNat / 256), pacc := 0, pfill := 0, uacc := 0, uavail := 0 } := by
  rw [writeReg, byte0_eq_lowByte, byte1_eq_lowByte]

theorem writeReg_cfg1 (v : Word) (s : State) :
    writeReg 0x0C v s = { s with bw := lowHalf v.toNat, bh := lowHalf (v.toNat / 65536) } := by
  rw [writeReg, half0_eq_lowHalf, half1_eq_lowHalf]

theorem writeReg_cfg2 (v : Word) (s : State) :
    writeReg 0x10 v s = { s with iw := lowHalf v.toNat, ih := lowHalf (v.toNat / 65536) } := by
  rw [writeReg, half0_eq_lowHalf, half1_eq_lowHalf]

theorem writeReg_arg0 (v : Word) (s : State) :
    writeReg 0x14 v s = { s with ax := lowHalf v.toNat, ay := lowHalf (v.toNat / 65536) } := by
  rw [writeReg, half0_eq_lowHalf, half1_eq_lowHalf]

theorem writeReg_arg1 (v : Word) (s : State) :
    writeReg 0x18 v s = { s with aw := lowHalf v.toNat, ah := lowHalf (v.toNat / 65536) } := by
  rw [writeReg, half0_eq_lowHalf, half1_eq_lowHalf]

theorem writeReg_rmin (v : Word) (s : State) : writeReg 0x1C v s = { s with rmin := pixelOfNat v.toNat } := by
  rw [writeReg, pixelOfWord_eq]

theorem writeReg_rmax (v : Word) (s : State) : writeReg 0x20 v s = { s with rmax := pixelOfNat v.toNat } := by
  rw [writeReg, pixelOfWord_eq]

/-! ### A register's word from the fields of a written word -/

theorem halves_of_word (v : Word) : halves v.half0 v.half1 = v := by
  apply BitVec.eq_of_toNat_eq
  rw [halves_toNat, half0_toNat, half1_toNat]
  omega

/-- The low k bits of a word, as a mask and as a remainder. -/
theorem word_and_mask (v : Word) {m k : Nat} (hm : m = 2 ^ k - 1) (hk : k ≤ 32) :
    (v &&& BitVec.ofNat 32 m).toNat = v.toNat % 2 ^ k := by
  have hlt : m < 2 ^ 32 := by
    have := Nat.two_pow_pos k
    have := Nat.pow_le_pow_right (n := 2) (by omega) hk
    omega
  rw [BitVec.toNat_and, BitVec.toNat_ofNat, Nat.mod_eq_of_lt hlt, hm, Nat.and_two_pow_sub_one_eq_mod]

theorem pixel_toWord_ofWord (v : Word) : (Pixel.ofWord v).toWord = v &&& 0xFFFFFF#32 := by
  apply BitVec.eq_of_toNat_eq
  rw [word_and_mask v (k := 24) (by decide) (by decide), pixelWord_toNat, Pixel.ofWord, byte0_toNat, byte1_toNat,
    byte2_toNat]
  omega

theorem pkstateWord_of_empty {s : State} (ha : s.pacc = 0) (hf : s.pfill = 0) (hu : s.uacc = 0) (hv : s.uavail = 0) :
    s.pkstateWord = 0 :=
  BitVec.eq_of_toNat_eq (by rw [pkstateWord_toNat, ha, hf, hu, hv]; rfl)

theorem cfg0_of_word (v : Word) : 0#16 ++ (v.byte1 ++ v.byte0) = v &&& 0xFFFF#32 := by
  apply BitVec.eq_of_toNat_eq
  rw [word_and_mask v (k := 16) (by decide) (by decide)]
  simp only [append_toNat, byte0_toNat, byte1_toNat, BitVec.toNat_ofNat]
  omega

/-! ### The registers by offset (R31) -/

/-- The offsets of the registers that a host write other than to CMD changes. -/
def writableOffsets : List Nat := [0x08, 0x0C, 0x10, 0x14, 0x18, 0x1C, 0x20]

theorem readReg_of_ge (s : State) {off : Nat} (h : 0x40 ≤ off) : readReg s off = 0 := by
  unfold readReg
  split
  case h_17 => rfl
  all_goals exact absurd h (by decide)

theorem writeReg_of_readOnly {off : Nat} (h : off ∉ writableOffsets) (v : Word) (s : State) : writeReg off v s = s := by
  unfold writeReg
  split
  case h_8 => rfl
  all_goals exact absurd (by decide) h

/-- A write leaves every register but its own as it was, and PKSTATE too unless it is CFG0's (R31, R34). -/
theorem readReg_writeReg_other {off o : Nat} (hne : o ≠ off) (hpk : off = 0x08 → o ≠ 0x3C) (v : Word) (s : State) :
    readReg (writeReg off v s) o = readReg s o := by
  by_cases hw : off ∈ writableOffsets
  · simp only [writableOffsets, List.mem_cons, List.not_mem_nil, or_false] at hw
    unfold readReg
    rcases hw with rfl | rfl | rfl | rfl | rfl | rfl | rfl
    · split
      case h_3 => exact absurd rfl hne
      case h_16 => exact absurd rfl (hpk rfl)
      all_goals rfl
    · split
      case h_4 => exact absurd rfl hne
      all_goals rfl
    · split
      case h_5 => exact absurd rfl hne
      all_goals rfl
    · split
      case h_6 => exact absurd rfl hne
      all_goals rfl
    · split
      case h_7 => exact absurd rfl hne
      all_goals rfl
    · split
      case h_8 => exact absurd rfl hne
      all_goals rfl
    · split
      case h_9 => exact absurd rfl hne
      all_goals rfl
  · rw [writeReg_of_readOnly hw]

theorem errCodeBits_toNat (e : Option ErrKind) : (errCodeBits e).toNat =
    match e with
    | none => 0
    | some .invalidArgument => 1
    | some .invalidResource => 2
    | some .executionFailure => 3
    | some .outOfMemory => 4 := by
  rcases e with _ | k
  · rfl
  · cases k <;> rfl

end Sys2Proof.Machine

namespace Sys2Proof.Proofs
open Sys2Proof.Machine Sys2Proof.Claims

/-- Settles O13: each register's word as a number, by its concatenation's weights. -/
theorem registersSitAtTheirOffsets : Obligations.RegistersSitAtTheirOffsets := by
  unfold Obligations.RegistersSitAtTheirOffsets
  intro s
  have hstatus := statusWord_toNat s
  rw [errCodeBits_toNat] at hstatus
  exact ⟨rfl, hstatus, cfg0Word_toNat s, halves_toNat _ _, halves_toNat _ _, halves_toNat _ _, halves_toNat _ _,
    pixelWord_toNat _, pixelWord_toNat _, resIdxWord_toNat s, rfl, pixelWord_toNat _, rfl, rfl, rfl,
    pkstateWord_toNat s⟩

/-- Settles O12: the write's offset is CFG0's, and its two bytes are the word's low ones. -/
theorem cfg0WriteEmptiesPackers : Obligations.Cfg0WriteEmptiesPackers := by
  unfold Obligations.Cfg0WriteEmptiesPackers
  intro s v rest hbusy hp
  have hstep := hostMove_write (s := { s with pending := rest }) hbusy (off := 0x08) (by decide) (by decide)
    (by decide) v
  rw [step_cons hp, hstep, writeReg_cfg0, lowByte, lowByte]

/-- Settles O11: a read delivers the register; a write is `writeReg`, whose equation at each offset gives the next
state, and the written register reads back by its fields. -/
theorem windowReadsBackWrites : Obligations.WindowReadsBackWrites := by
  unfold Obligations.WindowReadsBackWrites
  intro s off v rest hbusy hlt halign
  refine ⟨fun hp => ?_, readReg_of_ge s, fun h0 hp => ?_⟩
  · rw [step_cons hp]
    exact hostMove_read (s := { s with pending := rest }) hbusy hlt halign
  · have hstep := hostMove_write (s := { s with pending := rest }) hbusy hlt halign h0 v
    refine ⟨_, (step_cons hp).trans hstep, fun _ hne hpk => readReg_writeReg_other hne hpk v _,
      fun h => writeReg_of_readOnly h v _, ?_, ?_, ?_, ?_, ?_, ?_, ?_, ?_, ?_⟩
    · rintro rfl
      exact ⟨cfg0_of_word v, pkstateWord_of_empty rfl rfl rfl rfl, writeReg_cfg0 v _⟩
    · rintro rfl
      exact writeReg_cfg1 v _
    · rintro rfl
      exact writeReg_cfg2 v _
    · rintro rfl
      exact writeReg_arg0 v _
    · rintro rfl
      exact writeReg_arg1 v _
    · rintro rfl
      exact writeReg_rmin v _
    · rintro rfl
      exact writeReg_rmax v _
    · intro h
      simp only [List.mem_cons, List.not_mem_nil, or_false] at h
      rcases h with rfl | rfl | rfl | rfl <;> exact halves_of_word v
    · intro h
      simp only [List.mem_cons, List.not_mem_nil, or_false] at h
      rcases h with rfl | rfl <;> exact pixel_toWord_ofWord v

end Sys2Proof.Proofs
end

section
/-! Family 20_memory: host accesses to the memories and streams. One lemma per move of the host. -/

namespace Sys2Proof.Machine

theorem hostMove_pixWrite {s : State} (hb : s.busy = false) {a : Nat} (ha : a < s.params.pixmemCap) (b : Byte) :
    hostMove (.pixWrite a b) s = .next { s with pixmem := s.pixmem.set a b } := by
  simp [hostMove, hb, ha]

theorem hostMove_pixRead {s : State} (hb : s.busy = false) {a : Nat} (ha : a < s.params.pixmemCap) :
    hostMove (.pixRead a) s = .next (s.deliver (.byte (s.pixByte a))) := by
  simp [hostMove, hb, ha]

theorem hostMove_tabWrite {s : State} (hb : s.busy = false) {k : Nat} (hk : k < s.params.sizetabCap) (b : Byte) :
    hostMove (.tabWrite k b) s = .next { s with tab := s.tab.set k b } := by
  simp [hostMove, hb, hk]

theorem hostMove_tabRead {s : State} (hb : s.busy = false) {k : Nat} (hk : k < s.params.sizetabCap) :
    hostMove (.tabRead k) s = .next (s.deliver (.byte (s.tabByte k))) := by
  simp [hostMove, hb, hk]

theorem hostMove_outAttach {s : State} (hb : s.busy = false) {o : OutStream} (ho : o.bytes.length ≤ o.cap) :
    hostMove (.outAttach o) s = .next { s with out := o } := by
  simp [hostMove, hb, ho]

theorem hostMove_outRead {s : State} (hb : s.busy = false) :
    hostMove .outRead s = .next (s.deliver (.out s.out)) := by
  simp [hostMove, hb]

theorem hostMove_inAttach {s : State} (hb : s.busy = false) {i : InStream} (hi : i.cur ≤ i.bytes.length) :
    hostMove (.inAttach i) s = .next { s with inp := i } := by
  simp [hostMove, hb, hi]

theorem hostMove_inRead {s : State} (hb : s.busy = false) :
    hostMove .inRead s = .next (s.deliver (.inp s.inp)) := by
  simp [hostMove, hb]

end Sys2Proof.Machine

namespace Sys2Proof.Proofs
open Sys2Proof.Machine

/-- Settles O14: the step is the host's move, and a byte written to a memory reads back where it was written and
nowhere else (`pixByte_set`, `tabByte_set`). -/
theorem hostReachesEveryByte : Obligations.HostReachesEveryByte := by
  unfold Obligations.HostReachesEveryByte
  intro s rest b o i hbusy
  have hbusy' : State.busy { s with pending := rest } = false := hbusy
  refine ⟨fun ho hp => ?_, fun hi hp => ?_, fun hp => ?_, fun hp => ?_, fun a ha => ⟨fun hp => ?_, fun hp => ?_⟩,
    fun k hk => ⟨fun hp => ?_, fun hp => ?_⟩⟩
  · exact (step_cons hp).trans (hostMove_outAttach hbusy' ho)
  · exact (step_cons hp).trans (hostMove_inAttach hbusy' hi)
  · exact (step_cons hp).trans (hostMove_outRead hbusy')
  · exact (step_cons hp).trans (hostMove_inRead hbusy')
  · exact ⟨s.pixmem.set a b, (step_cons hp).trans (hostMove_pixWrite hbusy' ha b), fun x => s.pixByte_set a x b⟩
  · exact (step_cons hp).trans (hostMove_pixRead hbusy' ha)
  · exact ⟨s.tab.set k b, (step_cons hp).trans (hostMove_tabWrite hbusy' hk b), fun x => s.tabByte_set k x b⟩
  · exact (step_cons hp).trans (hostMove_tabRead hbusy' hk)

end Sys2Proof.Proofs
end

section
/-! Family 20_memory: pixels. A block's pixel by its position, and the address bound that a passed configuration
check gives. -/

namespace Sys2Proof.Machine

theorem State.getElem?_block (s : State) (b : Block) {i j : Nat} (hi : i < b.w) (hj : j < b.h) :
    (s.block b)[j * b.w + i]? = some (s.pix (b.x + i) (b.y + j)) := by
  rw [State.block, List.getElem?_map, b.getElem?_coords hi hj, Option.map_some]

end Sys2Proof.Machine

namespace Sys2Proof.Proofs
open Sys2Proof.Machine

/-- Settles O19: the passed configuration check bounds every pixel's address (`ConfigOk.pixAddr_lt`), PixWrite writes
its three bytes (`pixByte_pixWrite`), and a block's list has its pixels by position (`getElem?_block`). -/
theorem pixelAddressesAndRasterOrder : Obligations.PixelAddressesAndRasterOrder := by
  unfold Obligations.PixelAddressesAndRasterOrder
  refine ⟨fun s x y hc hx hy => ?_, fun s x y => rfl, fun s x y p => ⟨_, rfl, fun a => s.pixByte_pixWrite x y a p⟩,
    fun s b => ⟨s.block_length b, fun i j hi hj => s.getElem?_block b hi hj⟩⟩
  have hend : s.pixAddr x y + 3 ≤ s.params.pixmemCap := (configOk_of_none hc).pixAddr_lt hx hy
  exact hend

end Sys2Proof.Proofs
end

section
/-! Family 20_memory: what a command may write. The frame of a command by its opcode, first for the command's body,
where it is read off the body's shape, then for the command, which may also record an error. -/

namespace Sys2Proof.Machine

/-- What holds of a command's body's state and of the state before, and survives recording an error, holds of every
state the command can leave. -/
theorem exec_keeps {P : State → Prop} {i : Instr} {s t : State} (e : exec i s = .next t) (hs : P s)
    (hbody : P (bodyOf i s).state) (hraise : ∀ u k, P u → P (u.raise k)) : P t := by
  rcases exec_state e with rfl | ⟨k, rfl⟩ | ⟨k, rfl⟩
  · exact hbody
  · exact hraise _ k hbody
  · exact hraise _ k hs

/-- From `s` to `t`, only the error record and what the rule of the command with opcode `c` names has been written.
A clause that a proof does not give is one where `t` has the field of `s` by definition. -/
structure WritesOnlyNamed (c : Nat) (s t : State) : Prop where
  setup : t.params = s.params ∧ t.cmd = s.cmd ∧ t.busy = s.busy ∧ t.qsb = s.qsb ∧ t.qcb = s.qcb ∧ t.bw = s.bw ∧
    t.bh = s.bh ∧ t.iw = s.iw ∧ t.ih = s.ih ∧ t.ax = s.ax ∧ t.ay = s.ay ∧ t.aw = s.aw ∧ t.ah = s.ah ∧
    t.tabEpoch = s.tabEpoch ∧ t.pending = s.pending ∧ t.reads = s.reads := by and_intros <;> rfl
  pixmem : c ∉ [0x12, 0x41] → t.pixmem = s.pixmem := by exact fun _ => rfl
  tab : c ∉ [0x30, 0x31, 0x33, 0x40] → t.tab = s.tab := by exact fun _ => rfl
  packer : c ∉ [0x20, 0x22, 0x23, 0x40] → t.out = s.out ∧ t.pacc = s.pacc ∧ t.pfill = s.pfill := by
    exact fun _ => ⟨rfl, rfl, rfl⟩
  inp : c ∉ [0x21, 0x24, 0x33, 0x41] → t.inp = s.inp := by exact fun _ => rfl
  unpacker : c ∉ [0x21, 0x24, 0x25, 0x33, 0x41] → t.uacc = s.uacc ∧ t.uavail = s.uavail := by
    exact fun _ => ⟨rfl, rfl⟩
  range : c ∉ [0x01, 0x02, 0x03, 0x21] → t.rmin = s.rmin ∧ t.rmax = s.rmax := by exact fun _ => ⟨rfl, rfl⟩
  resIdx : c ∉ [0x10, 0x24, 0x32, 0x40, 0x41] → t.resIdx = s.resIdx := by exact fun _ => rfl
  resErr : c ∉ [0x10, 0x40] → t.resErr = s.resErr := by exact fun _ => rfl
  resPix : c ∉ [0x10, 0x11, 0x12] → t.resPix = s.resPix := by exact fun _ => rfl
  errAcc : c ≠ 0x40 → t.errAcc0 = s.errAcc0 ∧ t.errAcc1 = s.errAcc1 ∧ t.errAcc2 = s.errAcc2 := by
    exact fun _ => ⟨rfl, rfl, rfl⟩

namespace WritesOnlyNamed

theorem refl (c : Nat) (s : State) : WritesOnlyNamed c s s := {}

/-- Recording an error writes only the error record (R245). -/
theorem raise {c : Nat} {s t : State} (h : WritesOnlyNamed c s t) (k : ErrKind) : WritesOnlyNamed c s (t.raise k) := by
  obtain ⟨setup, pixmem, tab, packer, inp, unpacker, range, resIdx, resErr, resPix, errAcc⟩ := h
  unfold State.raise
  split
  · exact ⟨setup, pixmem, tab, packer, inp, unpacker, range, resIdx, resErr, resPix, errAcc⟩
  · exact ⟨setup, pixmem, tab, packer, inp, unpacker, range, resIdx, resErr, resPix, errAcc⟩

end WritesOnlyNamed

theorem bodySelectMb_writesOnlyNamed (s : State) : WritesOnlyNamed 0x40 s (bodySelectMb s).state := by
  rcases bodySelectMb_state s with e | ⟨-, -, a, f, o, -, e | ⟨e0, e1, e2, x, er, sel, -, e⟩⟩
  · rw [e]
    exact .refl _ s
  · rw [e]
    exact { packer := fun h => absurd (by decide) h }
  · rw [e]
    exact {
      tab := fun h => absurd (by decide) h
      packer := fun h => absurd (by decide) h
      resIdx := fun h => absurd (by decide) h
      resErr := fun h => absurd (by decide) h
      errAcc := fun h => absurd rfl h }

theorem bodyDecodeMb_writesOnlyNamed (s : State) : WritesOnlyNamed 0x41 s (bodyDecodeMb s).state := by
  rcases bodyDecodeMb_state s with e | ⟨-, -, x, m, i, e, -⟩
  · rw [e]
    exact .refl _ s
  · rw [e]
    exact {
      pixmem := fun h => absurd (by decide) h
      inp := fun h => absurd (by decide) h
      unpacker := fun h => absurd (by decide) h
      resIdx := fun h => absurd (by decide) h }

/-- Whichever way it ends, a command's body writes only what the command's rule names: each body's shape lists the
fields it may have written. -/
theorem bodyOf_writesOnlyNamed (i : Instr) (s : State) : WritesOnlyNamed i.opcode.toNat s (bodyOf i s).state := by
  cases i with
  | nop => exact .refl _ s
  | rangeMinmax =>
    obtain ⟨r, e⟩ := bodyRangeMinmax_state s
    rw [bodyOf, e]
    exact { range := fun h => absurd (by decide) h }
  | rangeLinear =>
    obtain ⟨r, e⟩ := bodyRangeLinear_state s
    rw [bodyOf, e]
    exact { range := fun h => absurd (by decide) h }
  | rangeRegress =>
    obtain ⟨r, e⟩ := bodyRangeRegress_state s
    rw [bodyOf, e]
    exact { range := fun h => absurd (by decide) h }
  | quantize =>
    obtain ⟨x, p, er, e⟩ := bodyQuantize_state s
    rw [bodyOf, e]
    exact {
      resIdx := fun h => absurd (by decide) h
      resErr := fun h => absurd (by decide) h
      resPix := fun h => absurd (by decide) h }
  | dequantize k =>
    obtain ⟨p, e⟩ := bodyDequantize_state k s
    rw [bodyOf, e]
    exact { resPix := fun h => absurd (by simp [Instr.opcode]) h }
  | dequantizeSt k =>
    rcases bodyDequantizeSt_state k s with e | ⟨-, -, p, e⟩
    · rw [bodyOf, e]
      exact .refl _ s
    · rw [bodyOf, e]
      exact {
        pixmem := fun h => absurd (by simp [Instr.opcode]) h
        resPix := fun h => absurd (by simp [Instr.opcode]) h }
  | packCtrl =>
    obtain ⟨a, f, o, e, -⟩ := bodyPackCtrl_state s
    rw [bodyOf, e]
    exact { packer := fun h => absurd (by decide) h }
  | unpackCtrl =>
    obtain ⟨r, i, e, -⟩ := bodyUnpackCtrl_state s
    rw [bodyOf, e]
    exact {
      inp := fun h => absurd (by decide) h
      unpacker := fun h => absurd (by decide) h
      range := fun h => absurd (by decide) h }
  | packIdx k =>
    obtain ⟨a, f, o, e, -⟩ := bodyPackIdx_state k s
    rw [bodyOf, e]
    exact { packer := fun h => absurd (by simp [Instr.opcode]) h }
  | packFlush =>
    obtain ⟨a, f, o, e⟩ := flush_state s
    rw [bodyOf, e]
    exact { packer := fun h => absurd (by decide) h }
  | unpackIdx =>
    obtain ⟨x, a, v, i, e, -⟩ := bodyUnpackIdx_state s
    rw [bodyOf, e]
    exact {
      inp := fun h => absurd (by decide) h
      unpacker := fun h => absurd (by decide) h
      resIdx := fun h => absurd (by decide) h }
  | unpackAlign => exact { unpacker := fun h => absurd (by decide) h }
  | sizetabClear => exact { tab := fun h => absurd (by decide) h }
  | sizetabWrite k =>
    rcases bodySizetabWrite_state k s with e | ⟨-, -, -, e⟩
    · rw [bodyOf, e]
      exact .refl _ s
    · rw [bodyOf, e]
      exact { tab := fun h => absurd (by simp [Instr.opcode]) h }
  | sizetabRead =>
    obtain ⟨x, e⟩ := bodySizetabRead_state s
    rw [bodyOf, e]
    exact { resIdx := fun h => absurd (by decide) h }
  | sizetabLoad =>
    obtain ⟨bs, i, e, -⟩ := bodySizetabLoad_state s
    rw [bodyOf, e]
    exact {
      tab := fun h => absurd (by decide) h
      inp := fun h => absurd (by decide) h
      unpacker := fun h => absurd (by decide) h }
  | selectMb => exact bodySelectMb_writesOnlyNamed s
  | decodeMb => exact bodyDecodeMb_writesOnlyNamed s
  | clearErr => exact {}

theorem exec_writesOnlyNamed {i : Instr} {s t : State} (e : exec i s = .next t) :
    WritesOnlyNamed i.opcode.toNat s t :=
  exec_keeps e (.refl _ s) (bodyOf_writesOnlyNamed i s) fun _ k h => h.raise k

end Sys2Proof.Machine

namespace Sys2Proof.Proofs
open Sys2Proof.Machine

/-- Settles O55: the frame of a command by its opcode (`exec_writesOnlyNamed`), clause by clause. -/
theorem commandsWriteOnlyWhatTheirRulesName : Obligations.CommandsWriteOnlyWhatTheirRulesName := by
  unfold Obligations.CommandsWriteOnlyWhatTheirRulesName
  intro i s t e
  have h := exec_writesOnlyNamed e
  exact ⟨h.setup, h.pixmem, h.tab, h.packer, h.inp, h.unpacker, h.range, h.resIdx, h.resErr, h.resPix, h.errAcc⟩

end Sys2Proof.Proofs
end

section
/-! Family 20_memory: the streams. A command that does not name a stream leaves it (`WritesOnlyNamed`); one that does
appends to OUT, or moves IN's cursor forward. -/

namespace Sys2Proof.Machine

theorem bodySelectMb_extends (s : State) : s.out.extends (bodySelectMb s).state.out := by
  rcases bodySelectMb_state s with e | ⟨-, -, a, f, o, ho, e | ⟨e0, e1, e2, x, er, sel, -, e⟩⟩
  · rw [e]
    exact s.out.extends_refl
  · rw [e]
    exact ho
  · rw [e]
    exact ho

theorem bodyDecodeMb_advances (s : State) : s.inp.advances (bodyDecodeMb s).state.inp := by
  rcases bodyDecodeMb_state s with e | ⟨-, -, x, m, i, e, hi, -⟩
  · rw [e]
    exact s.inp.advances_refl
  · rw [e]
    exact hi

/-- Only the packing commands and SELECT_MB write OUT, and they append to it (R80). -/
theorem bodyOf_extends (i : Instr) (s : State) : s.out.extends (bodyOf i s).state.out := by
  by_cases hc : i.opcode.toNat ∈ [0x20, 0x22, 0x23, 0x40]
  · cases i with
    | packCtrl => obtain ⟨a, f, o, e, ho⟩ := bodyPackCtrl_state s; rw [bodyOf, e]; exact ho
    | packIdx k => obtain ⟨a, f, o, e, ho⟩ := bodyPackIdx_state k s; rw [bodyOf, e]; exact ho
    | packFlush => obtain ⟨a, f, o, e, ho⟩ := flush_extends s; rw [bodyOf, e]; exact ho
    | selectMb => exact bodySelectMb_extends s
    | _ => simp [Instr.opcode] at hc
  · rw [((bodyOf_writesOnlyNamed i s).packer hc).1]
    exact s.out.extends_refl

/-- Only the reading commands write IN, and they move its cursor forward (R81). -/
theorem bodyOf_advances (i : Instr) (s : State) : s.inp.advances (bodyOf i s).state.inp := by
  by_cases hc : i.opcode.toNat ∈ [0x21, 0x24, 0x33, 0x41]
  · cases i with
    | unpackCtrl => obtain ⟨r, i, e, hi⟩ := bodyUnpackCtrl_state s; rw [bodyOf, e]; exact hi
    | unpackIdx => obtain ⟨x, a, v, i, e, hi⟩ := bodyUnpackIdx_state s; rw [bodyOf, e]; exact hi
    | sizetabLoad => obtain ⟨bs, i, e, -, hi⟩ := bodySizetabLoad_state s; rw [bodyOf, e]; exact hi
    | decodeMb => exact bodyDecodeMb_advances s
    | _ => simp [Instr.opcode] at hc
  · rw [(bodyOf_writesOnlyNamed i s).inp hc]
    exact s.inp.advances_refl

theorem exec_extends {i : Instr} {s t : State} (e : exec i s = .next t) : s.out.extends t.out :=
  exec_keeps (P := fun u => s.out.extends u.out) e s.out.extends_refl (bodyOf_extends i s)
    fun u k h => by rwa [u.raise_out k]

theorem exec_advances {i : Instr} {s t : State} (e : exec i s = .next t) : s.inp.advances t.inp :=
  exec_keeps (P := fun u => s.inp.advances u.inp) e s.inp.advances_refl (bodyOf_advances i s)
    fun u k h => by rwa [u.raise_inp k]

end Sys2Proof.Machine

namespace Sys2Proof.Proofs
open Sys2Proof.Machine

/-- Settles O58: every command extends OUT within its capacity (`exec_extends`) and advances IN (`exec_advances`). -/
theorem streamsOnlyMoveForward : Obligations.StreamsOnlyMoveForward := by
  unfold Obligations.StreamsOnlyMoveForward
  intro i s t e ⟨hout, hin⟩
  obtain ⟨hcap, hprefix, hroom⟩ := exec_extends e
  obtain ⟨hbytes, hcursor⟩ := exec_advances e
  obtain ⟨hforward, hend⟩ := hcursor hin
  exact ⟨hprefix, hcap, hbytes, hforward, hroom hout, hend⟩

end Sys2Proof.Proofs
end

section
/-! Family 30_encoding: the decoder. The opcode map gives a command its own OPC and IMM and nothing else, so a word
decodes to the command with its fields; and an OPC and an IMM stand for a command exactly by R102's rows. -/

namespace Sys2Proof
open Sys2Proof.Machine Sys2Proof.Claims

/-! ### Commands by their OPC and IMM -/

/-- A command is well formed when its IMM, or 0 for want of one, fits 16 bits (R101). -/
theorem Instr.wf_iff (i : Instr) : i.wf = true ↔ i.imm?.getD 0 < 65536 := by
  cases i <;> simp [Instr.wf, Instr.imm?]

theorem noImmediate_eq_ok_iff {imm : Nat} {i j : Instr} : noImmediate imm i = .ok j ↔ imm = 0 ∧ i = j := by
  unfold noImmediate
  split <;> simp [*]

/-- The cases kept apart are the rows whose command takes the IMM, and the OPCs that are not listed. -/
theorem opcodeMap_eq_ok_iff {opc imm : Nat} {i : Instr} :
    opcodeMap opc imm = .ok i ↔ i.opcode.toNat = opc ∧ i.imm?.getD 0 = imm := by
  constructor
  · intro h
    unfold opcodeMap at h
    split at h
    case h_6 | h_7 | h_10 | h_15 => cases h; exact ⟨rfl, rfl⟩
    case h_21 => cases h
    all_goals
      obtain ⟨rfl, rfl⟩ := noImmediate_eq_ok_iff.mp h
      exact ⟨rfl, rfl⟩
  · rintro ⟨rfl, rfl⟩
    cases i <;> rfl

/-- An OPC and an IMM stand for a command when the OPC is listed, and the IMM is 0 or the OPC's command takes one. -/
theorem exists_opcodeMap_eq_ok_iff {opc imm : Nat} :
    (∃ i, opcodeMap opc imm = .ok i) ↔ opc ∈ listedOpcodes ∧ (imm = 0 ∨ opc ∈ immediateOpcodes) := by
  constructor
  · rintro ⟨i, h⟩
    obtain ⟨rfl, rfl⟩ := opcodeMap_eq_ok_iff.mp h
    cases i <;> simp [Instr.opcode, Instr.imm?, listedOpcodes, immediateOpcodes]
  · rintro ⟨hlisted, rfl | htakes⟩
    · unfold listedOpcodes at hlisted
      fin_cases hlisted <;> exact ⟨_, rfl⟩
    · unfold immediateOpcodes at htakes
      fin_cases htakes <;> exact ⟨_, rfl⟩

/-! ### Words by their fields (R100) -/

theorem word_toNat_fields (w : Word) :
    w.toNat = (immOf w).toNat * 65536 + (rsvOf w).toNat * 256 + (opcOf w).toNat := by
  rw [half1_toNat, byte1_toNat, byte0_toNat]
  omega

theorem word_eq_of_fields {v w : Word} (hopc : opcOf v = opcOf w) (hrsv : rsvOf v = rsvOf w)
    (himm : (immOf v).toNat = (immOf w).toNat) : v = w :=
  BitVec.eq_of_toNat_eq (by rw [word_toNat_fields v, word_toNat_fields w, hopc, hrsv, himm])

theorem encode_fields (i : Instr) : Laws.EncodedFields.Statement i :=
  Laws.EncodedFields.of_imm i.wf_iff.mp

theorem encode_toNat {i : Instr} (hwf : i.wf = true) :
    (encode i).toNat = i.imm?.getD 0 * 65536 + i.opcode.toNat := by
  obtain ⟨hopc, hrsv, himm⟩ := encode_fields i hwf
  rw [word_toNat_fields, hopc, hrsv, himm, BitVec.ofNat_eq_ofNat, BitVec.toNat_zero, Nat.zero_mul, Nat.add_zero]

theorem decode_eq_ok_iff {w : Word} {i : Instr} :
    decode w = .ok i ↔ rsvOf w = 0 ∧ opcOf w = i.opcode ∧ (immOf w).toNat = i.imm?.getD 0 := by
  unfold decode
  split
  next hrsv => rw [opcodeMap_eq_ok_iff, BitVec.toNat_inj, eq_true hrsv, true_and, eq_comm, eq_comm (a := i.imm?.getD 0)]
  next hrsv => simp only [hrsv, false_and, reduceCtorEq]

theorem decode_encode {i : Instr} (hwf : i.wf = true) : decode (encode i) = .ok i := by
  obtain ⟨hopc, hrsv, himm⟩ := encode_fields i hwf
  exact decode_eq_ok_iff.mpr ⟨hrsv, hopc, himm⟩

theorem wf_of_decode {w : Word} {i : Instr} (h : decode w = .ok i) : i.wf = true := by
  obtain ⟨-, -, himm⟩ := decode_eq_ok_iff.mp h
  exact i.wf_iff.mpr (himm ▸ (immOf w).isLt)

theorem encode_of_decode {w : Word} {i : Instr} (h : decode w = .ok i) : encode i = w := by
  obtain ⟨hrsv', hopc', himm'⟩ := decode_eq_ok_iff.mp h
  obtain ⟨hopc, hrsv, himm⟩ := encode_fields i (wf_of_decode h)
  exact word_eq_of_fields (hopc.trans hopc'.symm) (hrsv.trans hrsv'.symm) (himm.trans himm'.symm)

/-- A word decodes when RSV is 0 and its OPC and IMM stand for a command. -/
theorem exists_decode_eq_ok_iff (w : Word) : (∃ i, decode w = .ok i) ↔
    rsvOf w = 0 ∧ (opcOf w).toNat ∈ listedOpcodes ∧
      ((immOf w).toNat = 0 ∨ (opcOf w).toNat ∈ immediateOpcodes) := by
  rw [← exists_opcodeMap_eq_ok_iff]
  unfold decode
  split
  next hrsv => simp only [hrsv, true_and]
  next hrsv => simp only [hrsv, false_and, reduceCtorEq, exists_false]

/-- R103's three cases are together the words that do not decode. -/
theorem illegalWord_iff (w : Word) : illegalWord w ↔ ¬ ∃ i, decode w = .ok i := by
  rw [exists_decode_eq_ok_iff, ← BitVec.toNat_inj, half1_toNat, byte1_toNat, byte0_toNat,
    BitVec.ofNat_eq_ofNat, BitVec.toNat_zero]
  unfold illegalWord
  tauto

end Sys2Proof

namespace Sys2Proof.Proofs

/-- Settles O2: a command's word has its fields (`encode_fields`), and a word decodes to the command with its fields
(`decode_eq_ok_iff`). -/
theorem decodeAndEncodeAgree : Obligations.DecodeAndEncodeAgree := by
  unfold Obligations.DecodeAndEncodeAgree
  exact ⟨fun _ hwf => ⟨decode_encode hwf, encode_toNat hwf⟩, fun _ _ h => ⟨wf_of_decode h, encode_of_decode h⟩⟩

/-- Settles O1: fixed words, evaluated. -/
theorem decodesWordsOfTheSpec : Obligations.DecodesWordsOfTheSpec := by
  unfold Obligations.DecodesWordsOfTheSpec
  decide

end Sys2Proof.Proofs
end

section
/-! Family 30_encoding: accepting a command word (R242). A word written to CMD is discarded, rejected or run, and each
of the three ends in a next state. -/

namespace Sys2Proof.Machine
open Sys2Proof.Claims

/-! ### The host's write to CMD -/

theorem step_writesCmd {s : State} {w : Word} {rest : List HostOp} (h : writesCmd s w rest) :
    step s = accept w { s with pending := rest } := by
  obtain ⟨hbusy, hpending⟩ := h
  rw [step_cons hpending]
  exact hostMove_command (s := { s with pending := rest }) hbusy w

/-- R246: a recorded error discards every word but one with the OPC of CLEAR_ERR. -/
theorem accept_of_discarded {s : State} {w : Word} (he : s.errCode ≠ none) (hw : opcOf w ≠ 0xF0) :
    accept w s = .next { s with cmd := w } := by
  unfold accept
  exact if_pos ⟨Option.isSome_iff_ne_none.mpr he, hw⟩

theorem not_discarded {s : State} {w : Word} (h : s.errCode = none ∨ opcOf w = 0xF0) :
    ¬ (s.errCode.isSome ∧ opcOf w ≠ 0xF0) := by
  rintro ⟨he, hw⟩
  exact h.elim (Option.isSome_iff_ne_none.mp he) hw

/-- R242: a legal word that is not discarded runs its command. -/
theorem accept_of_decode {s : State} {w : Word} {i : Instr} (h : s.errCode = none ∨ opcOf w = 0xF0)
    (hw : decode w = .ok i) : accept w s = exec i { s with cmd := w } := by
  unfold accept
  simp only [if_neg (not_discarded h), hw]

/-- R103: an illegal word that is not discarded raises InvalidArgument. -/
theorem accept_of_illegal {s : State} {w : Word} (h : s.errCode = none ∨ opcOf w = 0xF0)
    (hw : ¬ ∃ i, decode w = .ok i) : accept w s = .next (State.raise .invalidArgument { s with cmd := w }) := by
  unfold accept
  cases hd : decode w with
  | error e => simp only [if_neg (not_discarded h)]
  | ok i => exact absurd ⟨i, hd⟩ hw

/-- With no error recorded before, the record of an illegal word is InvalidArgument and the word's OPC. -/
theorem accept_records_illegal {s : State} {w : Word} (hnone : s.errCode = none) (hw : ¬ ∃ i, decode w = .ok i) :
    accept w s = .next { s with cmd := w, errCode := some .invalidArgument, errOp := w.byte0 } := by
  have hnone' : State.errCode { s with cmd := w } = none := hnone
  rw [accept_of_illegal (.inl hnone) hw, State.raise_of_none .invalidArgument hnone']

/-! ### Completion -/

/-- Every command is NOP, CLEAR_ERR, or a body whose result always finishes in a next state. -/
theorem exec_completes (i : Instr) (s : State) : ∃ t, exec i s = .next t := by
  by_cases hnop : i = .nop
  · exact ⟨s, by rw [hnop, exec_nop]⟩
  by_cases hclear : i = .clearErr
  · exact ⟨s.clearErr, by rw [hclear, exec_clearErr]⟩
  rw [exec_eq_runCommand hnop hclear]
  rcases runCommand_cases (bodyOf i) s with ⟨k, -, h⟩ | ⟨-, h⟩
  · exact ⟨_, h⟩
  · rw [h]
    rcases (bodyOf i s).finish_cases with hf | ⟨k, hf⟩ <;> exact ⟨_, hf⟩

theorem accept_completes (w : Word) (s : State) : ∃ t, accept w s = .next t := by
  by_cases h : s.errCode = none ∨ opcOf w = 0xF0
  · by_cases hw : ∃ i, decode w = .ok i
    · obtain ⟨i, hi⟩ := hw
      rw [accept_of_decode h hi]
      exact exec_completes i _
    · exact ⟨_, accept_of_illegal h hw⟩
  · obtain ⟨he, hopc⟩ := not_or.mp h
    exact ⟨_, accept_of_discarded he hopc⟩

end Sys2Proof.Machine

namespace Sys2Proof.Proofs
open Sys2Proof.Machine Sys2Proof.Claims

/-- Settles O3: R103's cases are the words that do not decode (`illegalWord_iff`), and with no error recorded such a
word's write records the first error (`accept_records_illegal`). -/
theorem illegalWordRaisesInvalidArgument : Obligations.IllegalWordRaisesInvalidArgument := by
  unfold Obligations.IllegalWordRaisesInvalidArgument
  refine ⟨illegalWord_iff, fun s w rest hwrites hnone hillegal => ?_⟩
  have hnone' : State.errCode { s with pending := rest } = none := hnone
  have hopc : w.byte0 = BitVec.ofNat 8 (w.toNat % 256) := byte0_eq_lowByte w
  rw [step_writesCmd hwrites, accept_records_illegal hnone' ((illegalWord_iff w).mp hillegal), hopc]

/-- Settles O7: a written word is discarded, rejected or run (`accept_completes`), and every command's result finishes
in a next state (`exec_completes`). -/
theorem everyCommandCompletes : Obligations.EveryCommandCompletes := by
  unfold Obligations.EveryCommandCompletes
  exact ⟨exec_completes, fun _ w _ h => step_writesCmd h ▸ accept_completes w _⟩

end Sys2Proof.Proofs
end

section
/-! Family 40_range_estimator: the block operand and RANGE_MINMAX. A RANGE command's block is checked before anything
else; a legal one has a pixel, so that the folds over its channels end in the least and the greatest value. -/

namespace Sys2Proof.Machine
open Sys2Proof.Claims

/-! ### The block operand -/

/-- With the configuration passed, a command is its body. -/
theorem exec_eq_finish {i : Instr} {s : State} (hnop : i ≠ .nop) (hclear : i ≠ .clearErr)
    (hc : configCheck s = none) : exec i s = (bodyOf i s).finish := by
  rw [exec_eq_runCommand hnop hclear, runCommand_of_none _ hc]

/-- A body that begins with a legal block operand goes on with it, in the same state. -/
theorem blockOperand_bind_of_blockOk {s : State} (f : Block → State → Result Unit) (hb : blockOk s) :
    (blockOperand s).bind f = f ⟨s.ax.toNat, s.ay.toNat, s.aw.toNat, s.ah.toNat⟩ s := by
  rcases blockOperand_cases s with ⟨h, -⟩ | ⟨-, h⟩
  · rw [h, Result.bind_ok]
  · exact absurd hb h

/-- A body that begins with an illegal block operand raises before any effect. -/
theorem blockOperand_bind_of_not_blockOk {s : State} (f : Block → State → Result Unit) (hb : ¬ blockOk s) :
    (blockOperand s).bind f = .raised .invalidArgument s := by
  rcases blockOperand_cases s with ⟨-, h⟩ | ⟨h, -⟩
  · exact absurd h hb
  · rw [h, Result.bind_raised]

/-- A legal block has a pixel (R130). -/
theorem argBlock_ne_nil {s : State} (hb : blockOk s) : argBlock s ≠ [] := by
  obtain ⟨hw, hh, -⟩ := hb
  exact List.ne_nil_of_length_pos ((s.block_length _).symm ▸ Nat.mul_pos hw hh)

/-! ### The bounds of a channel -/

theorem leastOf_chanMin (ch : Pixel → Byte) {blk : List Pixel} (hne : blk ≠ []) :
    leastOf ch blk (chanMin ch blk) := by
  obtain ⟨hmem, -, hle⟩ := foldl_byteMin (blk.map ch) 255
  have hbound : ∀ p ∈ blk, (chanMin ch blk).toNat ≤ (ch p).toNat := fun p hp => hle _ (List.mem_map_of_mem hp)
  refine ⟨?_, hbound⟩
  rcases hmem with h255 | hmem
  · obtain ⟨p, hp⟩ := List.exists_mem_of_ne_nil blk hne
    have h255 : chanMin ch blk = 255 := h255
    have hp255 : 255 ≤ (ch p).toNat := by simpa [h255] using hbound p hp
    exact ⟨p, hp, h255 ▸ BitVec.eq_of_toNat_eq (le_antisymm (Nat.le_of_lt_succ (ch p).isLt) hp255)⟩
  · exact List.mem_map.mp hmem

theorem greatestOf_chanMax (ch : Pixel → Byte) {blk : List Pixel} (hne : blk ≠ []) :
    greatestOf ch blk (chanMax ch blk) := by
  obtain ⟨hmem, -, hle⟩ := foldl_byteMax (blk.map ch) 0
  have hbound : ∀ p ∈ blk, (ch p).toNat ≤ (chanMax ch blk).toNat := fun p hp => hle _ (List.mem_map_of_mem hp)
  refine ⟨?_, hbound⟩
  rcases hmem with h0 | hmem
  · obtain ⟨p, hp⟩ := List.exists_mem_of_ne_nil blk hne
    have h0 : chanMax ch blk = 0 := h0
    have hp0 : (ch p).toNat ≤ 0 := by simpa [h0] using hbound p hp
    exact ⟨p, hp, h0 ▸ BitVec.eq_of_toNat_eq (Nat.le_zero.mp hp0)⟩
  · exact List.mem_map.mp hmem

/-- A channel is constant on a block exactly when its bounds meet. -/
theorem chanMax_eq_chanMin_iff (ch : Pixel → Byte) {blk : List Pixel} (hne : blk ≠ []) :
    chanMax ch blk = chanMin ch blk ↔ ∀ p ∈ blk, ∀ q ∈ blk, ch p = ch q := by
  obtain ⟨⟨a, ha, hamin⟩, hmin⟩ := leastOf_chanMin ch hne
  obtain ⟨⟨b, hb, hbmax⟩, hmax⟩ := greatestOf_chanMax ch hne
  constructor
  · intro heq
    have hconst : ∀ p ∈ blk, ch p = chanMin ch blk := fun p hp =>
      BitVec.eq_of_toNat_eq (le_antisymm (heq ▸ hmax p hp) (hmin p hp))
    exact fun p hp q hq => (hconst p hp).trans (hconst q hq).symm
  · intro hconst
    exact hbmax.symm.trans ((hconst b hb a ha).trans hamin)

/-! ### The min-max range of a block -/

theorem sq_minmax_le {blk : List Pixel} {p : Pixel} (hp : p ∈ blk) :
    sq p (minmax blk).mn ≤ sq (minmax blk).mx (minmax blk).mn := by
  have hne := List.ne_nil_of_mem hp
  have hchan : ∀ ch : Pixel → Byte, sqDiff (ch p) (chanMin ch blk) ≤ sqDiff (chanMax ch blk) (chanMin ch blk) :=
    fun ch => sqDiff_mono ((leastOf_chanMin ch hne).2 p hp) ((greatestOf_chanMax ch hne).2 p hp)
  exact Nat.add_le_add (Nat.add_le_add (hchan Pixel.c0) (hchan Pixel.c1)) (hchan Pixel.c2)

theorem minmax_collapses_iff {blk : List Pixel} {p : Pixel} (hp : p ∈ blk) :
    (minmax blk).mx = (minmax blk).mn ↔ ∀ q ∈ blk, q = p := by
  have hne := List.ne_nil_of_mem hp
  simp only [minmax, Pixel.mk.injEq, chanMax_eq_chanMin_iff _ hne]
  constructor
  · rintro ⟨h0, h1, h2⟩ q hq
    have e0 := h0 q hq p hp
    have e1 := h1 q hq p hp
    have e2 := h2 q hq p hp
    cases p
    cases q
    simp_all only
  · intro huni
    have hch : ∀ (ch : Pixel → Byte), ∀ a ∈ blk, ∀ b ∈ blk, ch a = ch b := fun ch a ha b hb => by
      rw [huni a ha, huni b hb]
    exact ⟨hch _, hch _, hch _⟩

theorem exec_rangeMinmax {s : State} (hc : configCheck s = none) (hb : blockOk s) :
    exec .rangeMinmax s = .next (s.setRange (minmax (argBlock s))) := by
  rw [exec_eq_finish (by decide) (by decide) hc, bodyOf, bodyRangeMinmax, blockOperand_bind_of_blockOk _ hb,
    Result.finish_ok]

end Sys2Proof.Machine

namespace Sys2Proof.Proofs
open Sys2Proof.Machine Sys2Proof.Claims

/-- Settles O20: the three bodies begin with the block operand, which raises on an illegal block before any effect
(`blockOperand_bind_of_not_blockOk`). -/
theorem rangeCommandsCheckTheirBlock : Obligations.RangeCommandsCheckTheirBlock := by
  unfold Obligations.RangeCommandsCheckTheirBlock
  intro i s hi hc hb
  rcases hi with rfl | rfl | rfl <;>
    exact (exec_eq_finish (by decide) (by decide) hc).trans
      (congrArg Result.finish (blockOperand_bind_of_not_blockOk _ hb))

/-- Settles O21: the fold over each channel of a block that has a pixel ends in the channel's least
(`leastOf_chanMin`) and greatest value (`greatestOf_chanMax`). -/
theorem rangeMinmaxWritesTheBounds : Obligations.RangeMinmaxWritesTheBounds := by
  unfold Obligations.RangeMinmaxWritesTheBounds
  intro s hc hb
  have hne := argBlock_ne_nil hb
  exact ⟨_, _, exec_rangeMinmax hc hb, leastOf_chanMin _ hne, greatestOf_chanMax _ hne, leastOf_chanMin _ hne,
    greatestOf_chanMax _ hne, leastOf_chanMin _ hne, greatestOf_chanMax _ hne⟩

/-- Settles O22: every channel of a block pixel lies between the bounds (`sq_minmax_le`), and they meet in every
channel exactly on a uniform block (`minmax_collapses_iff`). -/
theorem minmaxRangeBoundsItsBlock : Obligations.MinmaxRangeBoundsItsBlock := by
  unfold Obligations.MinmaxRangeBoundsItsBlock
  exact fun blk p hp => ⟨sq_minmax_le hp, sq_eq_zero.trans (minmax_collapses_iff hp)⟩

end Sys2Proof.Proofs
end

section
/-! Family 40_range_estimator: RANGE_LINEAR. The search visits the ordered pairs and keeps the first farthest one, whose
place in the list of pairs is a pair of positions of the block. -/

namespace Sys2Proof.Machine
open Sys2Proof.Claims

theorem orderedPairs_length (blk : List Pixel) : (orderedPairs blk).length = blk.length * blk.length := by
  simp [orderedPairs, List.length_flatMap]

/-- The search of R133 ends with the first of the ordered pairs at the greatest distance. -/
theorem farthestPair_isFirstGreatest {blk : List Pixel} (hne : blk ≠ []) :
    ∃ k : Nat, (orderedPairs blk)[k]? = some (farthestPair blk) ∧
      ∀ (k' : Nat) (ab : Pixel × Pixel), (orderedPairs blk)[k']? = some ab →
        sq ab.1 ab.2 ≤ sq (farthestPair blk).1 (farthestPair blk).2 ∧
        (k' < k → sq ab.1 ab.2 < sq (farthestPair blk).1 (farthestPair blk).2) := by
  obtain ⟨a, l, rfl⟩ := List.exists_cons_of_ne_nil hne
  obtain ⟨rest, hpairs⟩ : ∃ rest, orderedPairs (a :: l) = (a, a) :: rest := ⟨_, rfl⟩
  have hfold : farthestPair (a :: l) = rest.foldl fartherPair (a, a) := by
    rw [farthestPair, hpairs, List.headD_cons, List.foldl_cons, fartherPair, ite_self]
  obtain ⟨k, -, hk, hfirst⟩ := foldl_keepFirstGreatest (fun ab : Pixel × Pixel => sq ab.1 ab.2) rest (a, a)
  rw [hfold, hpairs]
  exact ⟨k, hk, hfirst⟩

/-- The first farthest pair by the positions of its pixels, i outer and j inner (R133). -/
theorem farthestPair_positions {blk : List Pixel} (hne : blk ≠ []) :
    ∃ i j, i < blk.length ∧ j < blk.length ∧
      farthestPair blk = (blk.getD i Pixel.zero, blk.getD j Pixel.zero) ∧
      ∀ i' j', i' < blk.length → j' < blk.length →
        sq (blk.getD i' Pixel.zero) (blk.getD j' Pixel.zero) ≤ sq (farthestPair blk).1 (farthestPair blk).2 ∧
        ((i' < i ∨ (i' = i ∧ j' < j)) →
          sq (blk.getD i' Pixel.zero) (blk.getD j' Pixel.zero) < sq (farthestPair blk).1 (farthestPair blk).2) := by
  obtain ⟨k, hk, hfirst⟩ := farthestPair_isFirstGreatest hne
  have hpos : 0 < blk.length := List.length_pos_of_ne_nil hne
  have hklt : k < blk.length * blk.length := orderedPairs_length blk ▸ (List.getElem?_eq_some_iff.mp hk).1
  have hi : k / blk.length < blk.length := Nat.div_lt_of_lt_mul hklt
  have hj : k % blk.length < blk.length := Nat.mod_lt _ hpos
  have hk_eq : k / blk.length * blk.length + k % blk.length = k := Nat.div_add_mod' k blk.length
  refine ⟨_, _, hi, hj, ?_, fun i' j' hi' hj' => ?_⟩
  · have hat := orderedPairs_getElem? blk hi hj
    rw [hk_eq] at hat
    exact Option.some.inj (hk.symm.trans hat)
  · obtain ⟨hle, hlt⟩ := hfirst _ _ (orderedPairs_getElem? blk hi' hj')
    exact ⟨hle, fun hbefore => hlt (hk_eq ▸ (lexicographic_lt hj' hj).mpr hbefore)⟩

/-- The pair in either order, the lower magnitude first and the earlier pixel on a tie (R133). -/
theorem orderByMag_cases (a b : Pixel) :
    (mag b < mag a ∧ orderByMag (a, b) = ⟨b, a⟩) ∨ (mag a ≤ mag b ∧ orderByMag (a, b) = ⟨a, b⟩) := by
  by_cases h : mag b < mag a
  · exact .inl ⟨h, if_pos h⟩
  · exact .inr ⟨Nat.le_of_not_lt h, if_neg h⟩

theorem exec_rangeLinear {s : State} (hc : configCheck s = none) (hb : blockOk s) :
    exec .rangeLinear s = .next (s.setRange (linear (argBlock s))) := by
  rw [exec_eq_finish (by decide) (by decide) hc, bodyOf, bodyRangeLinear, blockOperand_bind_of_blockOk _ hb,
    Result.finish_ok]

end Sys2Proof.Machine

namespace Sys2Proof.Proofs
open Sys2Proof.Machine Sys2Proof.Claims

/-- Settles O23: the search keeps the first farthest pair (`farthestPair_positions`), and ordering it by magnitude
leaves its distance (`sq_comm`). -/
theorem rangeLinearTakesTheFirstFarthestPair : Obligations.RangeLinearTakesTheFirstFarthestPair := by
  unfold Obligations.RangeLinearTakesTheFirstFarthestPair
  intro s hc hb
  obtain ⟨i, j, hi, hj, hpair, hfirst⟩ := farthestPair_positions (argBlock_ne_nil hb)
  rw [hpair] at hfirst
  refine ⟨i, j, hi, hj, hfirst, _, _, exec_rangeLinear hc hb, ?_⟩
  have hfar : ∀ p ∈ argBlock s, ∀ n, n < (argBlock s).length →
      sq p ((argBlock s).getD n Pixel.zero) ≤
        sq ((argBlock s).getD i Pixel.zero) ((argBlock s).getD j Pixel.zero) := by
    intro p hp n hn
    obtain ⟨m, hm, rfl⟩ := List.getElem_of_mem hp
    have h := (hfirst m n hm hn).1
    rwa [List.getD_eq_getElem _ _ hm] at h
  rw [linear, hpair]
  rcases orderByMag_cases ((argBlock s).getD i Pixel.zero) ((argBlock s).getD j Pixel.zero) with
    ⟨hmag, hord⟩ | ⟨hmag, hord⟩ <;> rw [hord]
  · exact ⟨.inl ⟨hmag, rfl, rfl⟩, fun p hp => hfar p hp j hj⟩
  · exact ⟨.inr ⟨hmag, rfl, rfl⟩, fun p hp => (hfar p hp i hi).trans_eq (sq_comm _ _)⟩

end Sys2Proof.Proofs
end

section
/-! Family 40_range_estimator: RANGE_REGRESS. The model's fit is the least-squares line of the statements; a fit's
denominator is a sum of squared differences, so it is 0 exactly on a constant channel (R137). -/

namespace Sys2Proof.Machine
open Sys2Proof.Claims

/-! ### The denominator of a fit -/

@[simp] theorem sumOver_nil (f : Pixel → Rat) : sumOver [] f = 0 := rfl

@[simp] theorem sumOver_cons (a : Pixel) (blk : List Pixel) (f : Pixel → Rat) :
    sumOver (a :: blk) f = f a + sumOver blk f := by
  simp [sumOver]

/-- The squared distances of a block's channel from a value, by the sums of R135. -/
theorem sumOver_sq_sub (blk : List Pixel) (f : Pixel → Rat) (c : Rat) :
    sumOver blk (fun p => (c - f p) ^ 2) =
      blk.length * c ^ 2 - 2 * c * sumOver blk f + sumOver blk (fun p => f p * f p) := by
  induction blk with
  | nil => simp
  | cons a blk ih =>
    simp only [sumOver_cons, ih, List.length_cons, Nat.cast_succ]
    ring

theorem sumOver_sq_nonneg (blk : List Pixel) (f : Pixel → Rat) : 0 ≤ sumOver blk (fun p => f p ^ 2) :=
  List.sum_nonneg (by simp only [List.forall_mem_map]; exact fun p _ => sq_nonneg (f p))

/-- A sum of squares is 0 exactly when each is. -/
theorem sumOver_sq_eq_zero_iff (blk : List Pixel) (f : Pixel → Rat) :
    sumOver blk (fun p => f p ^ 2) = 0 ↔ ∀ p ∈ blk, f p = 0 := by
  induction blk with
  | nil => simp
  | cons a blk ih =>
    rw [sumOver_cons, add_eq_zero_iff_of_nonneg (sq_nonneg _) (sumOver_sq_nonneg _ _), ih, sq_eq_zero_iff,
      List.forall_mem_cons]

/-- One pixel more adds its squared differences from the others: R137's identity, unrolled. -/
theorem fitDen_cons (a : Pixel) (blk : List Pixel) (x : Pixel → Byte) :
    fitDen (a :: blk) x = fitDen blk x + sumOver blk (fun p => (chanRat x a - chanRat x p) ^ 2) := by
  simp only [fitDen, sumOver_sq_sub, sumOver_cons, List.length_cons, Nat.cast_succ]
  ring

theorem fitDen_nonneg (blk : List Pixel) (x : Pixel → Byte) : 0 ≤ fitDen blk x := by
  induction blk with
  | nil => simp [fitDen]
  | cons a blk ih =>
    rw [fitDen_cons]
    exact add_nonneg ih (sumOver_sq_nonneg _ _)

theorem chanRat_inj {x : Pixel → Byte} {p q : Pixel} : chanRat x p = chanRat x q ↔ x p = x q := by
  rw [chanRat, chanRat, Nat.cast_inj, BitVec.toNat_inj]

/-- R137: a fit is degenerate exactly on a constant channel. -/
theorem fitDen_eq_zero_iff (blk : List Pixel) (x : Pixel → Byte) :
    fitDen blk x = 0 ↔ ∀ p ∈ blk, ∀ q ∈ blk, x p = x q := by
  induction blk with
  | nil => simp [fitDen]
  | cons a blk ih =>
    rw [fitDen_cons, add_eq_zero_iff_of_nonneg (fitDen_nonneg _ _) (sumOver_sq_nonneg _ _), ih,
      sumOver_sq_eq_zero_iff]
    simp only [sub_eq_zero, chanRat_inj, List.forall_mem_cons]
    constructor
    · rintro ⟨hrest, ha⟩
      exact ⟨⟨trivial, ha⟩, fun p hp => ⟨(ha p hp).symm, hrest p hp⟩⟩
    · rintro ⟨⟨-, ha⟩, hrest⟩
      exact ⟨fun p hp => (hrest p hp).2, ha⟩

/-! ### The fitted lines -/

theorem natCast_sum_map (blk : List Pixel) (f : Pixel → Nat) :
    (((blk.map f).sum : Nat) : Rat) = sumOver blk (fun p => (f p : Rat)) := by
  rw [Nat.cast_list_sum, List.map_map]
  rfl

/-- The model's fit of two channels is the line of R135, unless it is degenerate. -/
theorem fit_channels (blk : List Pixel) (x y : Pixel → Byte) :
    fit (blk.map fun p => ((x p).toNat, (y p).toNat)) =
      if fitDen blk x = 0 then none else some (fitIntercept blk x y, fitSlope blk x y) := by
  simp only [fit, List.map_map, List.length_map, Function.comp_def, natCast_sum_map, Nat.cast_mul]
  rfl

theorem truncRat_eq (q : Rat) : truncRat q = if 0 ≤ q then ⌊q⌋ else ⌈q⌉ := by
  rw [truncRat]
  split
  · next h => rw [Rat.floor_def', Int.tdiv_eq_ediv_of_nonneg (Rat.num_nonneg.mpr h)]
  · next h =>
    have hneg : 0 ≤ -q.num := by
      have := Rat.num_neg.mpr (not_le.mp h)
      omega
    rw [← neg_neg q.num, Int.neg_tdiv, Int.tdiv_eq_ediv_of_nonneg hneg, ← Rat.num_neg_eq_neg_num,
      ← Rat.den_neg_eq_den, ← Rat.floor_def', Int.floor_neg, neg_neg]

theorem conv_eq_channelOf (q : Rat) : conv q = channelOf q := by
  rw [conv, channelOf, ← truncRat_eq, clamp]
  congr 1
  omega

/-- A degenerate fit leaves no range (R136). -/
theorem regress_of_degenerate {blk : List Pixel} (h : fitDen blk Pixel.c0 = 0 ∨ fitDen blk Pixel.c1 = 0) :
    regress blk = none := by
  rw [regress, fit_channels, fit_channels]
  rcases h with h | h
  · rw [if_pos h]
  · rw [if_pos h]
    split_ifs <;> rfl

/-- Otherwise the range is the two lines at the least and greatest c0 (R136). -/
theorem regress_of_fits {blk : List Pixel} (h0 : fitDen blk Pixel.c0 ≠ 0) (h1 : fitDen blk Pixel.c1 ≠ 0) :
    let g0 := fitAt blk Pixel.c0 Pixel.c1 ((chanMin Pixel.c0 blk).toNat : Rat)
    let g1 := fitAt blk Pixel.c0 Pixel.c1 ((chanMax Pixel.c0 blk).toNat : Rat)
    regress blk = some
      ⟨⟨chanMin Pixel.c0 blk, channelOf g0, channelOf (fitAt blk Pixel.c1 Pixel.c2 g0)⟩,
       ⟨chanMax Pixel.c0 blk, channelOf g1, channelOf (fitAt blk Pixel.c1 Pixel.c2 g1)⟩⟩ := by
  simp only [regress, fit_channels, if_neg h0, if_neg h1, conv_eq_channelOf]
  rfl

/-- A channel with a fit has two values, so its bounds differ. -/
theorem chanMin_lt_chanMax {blk : List Pixel} {x : Pixel → Byte} (hne : blk ≠ []) (h : fitDen blk x ≠ 0) :
    (chanMin x blk).toNat < (chanMax x blk).toNat := by
  obtain ⟨p, hp⟩ := List.exists_mem_of_ne_nil blk hne
  refine lt_of_le_of_ne (((leastOf_chanMin x hne).2 p hp).trans ((greatestOf_chanMax x hne).2 p hp)) fun heq => h ?_
  exact (fitDen_eq_zero_iff blk x).mpr ((chanMax_eq_chanMin_iff x hne).mp (BitVec.eq_of_toNat_eq heq.symm))

/-! ### The command -/

theorem exec_rangeRegress_of_none {s : State} (hc : configCheck s = none) (hb : blockOk s)
    (h : regress (argBlock s) = none) : exec .rangeRegress s = .next (s.raise .invalidResource) := by
  rw [exec_eq_finish (by decide) (by decide) hc, bodyOf, bodyRangeRegress, blockOperand_bind_of_blockOk _ hb, h]
  rfl

theorem exec_rangeRegress_of_some {s : State} {r : Range} (hc : configCheck s = none) (hb : blockOk s)
    (h : regress (argBlock s) = some r) : exec .rangeRegress s = .next (s.setRange r) := by
  rw [exec_eq_finish (by decide) (by decide) hc, bodyOf, bodyRangeRegress, blockOperand_bind_of_blockOk _ hb, h]
  rfl

end Sys2Proof.Machine

namespace Sys2Proof.Proofs
open Sys2Proof.Machine Sys2Proof.Claims

/-- Settles O24: the model's fits are R135's lines (`fit_channels`), taken at the bounds of c0 (`regress_of_fits`),
which differ where c0 has a fit (`chanMin_lt_chanMax`). -/
theorem rangeRegressFitsTwoLines : Obligations.RangeRegressFitsTwoLines := by
  unfold Obligations.RangeRegressFitsTwoLines
  intro s hc hb
  have hne := argBlock_ne_nil hb
  refine ⟨fun hdeg => exec_rangeRegress_of_none hc hb (regress_of_degenerate hdeg), fun h0 h1 => ?_⟩
  exact ⟨_, _, leastOf_chanMin _ hne, greatestOf_chanMax _ hne, chanMin_lt_chanMax hne h0,
    exec_rangeRegress_of_some hc hb (regress_of_fits h0 h1)⟩

/-- Settles O25: the command raises exactly when a denominator is 0 (`regress_of_degenerate`, `regress_of_fits`), which
is when the channel is constant (`fitDen_eq_zero_iff`). -/
theorem regressFailsExactlyOnConstantChannels : Obligations.RegressFailsExactlyOnConstantChannels := by
  unfold Obligations.RegressFailsExactlyOnConstantChannels
  intro s t hc hb hnone he
  rw [← fitDen_eq_zero_iff, ← fitDen_eq_zero_iff]
  by_cases hdeg : fitDen (argBlock s) Pixel.c0 = 0 ∨ fitDen (argBlock s) Pixel.c1 = 0
  · rw [exec_rangeRegress_of_none hc hb (regress_of_degenerate hdeg), State.raise_of_none _ hnone] at he
    cases he
    exact iff_of_true rfl hdeg
  · obtain ⟨h0, h1⟩ := not_or.mp hdeg
    rw [exec_rangeRegress_of_some hc hb (regress_of_fits h0 h1)] at he
    cases he
    have hkept : s.errCode ≠ some .invalidResource := by simp [hnone]
    exact iff_of_false hkept hdeg

end Sys2Proof.Proofs
end

section
/-! Family 41_quantizer: the pure functions of R151-R154. A reconstructed channel stays between its ends, because the
truncated quotient times an index of at most S never passes the difference. -/

namespace Sys2Proof.Machine
open Sys2Proof.Claims

/-! ### Reconstruction (R153) -/

/-- R153: the truncated steps taken from one end never pass the other. -/
theorem tdiv_mul_between (d : Int) {stepCount k : Nat} (hk : k ≤ stepCount) :
    min 0 d ≤ d.tdiv stepCount * k ∧ d.tdiv stepCount * k ≤ max 0 d := by
  have hupward : ∀ n : Int, 0 ≤ n → 0 ≤ n.tdiv stepCount * k ∧ n.tdiv stepCount * k ≤ n := fun n hn => by
    have hstep : 0 ≤ n.tdiv stepCount := Int.tdiv_nonneg hn (Int.natCast_nonneg _)
    refine ⟨mul_nonneg hstep (Int.natCast_nonneg _), ?_⟩
    calc n.tdiv stepCount * k ≤ n.tdiv stepCount * stepCount := mul_le_mul_of_nonneg_left (by omega) hstep
      _ ≤ n := by
        have hrest : 0 ≤ n.tmod stepCount := Int.tmod_nonneg _ hn
        have hdiv := Int.tdiv_mul_add_tmod n stepCount
        omega
  rcases le_total 0 d with hd | hd
  · have h := hupward d hd
    omega
  · have h := hupward (-d) (by omega)
    rw [Int.neg_tdiv, neg_mul] at h
    omega

theorem dequantChan_reconstructs (mn mx : Byte) {stepCount k : Nat} (hk : k ≤ stepCount) :
    reconstructs stepCount mn mx k (dequantChan stepCount mn mx k) := by
  have hbetween := tdiv_mul_between ((mx.toNat : Int) - mn.toNat) hk
  have hmn := mn.isLt
  have hmx := mx.isLt
  have hvalue : ((dequantChan stepCount mn mx k).toNat : Int) =
      mn.toNat + ((mx.toNat : Int) - mn.toNat).tdiv stepCount * k :=
    ofInt_toNat_of_range (by omega) (by omega)
  exact ⟨hvalue, by omega, by omega⟩

theorem dequant_reconstructsPixel (r : Range) {stepCount k : Nat} (hk : k ≤ stepCount) :
    reconstructsPixel stepCount r.mn r.mx k (dequant stepCount r k) :=
  ⟨dequantChan_reconstructs _ _ hk, dequantChan_reconstructs _ _ hk, dequantChan_reconstructs _ _ hk⟩

/-! ### The index (R152) -/

/-- Against a range of length 0 every pixel has index 0 (R155 a). -/
theorem qindex_of_sq_eq_zero {r : Range} (h : sq r.mx r.mn = 0) (arith : Config.QuantArith) (stepCount : Nat)
    (p : Pixel) : qindex arith stepCount r p = 0 := by
  simp [qindex, h]

theorem qindex_real {r : Range} (h : sq r.mx r.mn ≠ 0) (stepCount : Nat) (p : Pixel) :
    qindex .real stepCount r p = min (isqrt (stepCount * stepCount * sq p r.mn / sq r.mx r.mn)) stepCount := by
  simp [qindex, h]

theorem qindex_f64 {r : Range} (h : sq r.mx r.mn ≠ 0) (stepCount : Nat) (p : Pixel) :
    qindex .f64 stepCount r p = min (roundedIndex 53 stepCount (sq r.mx r.mn) (sq p r.mn)) stepCount := by
  simp only [qindex, if_neg h]
  rfl

theorem qindex_f32 {r : Range} (h : sq r.mx r.mn ≠ 0) (stepCount : Nat) (p : Pixel) :
    qindex .f32 stepCount r p = min (roundedIndex 24 stepCount (sq r.mx r.mn) (sq p r.mn)) stepCount := by
  simp only [qindex, if_neg h]
  rfl

/-- EXACT: the index is the floor of S * sqrt(P) / sqrt(L), clamped to S. -/
theorem qindex_real_floor {r : Range} (h : sq r.mx r.mn ≠ 0) (stepCount : Nat) (p : Pixel) :
    let k := qindex .real stepCount r p
    k * k * sq r.mx r.mn ≤ stepCount * stepCount * sq p r.mn ∧
    (k < stepCount → stepCount * stepCount * sq p r.mn < (k + 1) * (k + 1) * sq r.mx r.mn) := by
  obtain ⟨hfloor, hnext⟩ := isqrt_div_spec (stepCount * stepCount * sq p r.mn) (Nat.pos_of_ne_zero h)
  rw [qindex_real h]
  refine ⟨le_trans ?_ hfloor, fun hlt => ?_⟩
  · have hle := Nat.min_le_left (isqrt (stepCount * stepCount * sq p r.mn / sq r.mx r.mn)) stepCount
    exact Nat.mul_le_mul_right _ (Nat.mul_le_mul hle hle)
  · rw [Nat.min_eq_left (by omega)]
    exact hnext

/-- A pixel at RMIN has index 0 and is reconstructed as it is (R155 b). -/
theorem quantize_of_sq_eq_zero {r : Range} {p : Pixel} (h : sq p r.mn = 0) (arith : Config.QuantArith)
    (stepCount : Nat) :
    qindex arith stepCount r p = 0 ∧ sq (dequant stepCount r (qindex arith stepCount r p)) p = 0 := by
  obtain rfl := sq_eq_zero.mp h
  rw [qindex_zero, dequant_zero]
  exact ⟨rfl, sq_self _⟩

/-! ### The operands -/

theorem pixelOperand_bind_of_pixelOk {s : State} (f : Nat × Nat → State → Result Unit) (hp : pixelOk s) :
    (pixelOperand s).bind f = f (s.ax.toNat, s.ay.toNat) s := by
  rcases pixelOperand_cases s with ⟨h, -⟩ | ⟨-, h⟩
  · rw [h, Result.bind_ok]
  · exact absurd hp h

theorem pixelOperand_bind_of_not_pixelOk {s : State} (f : Nat × Nat → State → Result Unit) (hp : ¬ pixelOk s) :
    (pixelOperand s).bind f = .raised .invalidArgument s := by
  rcases pixelOperand_cases s with ⟨-, h⟩ | ⟨h, -⟩
  · exact absurd h hp
  · rw [h, Result.bind_raised]

theorem indexOperand_bind_of_le {s : State} {k : Nat} (f : Nat → State → Result Unit) (hk : k ≤ s.stepCount) :
    (indexOperand k s).bind f = f k s := by
  rcases indexOperand_cases k s with ⟨h, -⟩ | ⟨-, h⟩
  · rw [h, Result.bind_ok]
  · omega

theorem indexOperand_bind_of_gt {s : State} {k : Nat} (f : Nat → State → Result Unit) (hk : s.stepCount < k) :
    (indexOperand k s).bind f = .raised .invalidArgument s := by
  rcases indexOperand_cases k s with ⟨-, h⟩ | ⟨h, -⟩
  · omega
  · rw [h, Result.bind_raised]

/-! ### The commands (R156-R158) -/

/-- The index QUANTIZE writes for its pixel operand (R156). -/
def argQindex (s : State) : Nat := qindex s.params.quantArith s.stepCount s.range (s.pix s.ax.toNat s.ay.toNat)

theorem exec_quantize_of_pixelOk {s : State} (hc : configCheck s = none) (hp : pixelOk s) :
    exec .quantize s = .next { s with
      resIdx := BitVec.ofNat 8 (argQindex s)
      resPix := dequant s.stepCount s.range (argQindex s)
      resErr := BitVec.ofNat 32 (sq (dequant s.stepCount s.range (argQindex s)) (s.pix s.ax.toNat s.ay.toNat)) } := by
  rw [exec_eq_finish (by decide) (by decide) hc, bodyOf, bodyQuantize, pixelOperand_bind_of_pixelOk _ hp]
  rfl

theorem exec_quantize_of_not_pixelOk {s : State} (hc : configCheck s = none) (hp : ¬ pixelOk s) :
    exec .quantize s = .next (s.raise .invalidArgument) := by
  rw [exec_eq_finish (by decide) (by decide) hc, bodyOf, bodyQuantize, pixelOperand_bind_of_not_pixelOk _ hp,
    Result.finish_raised]

theorem exec_dequantize_of_le {s : State} {k : Nat} (hc : configCheck s = none) (hk : k ≤ s.stepCount) :
    exec (.dequantize k) s = .next { s with resPix := dequant s.stepCount s.range k } := by
  rw [exec_eq_finish (i := .dequantize k) nofun nofun hc, bodyOf, bodyDequantize,
    indexOperand_bind_of_le _ hk, Result.finish_ok]

theorem exec_dequantize_of_gt {s : State} {k : Nat} (hc : configCheck s = none) (hk : s.stepCount < k) :
    exec (.dequantize k) s = .next (s.raise .invalidArgument) := by
  rw [exec_eq_finish (i := .dequantize k) nofun nofun hc, bodyOf, bodyDequantize,
    indexOperand_bind_of_gt _ hk, Result.finish_raised]

theorem exec_dequantizeSt_of_le {s : State} {k : Nat} (hc : configCheck s = none) (hk : k ≤ s.stepCount)
    (hp : pixelOk s) : exec (.dequantizeSt k) s = .next (State.pixWrite
      { s with resPix := dequant s.stepCount s.range k } s.ax.toNat s.ay.toNat (dequant s.stepCount s.range k)) := by
  rw [exec_eq_finish (i := .dequantizeSt k) nofun nofun hc, bodyOf, bodyDequantizeSt, indexOperand_bind_of_le _ hk,
    pixelOperand_bind_of_pixelOk _ hp, Result.finish_ok]

theorem exec_dequantizeSt_of_illegal {s : State} {k : Nat} (hc : configCheck s = none)
    (h : s.stepCount < k ∨ ¬ pixelOk s) : exec (.dequantizeSt k) s = .next (s.raise .invalidArgument) := by
  rw [exec_eq_finish (i := .dequantizeSt k) nofun nofun hc, bodyOf, bodyDequantizeSt]
  by_cases hk : s.stepCount < k
  · rw [indexOperand_bind_of_gt _ hk, Result.finish_raised]
  · rw [indexOperand_bind_of_le _ (Nat.le_of_not_lt hk), pixelOperand_bind_of_not_pixelOk _ (h.resolve_left hk),
      Result.finish_raised]

end Sys2Proof.Machine

namespace Sys2Proof.Proofs
open Sys2Proof.Machine Sys2Proof.Claims

/-- Settles O26: the index is at most S (`qindex_le`), 0 on a range or a pixel difference of length 0, and otherwise
what its arithmetic says (`qindex_real_floor`, `qindex_f64`, `qindex_f32`); the pixel is R153's for it. -/
theorem quantizeWritesIndexPixelAndError : Obligations.QuantizeWritesIndexPixelAndError := by
  unfold Obligations.QuantizeWritesIndexPixelAndError
  intro s hc
  refine ⟨exec_quantize_of_not_pixelOk hc, fun hp => ?_⟩
  have hk : argQindex s ≤ s.stepCount := qindex_le _ _ _ _
  refine ⟨argQindex s, _, exec_quantize_of_pixelOk hc hp, hk, hk.trans_lt (configOk_of_none hc).stepCount_lt,
    sq_le _ _, dequant_reconstructsPixel s.range hk, ?_, ?_, ?_, ?_, ?_⟩
  · exact fun hl => qindex_of_sq_eq_zero (r := s.range) hl _ _ _
  · exact fun he => quantize_of_sq_eq_zero (r := s.range) he _ _
  · intro hreal hl
    rw [argQindex, hreal]
    exact qindex_real_floor (r := s.range) hl _ _
  · intro h64 hl
    rw [argQindex, h64]
    exact qindex_f64 (r := s.range) hl _ _
  · intro h32 hl
    rw [argQindex, h32]
    exact qindex_f32 (r := s.range) hl _ _

/-- Settles O29: the pixel is the model's reconstruction, whose channels are R153's and stay between the range's
(`dequant_reconstructsPixel`). -/
theorem dequantizeReconstructs : Obligations.DequantizeReconstructs := by
  unfold Obligations.DequantizeReconstructs
  exact fun s k hc => ⟨exec_dequantize_of_gt hc, fun hk =>
    ⟨_, exec_dequantize_of_le hc hk, dequant_reconstructsPixel s.range hk⟩⟩

/-- Settles O30: the reconstructed pixel is stored by one pixel write, which changes its three bytes only
(`pixByte_pixWrite`). -/
theorem dequantizeStStoresThreeBytes : Obligations.DequantizeStStoresThreeBytes := by
  unfold Obligations.DequantizeStStoresThreeBytes
  exact fun s k hc => ⟨exec_dequantizeSt_of_illegal hc, fun hk hp =>
    ⟨_, _, exec_dequantizeSt_of_le hc hk hp, dequant_reconstructsPixel s.range hk,
      fun a => State.pixByte_pixWrite s s.ax.toNat s.ay.toNat a (dequant s.stepCount s.range k)⟩⟩

end Sys2Proof.Proofs
end

section
/-! Family 41_quantizer: the rounding of the float modes (R152, G2). The scale of each operation gives its operand the
width of the significand, and rounding to the nearer neighbour then stays within half a unit. -/

namespace Sys2Proof.Machine

/-! ### The square root -/

/-- A number whose floor root has b bits lies between 4^(b-1) and 4^b. -/
theorem isqrt_bits {n : Nat} (hn : 0 < n) :
    2 ^ (2 * (isqrt n).log2) ≤ n ∧ n < 2 ^ (2 * ((isqrt n).log2 + 1)) := by
  obtain ⟨hlo, hhi⟩ := isqrt_spec n
  have hroot : isqrt n ≠ 0 := Nat.ne_of_gt (le_isqrt_iff.mpr hn)
  have hbits : 2 ^ (isqrt n).log2 ≤ isqrt n := Nat.log2_self_le hroot
  have hnext : isqrt n + 1 ≤ 2 ^ ((isqrt n).log2 + 1) := Nat.lt_log2_self
  rw [two_mul, two_mul, Nat.pow_add, Nat.pow_add 2 (_ + 1)]
  exact ⟨(Nat.mul_le_mul hbits hbits).trans hlo, hhi.trans_le (Nat.mul_le_mul hnext hnext)⟩

/-- A number of 2p bits, or one fewer, has a floor root of p bits. -/
theorem isqrt_mem_significand {p m : Nat} (hlo : 2 ^ (2 * (p - 1)) ≤ m) (hhi : m < 2 ^ (2 * p)) :
    2 ^ (p - 1) ≤ isqrt m ∧ isqrt m < 2 ^ p := by
  refine ⟨le_isqrt_iff.mpr ?_, Nat.lt_of_not_le fun h => ?_⟩
  · rwa [← Nat.pow_add, ← two_mul]
  · have := le_isqrt_iff.mp h
    rw [← Nat.pow_add, ← two_mul] at this
    omega

/-- The floor root, or the next number where the root lies past their middle. -/
def nearestRoot (m : Nat) : Nat := if isqrt m < m - isqrt m * isqrt m then isqrt m + 1 else isqrt m

theorem nearestRoot_mem (m : Nat) : isqrt m ≤ nearestRoot m ∧ nearestRoot m ≤ isqrt m + 1 := by
  rw [nearestRoot]
  split <;> omega

/-- The middle of two numbers is no root of a number, so the nearest one is strictly nearer than half a unit. -/
theorem nearestRoot_nearest {m : Nat} (hm : 0 < m) :
    (2 * nearestRoot m - 1) * (2 * nearestRoot m - 1) < 4 * m ∧
    4 * m < (2 * nearestRoot m + 1) * (2 * nearestRoot m + 1) := by
  obtain ⟨hlo, hhi⟩ := isqrt_spec m
  have hroot : 1 ≤ isqrt m := le_isqrt_iff.mpr hm
  rw [nearestRoot]
  generalize isqrt m = q at *
  obtain ⟨r, rfl⟩ := Nat.exists_eq_add_of_le' hroot
  split
  · next h =>
    have hpast : (r + 1) * (r + 1) + (r + 1) < m := by omega
    rw [show 2 * (r + 1 + 1) - 1 = 2 * r + 3 by omega]
    constructor <;> linarith
  · next h =>
    have hbefore : m ≤ (r + 1) * (r + 1) + (r + 1) := by omega
    rw [show 2 * (r + 1) - 1 = 2 * r + 1 by omega]
    constructor <;> linarith

/-- R152's root: scaled by 2^t, which gives the floor root p bits, and taken to the nearest number. -/
theorem sqrtRnd_eq {n : Nat} (hn : 0 < n) (p : Nat) :
    let t := p - ((isqrt n).log2 + 1)
    sqrtRnd p n = ⟨nearestRoot (n * 2 ^ (2 * t)), 2 ^ t⟩ := by
  rw [sqrtRnd, if_neg (Nat.ne_of_gt hn)]
  rfl

/-- The scale of `sqrtRnd` gives a root of at most p bits exactly p bits. -/
theorem scaled_root_significand {p n : Nat} (hn : 0 < n) (hp : n < 2 ^ (2 * p)) :
    let m := n * 2 ^ (2 * (p - ((isqrt n).log2 + 1)))
    2 ^ (2 * (p - 1)) ≤ m ∧ m < 2 ^ (2 * p) := by
  obtain ⟨hlo, hhi⟩ := isqrt_bits hn
  have hbits : (isqrt n).log2 < p := by
    have := (Nat.pow_lt_pow_iff_right (by omega : 1 < 2)).mp (hlo.trans_lt hp)
    omega
  constructor
  · calc 2 ^ (2 * (p - 1)) = 2 ^ (2 * (isqrt n).log2) * 2 ^ (2 * (p - ((isqrt n).log2 + 1))) := by
          rw [← Nat.pow_add]
          congr 1
          omega
      _ ≤ _ := Nat.mul_le_mul_right _ hlo
  · calc _ < 2 ^ (2 * ((isqrt n).log2 + 1)) * 2 ^ (2 * (p - ((isqrt n).log2 + 1))) :=
          Nat.mul_lt_mul_of_pos_right hhi (Nat.two_pow_pos _)
      _ = 2 ^ (2 * p) := by
          rw [← Nat.pow_add]
          congr 1
          omega

/-! ### The quotient -/

/-- `n / d` to the nearest number, to the even one on a tie. -/
def nearestEven (n d : Nat) : Nat :=
  if d < 2 * (n % d) ∨ (2 * (n % d) = d ∧ n / d % 2 = 1) then n / d + 1 else n / d

theorem nearestEven_mem (n d : Nat) : n / d ≤ nearestEven n d ∧ nearestEven n d ≤ n / d + 1 := by
  rw [nearestEven]
  split <;> omega

theorem nearestEven_nearest {n d : Nat} (hd : 0 < d) :
    2 * n ≤ (2 * nearestEven n d + 1) * d ∧ 2 * nearestEven n d * d ≤ 2 * n + d ∧
    ((2 * n = (2 * nearestEven n d + 1) * d ∨ 2 * nearestEven n d * d = 2 * n + d) → nearestEven n d % 2 = 0) := by
  have hdiv : n / d * d + n % d = n := Nat.div_add_mod' n d
  have hmod : n % d < d := Nat.mod_lt n hd
  rw [nearestEven]
  generalize n / d = q at *
  split <;> simp only [Nat.add_mul, Nat.mul_add, Nat.mul_assoc, Nat.one_mul, Nat.mul_one] <;> omega

/-- The scale of `divRnd` gives a quotient of p bits or one more. -/
theorem scaled_quotient_bounds {p num den : Nat} (hp : 0 < p) (hnum : 0 < num) (hden : 0 < den) :
    let n := num * 2 ^ (p + den.log2 - num.log2)
    let d := den * 2 ^ (num.log2 - (p + den.log2))
    2 ^ (p - 1) * d ≤ n ∧ n < 2 ^ (p + 1) * d := by
  intro n d
  have hnumLo : 2 ^ num.log2 ≤ num := Nat.log2_self_le (Nat.ne_of_gt hnum)
  have hnumHi : num < 2 ^ (num.log2 + 1) := Nat.lt_log2_self
  have hdenLo : 2 ^ den.log2 ≤ den := Nat.log2_self_le (Nat.ne_of_gt hden)
  have hdenHi : den ≤ 2 ^ (den.log2 + 1) := Nat.le_of_lt Nat.lt_log2_self
  constructor
  · calc 2 ^ (p - 1) * d ≤ 2 ^ (p - 1) * (2 ^ (den.log2 + 1) * 2 ^ (num.log2 - (p + den.log2))) :=
          Nat.mul_le_mul_left _ (Nat.mul_le_mul_right _ hdenHi)
      _ = 2 ^ num.log2 * 2 ^ (p + den.log2 - num.log2) := by
          simp only [← Nat.pow_add]
          congr 1
          omega
      _ ≤ n := Nat.mul_le_mul_right _ hnumLo
  · calc n < 2 ^ (num.log2 + 1) * 2 ^ (p + den.log2 - num.log2) :=
          Nat.mul_lt_mul_of_pos_right hnumHi (Nat.two_pow_pos _)
      _ = 2 ^ (p + 1) * (2 ^ den.log2 * 2 ^ (num.log2 - (p + den.log2))) := by
          simp only [← Nat.pow_add]
          congr 1
          omega
      _ ≤ 2 ^ (p + 1) * d := Nat.mul_le_mul_left _ (Nat.mul_le_mul_right _ hdenLo)

/-- R152's quotient: the divisor, scaled and doubled if the quotient has a bit too many, leaves a quotient of p bits,
which is taken to the nearest number. -/
theorem divRnd_eq {p num den : Nat} (hp : 0 < p) (hnum : 0 < num) (hden : 0 < den) :
    ∃ a b, divRnd p num den = ⟨nearestEven (num * 2 ^ a) (den * 2 ^ b) * 2 ^ b, 2 ^ a⟩ ∧
      2 ^ (p - 1) ≤ num * 2 ^ a / (den * 2 ^ b) ∧ num * 2 ^ a / (den * 2 ^ b) < 2 ^ p := by
  obtain ⟨hlo, hhi⟩ := scaled_quotient_bounds hp hnum hden
  rw [divRnd, if_neg (Nat.ne_of_gt hnum)]
  generalize p + den.log2 - num.log2 = a at *
  generalize num.log2 - (p + den.log2) = b at *
  have hpos : 0 < den * 2 ^ b := Nat.mul_pos hden (Nat.two_pow_pos b)
  by_cases hfits : num * 2 ^ a / (den * 2 ^ b) < 2 ^ p
  · refine ⟨a, b, ?_, (Nat.le_div_iff_mul_le hpos).mpr hlo, hfits⟩
    simp only [if_pos hfits, Nat.mul_one]
    rfl
  · have hdouble : den * 2 ^ (b + 1) = den * 2 ^ b * 2 := by rw [Nat.pow_succ, Nat.mul_assoc]
    have hhalf : num * 2 ^ a / (den * 2 ^ (b + 1)) = num * 2 ^ a / (den * 2 ^ b) / 2 := by
      rw [hdouble, Nat.div_div_eq_div_mul]
    have hquot : num * 2 ^ a / (den * 2 ^ b) < 2 ^ (p + 1) := (Nat.div_lt_iff_lt_mul hpos).mpr hhi
    have hp2 : 2 ^ (p - 1) * 2 = 2 ^ p := Nat.two_pow_pred_mul_two hp
    refine ⟨a, b + 1, ?_, by omega, by omega⟩
    simp only [if_neg hfits, ← hdouble, ← Nat.pow_succ]
    rfl

end Sys2Proof.Machine

namespace Sys2Proof.Proofs
open Sys2Proof.Machine Sys2Proof.Claims

/-- Settles O27: the root is scaled to p bits (`scaled_root_significand`) and taken to the nearest number, from which
it is less than half a unit away (`nearestRoot_nearest`). -/
theorem floatSqrtIsNearest : Obligations.FloatSqrtIsNearest := by
  unfold Obligations.FloatSqrtIsNearest
  intro p n hp hn hmax
  have hbits : n < 2 ^ (2 * p) := by
    rcases hp with rfl | rfl <;> omega
  obtain ⟨hlo, hhi⟩ := scaled_root_significand hn hbits
  rw [sqrtRnd_eq hn]
  generalize p - ((isqrt n).log2 + 1) = t at *
  obtain ⟨hrootLo, hrootHi⟩ := isqrt_mem_significand hlo hhi
  obtain ⟨hleft, hright⟩ := nearestRoot_nearest ((Nat.two_pow_pos _).trans_le hlo)
  obtain ⟨hmemLo, hmemHi⟩ := nearestRoot_mem (n * 2 ^ (2 * t))
  have hscale : 4 * n * (2 ^ t * 2 ^ t) = 4 * (n * 2 ^ (2 * t)) := by rw [← Nat.pow_add, ← two_mul, Nat.mul_assoc]
  refine ⟨hrootLo.trans hmemLo, hmemHi.trans hrootHi, ⟨t, rfl⟩, ?_, ?_⟩
  · exact hscale ▸ hleft
  · exact hscale ▸ hright

/-- Settles O28: the quotient is scaled to p bits (`divRnd_eq`) and taken to the nearest number, to the even one on a
tie (`nearestEven_nearest`). -/
theorem floatQuotientIsNearestEven : Obligations.FloatQuotientIsNearestEven := by
  unfold Obligations.FloatQuotientIsNearestEven
  intro p num den hp hnum hden
  obtain ⟨a, b, heq, hlo, hhi⟩ := divRnd_eq hp hnum hden
  obtain ⟨hmemLo, hmemHi⟩ := nearestEven_mem (num * 2 ^ a) (den * 2 ^ b)
  exact ⟨_, a, b, heq, hlo.trans hmemLo, hmemHi.trans hhi,
    nearestEven_nearest (Nat.mul_pos hden (Nat.two_pow_pos b))⟩

end Sys2Proof.Proofs
end

section
/-! Family 42_macroblock_selector: the geometry of a macroblock (R170). The microblocks by their position in the list,
and that each pixel of the macroblock is in one of them. -/

namespace Sys2Proof.Machine

theorem mw_eq (s : State) (shift : Nat) : s.mw shift = max 2 (s.bw.toNat / 2 ^ shift) :=
  congrArg (max 2) (ushiftRight_eq_div _ _)

theorem mh_eq (s : State) (shift : Nat) : s.mh shift = max 2 (s.bh.toNat / 2 ^ shift) :=
  congrArg (max 2) (ushiftRight_eq_div _ _)

/-- A pixel's place in raster order is below the number of pixels (R11). -/
theorem raster_lt {w h x y : Nat} (hx : x < w) (hy : y < h) : y * w + x < w * h := by
  calc y * w + x < (y + 1) * w := by rw [Nat.succ_mul]; omega
    _ ≤ h * w := Nat.mul_le_mul_right _ hy
    _ = w * h := Nat.mul_comm _ _

theorem getElem?_micro (s : State) (mb : Macroblock) (shift : Nat) {mx my : Nat}
    (hx : mx < s.bw.toNat / s.mw shift) (hy : my < s.bh.toNat / s.mh shift) :
    (s.micro mb shift)[my * (s.bw.toNat / s.mw shift) + mx]? =
      some ⟨mb.ox + mx * s.mw shift, mb.oy + my * s.mh shift, s.mw shift, s.mh shift⟩ :=
  getElem?_flatMap_range _ _
    (fun j i => Block.mk (mb.ox + i * s.mw shift) (mb.oy + j * s.mh shift) (s.mw shift) (s.mh shift)) hx hy

theorem micro_sides {s : State} {mb : Macroblock} {shift : Nat} {b : Block} (hb : b ∈ s.micro mb shift) :
    b.w = s.mw shift ∧ b.h = s.mh shift := by
  obtain ⟨row, col, -, -, rfl⟩ := mem_micro.mp hb
  exact ⟨rfl, rfl⟩

/-- Microblocks that share a pixel are the same. -/
theorem micro_eq_of_shared_pixel {s : State} {mb : Macroblock} {shift : Nat} {b b' : Block} {x y : Nat}
    (hb : b ∈ s.micro mb shift) (hb' : b' ∈ s.micro mb shift) (h : (x, y) ∈ b.coords) (h' : (x, y) ∈ b'.coords) :
    b = b' := by
  obtain ⟨row, col, -, -, rfl⟩ := mem_micro.mp hb
  obtain ⟨row', col', -, -, rfl⟩ := mem_micro.mp hb'
  obtain ⟨hx, hx2, hy, hy2⟩ := Block.mem_coords.mp h
  obtain ⟨hx', hx2', hy', hy2'⟩ := Block.mem_coords.mp h'
  obtain rfl := cell_unique hx hx2 hx' hx2'
  obtain rfl := cell_unique hy hy2 hy' hy2'
  rfl

/-- Microblocks at different columns or rows have different corners. -/
theorem micro_nodup (s : State) (mb : Macroblock) (shift : Nat) : (s.micro mb shift).Nodup := by
  have hw := mw_pos s shift
  have hh := mh_pos s shift
  refine List.nodup_flatMap.mpr ⟨fun my _ => List.nodup_range.map fun i i' h => ?_,
    List.nodup_range.imp fun {my my'} hne => ?_⟩
  · simp only [Block.mk.injEq, Nat.add_left_cancel_iff] at h
    exact Nat.eq_of_mul_eq_mul_right hw h.1
  · simp only [Function.onFun, List.disjoint_left, List.mem_map]
    rintro b ⟨i, -, rfl⟩ ⟨i', -, h⟩
    simp only [Block.mk.injEq, Nat.add_left_cancel_iff] at h
    exact hne (Nat.eq_of_mul_eq_mul_right hh h.2.1).symm

theorem micro_coords_nodup (s : State) (mb : Macroblock) (shift : Nat) :
    ((s.micro mb shift).flatMap Block.coords).Nodup := by
  refine List.nodup_flatMap.mpr ⟨fun b _ => coords_nodup b,
    (micro_nodup s mb shift).pairwise_of_forall_ne fun b hb b' hb' hne => ?_⟩
  exact List.disjoint_left.mpr fun ⟨x, y⟩ h h' => hne (micro_eq_of_shared_pixel hb hb' h h')

/-- The microblocks cover their macroblock, and no other pixel. -/
theorem mem_micro_coords {s : State} (c : ConfigOk s) {mb : Macroblock} {shift x y : Nat} :
    (x, y) ∈ (s.micro mb shift).flatMap Block.coords ↔
      mb.ox ≤ x ∧ x < mb.ox + s.bw.toNat ∧ mb.oy ≤ y ∧ y < mb.oy + s.bh.toNat := by
  rw [List.mem_flatMap]
  constructor
  · rintro ⟨b, hb, h⟩
    exact micro_inside c hb h
  · rintro ⟨hx, hx2, hy, hy2⟩
    obtain ⟨col, hcol, hleft, hright⟩ := cell_split (c.mw_dvd shift) (mw_pos s shift) ⟨hx, hx2⟩
    obtain ⟨row, hrow, htop, hbottom⟩ := cell_split (c.mh_dvd shift) (mh_pos s shift) ⟨hy, hy2⟩
    exact ⟨_, mem_micro.mpr ⟨row, col, hrow, hcol, rfl⟩, Block.mem_coords.mpr ⟨hleft, hright, htop, hbottom⟩⟩

/-- A microblock's pixel by its offsets from the macroblock's corner. -/
theorem micro_offsets {s : State} (c : ConfigOk s) {mb : Macroblock} {shift : Nat} {b : Block} {x y : Nat}
    (hb : b ∈ s.micro mb shift) (hxy : (x, y) ∈ b.coords) :
    ∃ i, i < s.bw.toNat ∧ ∃ j, j < s.bh.toNat ∧ x = mb.ox + i ∧ y = mb.oy + j := by
  obtain ⟨hx, hx2, hy, hy2⟩ := micro_inside c hb hxy
  exact ⟨x - mb.ox, by omega, y - mb.oy, by omega, by omega, by omega⟩

end Sys2Proof.Machine

namespace Sys2Proof.Proofs
open Sys2Proof.Machine

/-- Settles O44: the list's positions (`getElem?_micro`), the microblocks' disjointness (`micro_coords_nodup`) and
their cover of the macroblock (`mem_micro_coords`). -/
theorem microblocksTileTheMacroblock : Obligations.MicroblocksTileTheMacroblock := by
  unfold Obligations.MicroblocksTileTheMacroblock
  simp only [← mw_eq, ← mh_eq]
  exact ⟨fun s mb shift => ⟨micro_length s mb shift, fun mx my => getElem?_micro s mb shift⟩,
    fun s mb shift hc => ⟨fun b => micro_sides, micro_coords_nodup s mb shift,
      fun x y => mem_micro_coords (configOk_of_none hc)⟩⟩

end Sys2Proof.Proofs
end

section
/-! Family 42_macroblock_selector: what a command may write of TAB and PIXMEM. A code of TAB after a table write, and
the bytes of PIXMEM outside a macroblock, whichever way a command ends. -/

namespace Sys2Proof.Machine
open Sys2Proof.Claims

/-! ### TAB -/

/-- Codes of one byte are told apart by their position in it (R210). -/
theorem mod_four_ne_of_same_byte {m n : Nat} (hne : m ≠ n) (hbyte : m / 4 = n / 4) : m % 4 ≠ n % 4 := by
  omega

/-- A table write sets its macroblock's code and no other (R211). -/
theorem codeWritten_tabWrite (s : State) (n : Nat) {code : Nat} (hcode : code ≤ 3) :
    codeWritten s (s.tabWrite n code) n code := by
  refine ⟨?_, fun m hne => ?_, fun k hk => ?_⟩
  · rw [codeAt, State.tabByte_tabWrite, if_pos rfl, tabField_same _ _ _ hcode]
  · rw [codeAt, State.tabByte_tabWrite]
    split
    · next hbyte =>
      rw [tabField_other _ _ _ _ hcode (mod_four_ne_of_same_byte hne hbyte), codeAt, hbyte]
    · rfl
  · rw [State.tabByte_tabWrite, if_neg hk]

theorem tabByte_raise (s : State) (k : ErrKind) (x : Nat) : (s.raise k).tabByte x = s.tabByte x := by
  rw [State.tabByte, State.tabByte, State.raise_tab, State.raise_tabEpoch]

theorem bodySelectMb_other_codes (s : State) {n : Nat} (hn : n ≠ argIndex s) :
    codeAt (bodySelectMb s).state n = codeAt s n := by
  rcases bodySelectMb_state s with e | ⟨-, -, a, f, o, -, e | ⟨e0, e1, e2, x, er, sel, hsel, e⟩⟩ <;> rw [e]
  · rfl
  · obtain ⟨-, hother, -⟩ := codeWritten_tabWrite s (argIndex s) (code := sel) (by omega)
    exact hother n hn

theorem bodySizetabWrite_other_codes (k : Nat) (s : State) {n : Nat} (hn : n ≠ argIndex s) :
    codeAt (bodySizetabWrite k s).state n = codeAt s n := by
  rcases bodySizetabWrite_state k s with e | ⟨-, -, hk, e⟩ <;> rw [e]
  obtain ⟨-, hother, -⟩ := codeWritten_tabWrite s (argIndex s) (code := k) (by omega)
  exact hother n hn

theorem bodyOf_other_codes {i : Instr} (hi : i.opcode.toNat ∈ [0x31, 0x40]) (s : State) {n : Nat}
    (hn : n ≠ argIndex s) : codeAt (bodyOf i s).state n = codeAt s n := by
  cases i with
  | sizetabWrite k => exact bodySizetabWrite_other_codes k s hn
  | selectMb => exact bodySelectMb_other_codes s hn
  | _ => simp [Instr.opcode] at hi

/-- A load of at most T bytes leaves those from T up (R212, R215). -/
theorem tabByte_tabLoad_beyond (s : State) {bs : List Byte} (hbs : bs.length ≤ s.tabLen) {k : Nat}
    (hk : tableLength s ≤ k) : (s.tabLoad bs).tabByte k = s.tabByte k := by
  rw [State.tabByte_tabLoad, if_neg]
  exact Nat.not_lt.mpr (hbs.trans hk)

theorem bodyOf_tab_beyond {i : Instr} (hi : i.opcode.toNat ∈ [0x30, 0x33]) (s : State) {k : Nat}
    (hk : tableLength s ≤ k) : (bodyOf i s).state.tabByte k = s.tabByte k := by
  cases i with
  | sizetabClear => exact tabByte_tabLoad_beyond s (List.length_replicate ..).le hk
  | sizetabLoad =>
    obtain ⟨bs, inp, e, hbs, -⟩ := bodySizetabLoad_state s
    rw [bodyOf, e]
    exact tabByte_tabLoad_beyond s hbs hk
  | _ => simp [Instr.opcode] at hi

/-! ### PIXMEM -/

theorem pixByte_raise (s : State) (k : ErrKind) (a : Nat) : (s.raise k).pixByte a = s.pixByte a := by
  rw [State.pixByte, State.pixByte, State.raise_pixmem]

/-- A pixel of a microblock of the argument has its bytes in the macroblock. -/
theorem inMacroblock_of_micro {s : State} (c : ConfigOk s) {n shift a : Nat} {b : Block} {x y : Nat}
    (hb : b ∈ s.micro ⟨s.ax.toNat * s.bw.toNat, s.ay.toNat * s.bh.toNat, n⟩ shift) (hxy : (x, y) ∈ b.coords)
    (hlo : s.pixAddr x y ≤ a) (hhi : a < s.pixAddr x y + 3) : inMacroblock s a := by
  obtain ⟨i, hi, j, hj, rfl, rfl⟩ := micro_offsets c hb hxy
  exact ⟨i, j, hi, hj, hlo, hhi⟩

theorem bodyDecodeMb_outside {s : State} (c : ConfigOk s) {a : Nat} (ha : ¬ inMacroblock s a) :
    (bodyDecodeMb s).state.pixByte a = s.pixByte a := by
  rcases bodyDecodeMb_state s with e | ⟨-, -, x, m, i, e, -, hm⟩ <;> rw [e]
  have hget : m.get? a = s.pixmem.get? a := by
    refine hm (fun m => m.get? a = s.pixmem.get? a) (fun b hb p hp m v hkept => ?_) rfl
    rw [Memory.get?_setAll, if_neg, hkept]
    exact fun ⟨hlo, hhi⟩ => ha (inMacroblock_of_micro c hb hp hlo hhi)
  simp only [State.pixByte, hget]

/-- However it ends, DECODE_MB changes no byte outside its macroblock (R178). -/
theorem exec_decodeMb_outside {s t : State} (hc : configCheck s = none) (e : exec .decodeMb s = .next t) {a : Nat}
    (ha : ¬ inMacroblock s a) : t.pixByte a = s.pixByte a :=
  exec_keeps (P := fun u => u.pixByte a = s.pixByte a) e rfl (bodyDecodeMb_outside (configOk_of_none hc) ha)
    fun u k h => (pixByte_raise u k a).trans h

theorem bodyDequantizeSt_outside (k : Nat) (s : State) {a : Nat}
    (ha : a < s.pixAddr s.ax.toNat s.ay.toNat ∨ s.pixAddr s.ax.toNat s.ay.toNat + 2 < a) :
    (bodyDequantizeSt k s).state.pixByte a = s.pixByte a := by
  rcases bodyDequantizeSt_state k s with e | ⟨-, -, p, e⟩ <;> rw [e]
  exact State.pixByte_pixWrite_outside { s with resPix := p } p ha

end Sys2Proof.Machine

namespace Sys2Proof.Proofs
open Sys2Proof.Machine Sys2Proof.Claims

/-- Settles O56: a command's body writes TAB by one table write in its macroblock's field (`bodyOf_other_codes`), or
loads at most T bytes (`bodyOf_tab_beyond`), and recording an error writes none. -/
theorem tableWritesStayInTheirField : Obligations.TableWritesStayInTheirField := by
  unfold Obligations.TableWritesStayInTheirField
  intro i s t e
  constructor
  · intro hi n hn
    exact exec_keeps (P := fun u => codeAt u n = codeAt s n) e rfl (bodyOf_other_codes hi s hn)
      fun u k h => by rwa [codeAt, tabByte_raise]
  · intro hi k hk
    exact exec_keeps (P := fun u => u.tabByte k = s.tabByte k) e rfl (bodyOf_tab_beyond hi s hk)
      fun u kind h => (tabByte_raise u kind k).trans h

/-- Settles O57: DECODE_MB writes pixels of its macroblock's microblocks only (`exec_decodeMb_outside`), and
DEQUANTIZE_ST one pixel (`bodyDequantizeSt_outside`). -/
theorem pixelWritesStayInTheirBlock : Obligations.PixelWritesStayInTheirBlock := by
  unfold Obligations.PixelWritesStayInTheirBlock
  intro s t hc
  refine ⟨fun e _ a ha => exec_decodeMb_outside hc e ha, fun k e a ha => ?_⟩
  exact exec_keeps (P := fun u => u.pixByte a = s.pixByte a) e rfl (bodyDequantizeSt_outside k s ha)
    fun u kind h => (pixByte_raise u kind a).trans h

end Sys2Proof.Proofs
end

section
/-! Family 42_macroblock_selector: the encoder's record of a block and a trial (R171-R173). The control bytes of a
range in arithmetic, and the candidate the encoder takes. -/

namespace Sys2Proof.Machine
open Sys2Proof.Claims

/-- A control word is the sum of its fields' weights (R190). -/
theorem pack565_toNat (p : Pixel) : (pack565 p).toNat = word565 p := by
  have h0 := p.c0.isLt
  have h1 := p.c1.isLt
  have h2 := p.c2.isLt
  simp only [pack565, word565, append_toNat, BitVec.extractLsb'_toNat, Nat.shiftRight_eq_div_pow]
  omega

theorem half_lowByte (v : Half) : v.extractLsb' 0 8 = BitVec.ofNat 8 (v.toNat % 256) :=
  BitVec.eq_of_toNat_eq (by simp [BitVec.extractLsb'_toNat])

theorem half_highByte (v : Half) : v.extractLsb' 8 8 = BitVec.ofNat 8 (v.toNat / 256) :=
  BitVec.eq_of_toNat_eq (by simp [BitVec.extractLsb'_toNat, Nat.shiftRight_eq_div_pow])

theorem ctrlBytes_eq_controlBytes (g : Range) : ctrlBytes g = controlBytes g.mn g.mx := by
  simp only [ctrlBytes, controlBytes, half_lowByte, half_highByte, pack565_toNat]

/-- The record holds the range that `chooseRange` takes: its control bytes and the block's indices (R171). -/
theorem encodeMicro_eq (s : State) (b : Block) :
    let S := 2 ^ s.qsb.toNat - 1
    let g := chooseRange s.params S (s.block b)
    s.encodeMicro b = (controlBytes g.mn g.mx ++ packIndices s.qsb.toNat
      ((s.block b).map (qindex s.params.quantArith S (encodeRange s.params.encRange g))),
      blockError s.params.quantArith S (encodeRange s.params.encRange g) (s.block b)) := by
  intro S g
  rw [← ctrlBytes_eq_controlBytes]
  rfl

/-- The chosen range is the first candidate with the least error (R171, R173). -/
theorem chooseRange_isFirstLeast (p : Config.Params) (S : Nat) (blk : List Pixel) :
    let err := fun g => blockError p.quantArith S (encodeRange p.encRange g) blk
    ∃ i : Nat, (minmax blk :: otherRanges p blk)[i]? = some (chooseRange p S blk) ∧
      ∀ (j : Nat) (c : Range), (minmax blk :: otherRanges p blk)[j]? = some c →
        err (chooseRange p S blk) ≤ err c ∧ (j < i → err (chooseRange p S blk) < err c) :=
  leastError_isFirstLeast _ _ _

/-- The length of a trial: its microblocks' records have one length (R172, R115). -/
theorem trial_length (s : State) (mb : Macroblock) (shift : Nat) :
    (s.trial mb shift).1.length = s.bw.toNat / s.mw shift * (s.bh.toNat / s.mh shift) *
      (4 + (s.mw shift * s.mh shift * s.qsb.toNat + 7) / 8) := by
  rw [trial_eq, length_flatten_const _ (4 + (s.mw shift * s.mh shift * s.qsb.toNat + 7) / 8), List.length_map,
    micro_length]
  simp only [List.forall_mem_map]
  intro b hb
  obtain ⟨hw, hh⟩ := micro_sides hb
  rw [encodeMicro_length, hw, hh]

end Sys2Proof.Machine

namespace Sys2Proof.Proofs
open Sys2Proof.Machine Sys2Proof.Claims

/-- Settles O45: the record is that of the chosen range (`encodeMicro_eq`), which is the first candidate with the
least error (`chooseRange_isFirstLeast`). -/
theorem encodeMicroTakesTheFirstLeastError : Obligations.EncodeMicroTakesTheFirstLeastError := by
  unfold Obligations.EncodeMicroTakesTheFirstLeastError
  intro s b blk S cand q err
  obtain ⟨i, hi, hfirst⟩ := chooseRange_isFirstLeast s.params S blk
  exact ⟨i, chooseRange s.params S blk, hi, hfirst, encodeMicro_eq s b⟩

/-- Settles O46: the trial's fold is a concatenation and a sum (`trial_eq`), of records of one length
(`trial_length`). -/
theorem trialConcatenatesRecords : Obligations.TrialConcatenatesRecords := by
  unfold Obligations.TrialConcatenatesRecords
  simp only [← mw_eq, ← mh_eq]
  exact fun s mb shift => ⟨congrArg Prod.fst (trial_eq s mb shift), congrArg Prod.snd (trial_eq s mb shift),
    trial_length s mb shift⟩

end Sys2Proof.Proofs
end

section
/-! Family 42_macroblock_selector: SELECT_MB (R174-R176). The state it leaves in each of its endings, the results that
depend on the trials and the packer only, and the trials of a macroblock of one colour. -/

namespace Sys2Proof.Machine
open Sys2Proof.Claims

/-! ### The macroblock operand -/

theorem macroblockOperand_bind_of_macroblockOk {s : State} (f : Macroblock → State → Result Unit)
    (hm : macroblockOk s) : (macroblockOperand s).bind f = f (argMacroblock s) s := by
  rcases macroblockOperand_cases s with ⟨h, -⟩ | ⟨-, h⟩
  · rw [h, Result.bind_ok]
    rfl
  · exact absurd hm h

theorem macroblockOperand_bind_of_not_macroblockOk {s : State} (f : Macroblock → State → Result Unit)
    (hm : ¬ macroblockOk s) : (macroblockOperand s).bind f = .raised .invalidArgument s := by
  rcases macroblockOperand_cases s with ⟨-, h⟩ | ⟨h, -⟩
  · exact absurd h hm
  · rw [h, Result.bind_raised]

/-! ### The endings -/

/-- The shift SELECT_MB chooses for its argument, the trial's bytes, and the table it writes (R174). -/
def argShift (s : State) : Nat := s.selectedShift (argMacroblock s)
def argTrial (s : State) : List Byte := (s.trial (argMacroblock s) (argShift s)).1
def argTab (s : State) : Memory := (s.tabWrite (argIndex s) (argShift s)).tab

theorem argShift_le (s : State) : argShift s ≤ 2 := selectShift_le _ _ _ _

theorem codeWritten_argTab (s : State) : codeWritten s { s with tab := argTab s } (argIndex s) (argShift s) :=
  codeWritten_tabWrite s (argIndex s) ((argShift_le s).trans (by decide))

theorem selectShift_selects (p : Config.Params) (n e0 e1 : Nat) : selects p n e0 e1 (selectShift p n e0 e1) := by
  unfold selectShift
  split
  · next h0 => exact .inl ⟨h0, rfl⟩
  · next h0 =>
    split
    · next h1 => exact .inr (.inl ⟨Nat.lt_of_not_le h0, h1, rfl⟩)
    · next h1 => exact .inr (.inr ⟨Nat.lt_of_not_le h0, Nat.lt_of_not_le h1, rfl⟩)

theorem outAppend_of_room {s : State} {bs : List Byte} (h : outRoom s bs.length) :
    outAppend s bs = ⟨s.out.bytes ++ bs, s.out.cap⟩ := by
  rw [outAppend, List.take_of_length_le (by omega)]

/-- A flush with room appends the pending byte and leaves no code in the packer (R195). -/
theorem flush_of_room {s : State} (h : outRoom s (pendingByte s).length) :
    ∃ a, flush s = .ok () { s with pacc := a, pfill := 0, out := outAppend s (pendingByte s) } ∧
      (s.packerOk → a = 0) := by
  rw [outAppend_of_room h]
  by_cases h0 : s.pfill.toNat = 0
  · have hf : s.pfill = 0 := BitVec.eq_of_toNat_eq h0
    refine ⟨s.pacc, ?_, fun hp => (packerOk_empty hp h0).1⟩
    rw [flush_of_empty h0, pendingByte, if_pos h0, List.append_nil, ← hf]
  · rw [pendingByte, if_neg h0] at h ⊢
    exact ⟨0, (flush_of_pending h0).trans (outWrite_of_room h), fun _ => rfl⟩

/-- The records SELECT_MB writes are those of the state before its flush. -/
theorem recordSelection_of_flushed (s : State) (a : Byte) (o : OutStream) :
    State.recordSelection { s with pacc := a, pfill := 0, out := o } (argMacroblock s) =
      { selected s (argShift s) (argTab s) with pacc := a, out := o } := by
  simp only [State.recordSelection, State.selectedShift, trial_of_flushed]
  rfl

theorem exec_selectMb_of_not_macroblockOk {s : State} (hc : configCheck s = none) (hm : ¬ macroblockOk s) :
    exec .selectMb s = .next (s.raise .invalidArgument) := by
  rw [exec_eq_finish (by decide) (by decide) hc, bodyOf, bodySelectMb, macroblockOperand_bind_of_not_macroblockOk _ hm,
    Result.finish_raised]

theorem exec_selectMb_of_flush_short {s : State} (hc : configCheck s = none) (hm : macroblockOk s)
    (hp : s.pfill.toNat ≠ 0) (hroom : ¬ outRoom s 1) :
    exec .selectMb s = .next ({ s with pacc := 0, pfill := 0 }.raise .executionFailure) := by
  rw [exec_eq_finish (by decide) (by decide) hc, bodyOf, bodySelectMb, macroblockOperand_bind_of_macroblockOk _ hm,
    flush_short hp hroom, Result.bind_raised, Result.finish_raised]

/-- After the flush SELECT_MB is the write of the chosen trial, from the state that holds its records (R174). -/
theorem exec_selectMb_of_flushed {s : State} (hc : configCheck s = none) (hm : macroblockOk s)
    (hroom : outRoom s (pendingByte s).length) :
    ∃ a, (s.packerOk → a = 0) ∧ exec .selectMb s = (outWrite (argTrial s)
      { selected s (argShift s) (argTab s) with pacc := a, out := outAppend s (pendingByte s) }).finish := by
  obtain ⟨a, hf, ha⟩ := flush_of_room hroom
  refine ⟨a, ha, ?_⟩
  rw [exec_eq_finish (by decide) (by decide) hc, bodyOf, bodySelectMb, macroblockOperand_bind_of_macroblockOk _ hm,
    hf, Result.bind_ok, recordSelection_of_flushed]
  simp only [State.selectedShift, trial_of_flushed]
  rfl

/-- SELECT_MB's ending after the flush: the pending byte and the trial are appended, or their first bytes, as many
as fit, with an error (R174). -/
theorem exec_selectMb_endings {s : State} (hc : configCheck s = none) (hm : macroblockOk s)
    (hroom : outRoom s (pendingByte s).length) :
    let bs := pendingByte s ++ argTrial s
    ∃ a, (s.packerOk → a = 0) ∧
      let t := { selected s (argShift s) (argTab s) with pacc := a, out := outAppend s bs }
      exec .selectMb s = if outRoom s bs.length then .next t else .next (t.raise .executionFailure) := by
  intro bs
  obtain ⟨a, ha, e⟩ := exec_selectMb_of_flushed hc hm hroom
  refine ⟨a, ha, ?_⟩
  rw [e, outAppend_of_room hroom]
  have hlen : bs.length = (pendingByte s).length + (argTrial s).length := List.length_append
  split
  · next h =>
    rw [outAppend_of_room h, outWrite_of_room (by simp only [List.length_append]; omega), Result.finish_ok]
    simp only [bs, List.append_assoc]
  · next h =>
    rw [outWrite_of_short (by simp only [List.length_append]; omega), Result.finish_raised, outAppend,
      List.take_append, List.take_of_length_le (by omega), ← List.append_assoc]
    simp only [List.length_append, Nat.sub_sub]

theorem raise_errCode (s : State) (k : ErrKind) : (s.raise k).errCode = s.errCode.or (some k) := by
  cases h : s.errCode with
  | none => rw [State.raise_of_none k h]; rfl
  | some e => rw [State.raise_of_some k (by simp [h]), h]; rfl

/-- What SELECT_MB leaves in OUT, its code of TAB, the error record and the result registers, however its last write
ends. -/
theorem exec_selectMb_results {s t : State} (hc : configCheck s = none) (hm : macroblockOk s)
    (hroom : outRoom s (pendingByte s).length) (e : exec .selectMb s = .next t) :
    t.out = outAppend s (pendingByte s ++ argTrial s) ∧ codeAt t (argIndex s) = argShift s ∧
    t.errCode = (if outRoom s (pendingByte s ++ argTrial s).length then s.errCode
      else s.errCode.or (some .executionFailure)) ∧
    t.resIdx = BitVec.ofNat 8 (argShift s) ∧ t.resErr = saturated (s.trial (argMacroblock s) (argShift s)).2 ∧
    t.errAcc0 = saturated (s.trial (argMacroblock s) 0).2 ∧ t.errAcc1 = saturated (s.trial (argMacroblock s) 1).2 ∧
    t.errAcc2 = saturated (s.trial (argMacroblock s) 2).2 := by
  obtain ⟨a, -, he⟩ := exec_selectMb_endings hc hm hroom
  have hcode := (codeWritten_argTab s).1
  rw [e] at he
  split at he
  · next hfits =>
    cases he
    exact ⟨rfl, hcode, (if_pos hfits).symm, rfl, rfl, rfl, rfl, rfl⟩
  · next hshort =>
    cases he
    rw [if_neg hshort, codeAt, tabByte_raise, raise_errCode, State.raise_out, State.raise_resIdx, State.raise_resErr,
      State.raise_errAcc0, State.raise_errAcc1, State.raise_errAcc2]
    exact ⟨rfl, hcode, rfl, rfl, rfl, rfl, rfl, rfl⟩

/-! ### The trials read the macroblock's pixels only -/

theorem micro_block_congr {s t : State} (c : ConfigOk s) {mb : Macroblock} {shift : Nat} {b : Block}
    (hb : b ∈ s.micro mb shift)
    (hpix : ∀ x, x < s.bw.toNat → ∀ y, y < s.bh.toNat → s.pix (mb.ox + x) (mb.oy + y) = t.pix (mb.ox + x) (mb.oy + y)) :
    s.block b = t.block b := by
  refine List.map_congr_left fun ⟨x, y⟩ hxy => ?_
  obtain ⟨i, hi, j, hj, rfl, rfl⟩ := micro_offsets c hb hxy
  exact hpix i hi j hj

/-! ### A macroblock of one colour -/

/-- The pixels of a block are all of one colour, and there is one. -/
def uniformBlock (blk : List Pixel) (v : Pixel) : Prop := blk ≠ [] ∧ ∀ p ∈ blk, p = v

theorem uniformBlock_of_uniformMacroblock {s : State} (c : ConfigOk s) {v : Pixel} (hv : uniformMacroblock s v)
    {shift : Nat} {b : Block} (hb : b ∈ s.micro (argMacroblock s) shift) : uniformBlock (s.block b) v := by
  obtain ⟨hw, hh⟩ := micro_sides hb
  constructor
  · apply List.ne_nil_of_length_pos
    rw [s.block_length, hw, hh]
    exact Nat.mul_pos (mw_pos s shift) (mh_pos s shift)
  · simp only [State.block, List.forall_mem_map]
    rintro ⟨x, y⟩ hxy
    obtain ⟨i, hi, j, hj, rfl, rfl⟩ := micro_offsets c hb hxy
    exact hv i hi j hj

theorem minmax_uniform {blk : List Pixel} {v : Pixel} (h : uniformBlock blk v) : minmax blk = ⟨v, v⟩ := by
  obtain ⟨hne, hv⟩ := h
  have hmin : ∀ ch : Pixel → Byte, chanMin ch blk = ch v := fun ch => by
    obtain ⟨⟨p, hp, hch⟩, -⟩ := leastOf_chanMin ch hne
    rw [← hch, hv p hp]
  have hmax : ∀ ch : Pixel → Byte, chanMax ch blk = ch v := fun ch => by
    obtain ⟨⟨p, hp, hch⟩, -⟩ := greatestOf_chanMax ch hne
    rw [← hch, hv p hp]
  simp only [minmax, hmin, hmax]

theorem linear_uniform {blk : List Pixel} {v : Pixel} (h : uniformBlock blk v) : linear blk = ⟨v, v⟩ := by
  obtain ⟨hne, hv⟩ := h
  obtain ⟨i, j, hi, hj, hpair, -⟩ := farthestPair_positions hne
  rw [List.getD_eq_getElem _ _ hi, List.getD_eq_getElem _ _ hj, hv _ (List.getElem_mem hi),
    hv _ (List.getElem_mem hj)] at hpair
  rw [linear, hpair, orderByMag, ite_self]

theorem regress_uniform {blk : List Pixel} {v : Pixel} (h : uniformBlock blk v) : regress blk = none := by
  obtain ⟨-, hv⟩ := h
  exact regress_of_degenerate (.inl ((fitDen_eq_zero_iff _ _).mpr fun p hp q hq => by rw [hv p hp, hv q hq]))

/-- Every candidate for a block of one colour is that colour's range, or fails (R176). -/
theorem chooseRange_uniform {blk : List Pixel} {v : Pixel} (h : uniformBlock blk v) (p : Config.Params) (S : Nat) :
    chooseRange p S blk = ⟨v, v⟩ := by
  have hcand : ∀ g ∈ minmax blk :: otherRanges p blk, g = ⟨v, v⟩ := by
    rw [otherRanges, altRanges, minmax_uniform h, linear_uniform h, regress_uniform h]
    split <;> simp
  obtain ⟨i, hi, -⟩ := chooseRange_isFirstLeast p S blk
  exact hcand _ (List.mem_of_getElem? hi)

theorem blockError_uniform {blk : List Pixel} {v : Pixel} (h : uniformBlock blk v) (arith : Config.QuantArith)
    (S : Nat) : blockError arith S ⟨v, v⟩ blk = 0 := by
  obtain ⟨-, hv⟩ := h
  refine List.sum_eq_zero ?_
  simp only [List.forall_mem_map]
  intro p hp
  rw [dequant_same, qerror, hv p hp, sq_self]

/-- A macroblock of one colour has error 0 at every shift, against the exact range (R176 a). -/
theorem trial_uniform {s : State} (c : ConfigOk s) (hexact : s.params.encRange = .unpacked) {v : Pixel}
    (hv : uniformMacroblock s v) (shift : Nat) : (s.trial (argMacroblock s) shift).2 = 0 := by
  rw [trial_eq]
  refine List.sum_eq_zero ?_
  simp only [List.forall_mem_map]
  intro b hb
  have hu := uniformBlock_of_uniformMacroblock c hv hb
  rw [encodeMicro_eq, chooseRange_uniform hu, hexact]
  exact blockError_uniform hu _ _

end Sys2Proof.Machine

namespace Sys2Proof.Proofs
open Sys2Proof.Machine Sys2Proof.Claims

/-- Settles O47: each ending of the command (`exec_selectMb_endings`), with the shift of the selection rule
(`selectShift_selects`) and the table write of its code (`codeWritten_argTab`). -/
theorem selectMbEncodesTheMacroblock : Obligations.SelectMbEncodesTheMacroblock := by
  unfold Obligations.SelectMbEncodesTheMacroblock
  refine ⟨fun s hc => ⟨exec_selectMb_of_not_macroblockOk hc, exec_selectMb_of_flush_short hc⟩, fun s hc hm hp => ?_⟩
  refine ⟨argShift s, argTab s, selectShift_selects _ _ _ _, codeWritten_argTab s, fun hroom => ?_,
    fun hflush hshort => ?_⟩
  · have hflush : outRoom s (pendingByte s).length := by
      rw [outRoom, List.length_append] at hroom
      omega
    obtain ⟨a, ha, e⟩ := exec_selectMb_endings hc hm hflush
    obtain rfl := ha hp
    rw [← outAppend_of_room hroom]
    exact e.trans (if_pos hroom)
  · obtain ⟨a, ha, e⟩ := exec_selectMb_endings hc hm hflush
    obtain rfl := ha hp
    exact e.trans (if_neg hshort)

/-- Settles O48: all three trials have error 0 (`trial_uniform`), so the rule selects shift 0. -/
theorem uniformMacroblockSelectsShiftZero : Obligations.UniformMacroblockSelectsShiftZero := by
  unfold Obligations.UniformMacroblockSelectsShiftZero
  intro s t v hc hm hp hexact hv hroom e
  have herr := trial_uniform (configOk_of_none hc) hexact hv
  have hsel : argShift s = 0 := by
    simp [argShift, State.selectedShift, selectShift, herr]
  have hflush : outRoom s (pendingByte s).length := by
    rw [outRoom] at hroom ⊢
    omega
  obtain ⟨-, hcode, herrCode, hidx, hres, hacc0, hacc1, hacc2⟩ := exec_selectMb_results hc hm hflush e
  rw [herr] at hres hacc0 hacc1 hacc2
  rw [hsel] at hcode hidx
  rw [argTrial, hsel, List.length_append, if_pos hroom] at herrCode
  exact ⟨herrCode, hidx, hres, hacc0, hacc1, hacc2, hcode⟩

/-- Settles O49: the results are functions of the trials, the packer and OUT (`exec_selectMb_results`), and the trials
read the macroblock's pixels only (`micro_block_congr`). -/
theorem selectMbDependsOnItsOwnPixels : Obligations.SelectMbDependsOnItsOwnPixels := by
  unfold Obligations.SelectMbDependsOnItsOwnPixels
  intro s₁ s₂ t₁ t₂ hparams hqsb hqcb hbw hbh hiw hih hax hay hpacc hpfill hout herr hc hm hroom hpix e₁ e₂
  have hmb : argMacroblock s₂ = argMacroblock s₁ := by
    simp only [argMacroblock, argIndex, hbw, hbh, hiw, hax, hay]
  have htrial : ∀ shift, s₂.trial (argMacroblock s₂) shift = s₁.trial (argMacroblock s₁) shift := fun shift => by
    rw [hmb]
    exact trial_congr hparams.symm hqsb.symm hbw.symm hbh.symm _ _ fun b hb =>
      (micro_block_congr (configOk_of_none hc) hb hpix).symm
  have hshift : argShift s₂ = argShift s₁ := by
    simp only [argShift, State.selectedShift, htrial, hparams, hbw, hbh]
  have hbytes : pendingByte s₂ ++ argTrial s₂ = pendingByte s₁ ++ argTrial s₁ := by
    simp only [pendingByte, argTrial, hshift, htrial, hpacc, hpfill]
  have hc₂ : configCheck s₂ = none :=
    (configCheck_congr hparams.symm hqsb.symm hqcb.symm hbw.symm hbh.symm hiw.symm hih.symm).trans hc
  have hm₂ : macroblockOk s₂ := by
    simpa only [macroblockOk, hbw, hbh, hiw, hih, hax, hay] using hm
  have hroom₂ : outRoom s₂ (pendingByte s₂).length := by
    simpa only [outRoom, pendingByte, hout, hpacc, hpfill] using hroom
  have hindex : argIndex s₂ = argIndex s₁ := congrArg Macroblock.n hmb
  obtain ⟨o₁, c₁, k₁, x₁, r₁, a₁, b₁, d₁⟩ := exec_selectMb_results hc hm hroom e₁
  obtain ⟨o₂, c₂, k₂, x₂, r₂, a₂, b₂, d₂⟩ := exec_selectMb_results hc₂ hm₂ hroom₂ e₂
  rw [hbytes] at o₂ k₂
  rw [hindex, hshift] at c₂
  rw [hshift] at x₂
  rw [hshift, htrial] at r₂
  rw [htrial] at a₂ b₂ d₂
  simp only [outAppend, outRoom, ← hout, ← herr] at o₂ k₂
  exact ⟨o₁.trans o₂.symm, c₁.trans c₂.symm, k₁.trans k₂.symm, x₁.trans x₂.symm, r₁.trans r₂.symm, a₁.trans a₂.symm,
    b₁.trans b₂.symm, d₁.trans d₂.symm⟩

end Sys2Proof.Proofs
end

section
/-! Family 42_macroblock_selector: DECODE_MB (R178). Its endings, the microblocks it writes and those it leaves, and a
reconstructed pixel by its field of the record. -/

namespace Sys2Proof.Machine
open Sys2Proof.Claims

/-! ### The fields of a record -/

/-- The t-th code of q bits in a list of bytes (R194). -/
def indexField (q : Nat) (bs : List Byte) (t : Nat) : Nat :=
  (bs.getD (t * q / 8) 0).toNat / 2 ^ (t * q % 8) % 2 ^ q

theorem unpackIndices_eq {q : Nat} (hq : q ≤ 8) (bs : List Byte) (m : Nat) :
    unpackIndices q (2 ^ q - 1) bs m = (List.range m).map (indexField q bs) := by
  refine List.map_congr_left fun t _ => ?_
  have hbyte : 2 ^ q ≤ 2 ^ 8 := Nat.pow_le_pow_right (by omega) hq
  have hfield : indexField q bs t < 2 ^ q := Nat.mod_lt _ (Nat.two_pow_pos q)
  rw [byte_and_mask _ q hq, byte_ushiftRight, BitVec.toNat_ofNat, BitVec.toNat_ofNat,
    Nat.mod_eq_of_lt (b := 2 ^ 8) ((Nat.div_le_self _ _).trans_lt (BitVec.isLt _))]
  exact Nat.mod_eq_of_lt (hfield.trans_le hbyte)

/-- A reconstructed pixel is that of its code in the record's index bytes. -/
theorem getElem?_decodedBlock {s : State} (c : ConfigOk s) (rec : List Byte) {w h t : Nat} (ht : t < w * h) :
    (decodedBlock s w h rec)[t]? = some (dequant (2 ^ s.qsb.toNat - 1) (ctrlDecode (rec.take 4))
      (indexField s.qsb.toNat (rec.drop 4) t)) := by
  rw [decodedBlock, unpackIndices_eq c.qsb_le, List.map_map, List.getElem?_map, List.getElem?_range ht]
  rfl

theorem indexField_drop (q n : Nat) (bs : List Byte) (t : Nat) : indexField q (bs.drop n) t =
    (bs.getD (n + t * q / 8) 0).toNat / 2 ^ (t * q % 8) % 2 ^ q := by
  simp only [indexField, List.getD_eq_getElem?_getD, List.getElem?_drop]

/-! ### The endings -/

theorem exec_decodeMb_of_not_macroblockOk {s : State} (hc : configCheck s = none) (hm : ¬ macroblockOk s) :
    exec .decodeMb s = .next (s.raise .invalidArgument) := by
  rw [exec_eq_finish (by decide) (by decide) hc, bodyOf, bodyDecodeMb, macroblockOperand_bind_of_not_macroblockOk _ hm,
    Result.finish_raised]

/-- The argument's code in TAB, and the microblocks it stands for (R178). -/
abbrev argCode (s : State) : Nat := codeAt s (argIndex s)
abbrev argBlocks (s : State) : List Block := s.micro (argMacroblock s) (argCode s)

/-- The index bytes of one of the argument's microblocks, NB(w, h). -/
abbrev argIndexBytes (s : State) : Nat := s.indexBytes (s.mw (argCode s)) (s.mh (argCode s))

theorem indexBytes_eq (s : State) (w h : Nat) : s.indexBytes w h = (w * h * s.qsb.toNat + 7) / 8 := ceilDiv_eight _

theorem exec_decodeMb_of_code_three {s : State} (hc : configCheck s = none) (hm : macroblockOk s)
    (hcode : argCode s = 3) :
    exec .decodeMb s = .next ({ s with uacc := 0, uavail := 0 }.raise .invalidResource) := by
  have hread : s.tabRead (argMacroblock s).n = 3 := (s.tabRead_eq _).trans hcode
  rw [exec_eq_finish (by decide) (by decide) hc, bodyOf, bodyDecodeMb, macroblockOperand_bind_of_macroblockOk _ hm]
  simp only [hread, if_true]
  rfl

theorem exec_decodeMb_of_code {s : State} (hc : configCheck s = none) (hm : macroblockOk s) (hcode : argCode s ≠ 3) :
    exec .decodeMb s = (decodeMicros (argBlocks s)
      { s with uacc := 0, uavail := 0, resIdx := BitVec.ofNat 8 (argCode s) }).finish := by
  have hread : s.tabRead (argMacroblock s).n = argCode s := s.tabRead_eq _
  rw [exec_eq_finish (by decide) (by decide) hc, bodyOf, bodyDecodeMb, macroblockOperand_bind_of_macroblockOk _ hm]
  simp only [hread, if_neg hcode]
  rfl

/-- DECODE_MB after its checks: with all records in IN it completes; otherwise it raises with the cursor at the end.
Either way the microblocks with whole records are reconstructed from them, and no other pixel is written (R178). -/
theorem exec_decodeMb_endings {s : State} (hc : configCheck s = none) (hm : macroblockOk s) (hcode : argCode s ≠ 3)
    (hcur : s.inp.cur ≤ s.inp.bytes.length) :
    let len := 4 + argIndexBytes s
    ∃ m : Memory,
      let t := fun cur => { s with
        uacc := 0, uavail := 0, pixmem := m, resIdx := BitVec.ofNat 8 (argCode s), inp := ⟨s.inp.bytes, cur⟩ }
      (s.inp.cur + (argBlocks s).length * len ≤ s.inp.bytes.length →
        exec .decodeMb s = .next (t (s.inp.cur + (argBlocks s).length * len))) ∧
      (s.inp.bytes.length < s.inp.cur + (argBlocks s).length * len →
        exec .decodeMb s = .next ((t s.inp.bytes.length).raise .executionFailure)) ∧
      (∀ i b, s.inp.cur + (i + 1) * len ≤ s.inp.bytes.length → (argBlocks s)[i]? = some b →
        State.block { s with pixmem := m } b =
          decodedBlock s b.w b.h (recordAt s (s.inp.cur + i * len) (argIndexBytes s))) ∧
      (∀ x y, x < s.iw.toNat →
        (∀ i b, s.inp.cur + (i + 1) * len ≤ s.inp.bytes.length → (argBlocks s)[i]? = some b → (x, y) ∉ b.coords) →
        State.pix { s with pixmem := m } x y = s.pix x y) := by
  intro len
  obtain ⟨hx, hy⟩ := hm
  obtain ⟨m, cur, -, hwhole, hshort, hblock, hother⟩ := decodeMicros_spec (s.mw (argCode s)) (s.mh (argCode s))
    (argIndexBytes s) (argBlocks s) { s with uacc := 0, uavail := 0, resIdx := BitVec.ofNat 8 (argCode s) } rfl
    (fun b => micro_sides) (fun b hb p hp => ((configOk_of_none hc).micro_in_image hx hy hb hp).1)
    (micro_coords_nodup _ _ _) hcur
  rw [exec_decodeMb_of_code hc ⟨hx, hy⟩ hcode]
  refine ⟨m, fun h => ?_, fun h => ?_, fun i b hi hb => ?_, hother⟩
  · obtain ⟨e, rfl⟩ := hwhole h
    rw [e, Result.finish_ok]
  · obtain ⟨e, rfl⟩ := hshort h
    rw [e, Result.finish_raised]
  · obtain ⟨hw, hh⟩ := micro_sides (List.mem_of_getElem? hb)
    rw [hw, hh]
    exact hblock i b hi hb

/-- If every pixel outside the first n microblocks is kept, so are the microblocks from number n on. -/
theorem micro_block_kept {s t : State} {mb : Macroblock} {shift n : Nat}
    (hkept : ∀ x y, x < s.iw.toNat → (∀ i b, i < n → (s.micro mb shift)[i]? = some b → (x, y) ∉ b.coords) →
      t.pix x y = s.pix x y)
    (hin : ∀ b ∈ s.micro mb shift, ∀ p ∈ b.coords, p.1 < s.iw.toNat) {i : Nat} {b : Block} (hi : n ≤ i)
    (hb : (s.micro mb shift)[i]? = some b) : t.block b = s.block b := by
  have hmem := List.mem_of_getElem? hb
  refine List.map_congr_left fun ⟨x, y⟩ hxy => hkept x y (hin b hmem _ hxy) fun j b' hj hb' hxy' => ?_
  obtain rfl := micro_eq_of_shared_pixel hmem (List.mem_of_getElem? hb') hxy hxy'
  have hlt := (List.getElem?_eq_some_iff.mp hb).1
  have hsame : i = j := (List.getElem?_inj hlt (micro_nodup s mb shift)).mp (hb.trans hb'.symm)
  omega

end Sys2Proof.Machine

namespace Sys2Proof.Proofs
open Sys2Proof.Machine Sys2Proof.Claims

/-- Settles O50: with all records in IN the command completes (`exec_decodeMb_endings`), each microblock's pixels are
those of its record's codes (`getElem?_decodedBlock`), and no byte outside changes (`exec_decodeMb_outside`). -/
theorem decodeMbWritesTheMacroblock : Obligations.DecodeMbWritesTheMacroblock := by
  unfold Obligations.DecodeMbWritesTheMacroblock
  refine ⟨fun s hc => ⟨exec_decodeMb_of_not_macroblockOk hc, exec_decodeMb_of_code_three hc⟩, fun s hc hm hcode => ?_⟩
  simp only [← mw_eq, ← mh_eq, ← indexBytes_eq]
  intro hlen
  obtain ⟨m, hwhole, -, hblock, -⟩ := exec_decodeMb_endings hc hm hcode (by omega)
  have e := hwhole hlen
  refine ⟨m, e, fun a ha => exec_decodeMb_outside hc e ha, fun i b hb x y hx hy => ?_⟩
  obtain ⟨hw, hh⟩ := micro_sides (List.mem_of_getElem? hb)
  have hi : i + 1 ≤ (argBlocks s).length := (List.getElem?_eq_some_iff.mp hb).1
  have hend := hblock i b (le_trans (Nat.add_le_add_left (Nat.mul_le_mul_right _ hi) _) hlen) hb
  have hpix := State.getElem?_block { s with pixmem := m } b (hw ▸ hx) (hh ▸ hy)
  have hpos : y * b.w + x < b.w * b.h := raster_lt (hw ▸ hx) (hh ▸ hy)
  rw [hend, getElem?_decodedBlock (configOk_of_none hc) _ hpos, indexField_drop, hw] at hpix
  exact (Option.some.inj hpix).symm

/-- Settles O51: the command raises with the cursor at the end (`exec_decodeMb_endings`); a microblock has a whole
record exactly when its number is below the quotient, and the others' pixels are kept (`micro_block_kept`). -/
theorem decodeMbKeepsWholeMicroblocks : Obligations.DecodeMbKeepsWholeMicroblocks := by
  unfold Obligations.DecodeMbKeepsWholeMicroblocks
  intro s hc hm hcode hcur
  simp only [← mw_eq, ← mh_eq, ← indexBytes_eq]
  intro hlen
  obtain ⟨m, -, hshort, hblock, hother⟩ := exec_decodeMb_endings hc hm hcode hcur
  have e := hshort hlen
  have hwhole : ∀ i, i < (s.inp.bytes.length - s.inp.cur) / (4 + argIndexBytes s) ↔
      s.inp.cur + (i + 1) * (4 + argIndexBytes s) ≤ s.inp.bytes.length := fun i => by
    rw [← Nat.succ_le_iff, Nat.le_div_iff_mul_le (by omega), Nat.succ_eq_add_one]
    omega
  simp only [← hwhole] at hblock hother
  refine ⟨m, e, fun hnone => ?_, fun a ha => ?_, fun i b hi hb => ?_, fun i b hi hb => ?_⟩
  · rw [raise_errCode]
    exact congrArg (Option.or · _) hnone
  · exact (pixByte_raise _ _ a).symm.trans (exec_decodeMb_outside hc e ha)
  · exact micro_block_kept (s := s) (t := { s with pixmem := m }) hother
      (fun b hb p hp => ((configOk_of_none hc).micro_in_image hm.1 hm.2 hb hp).1) hi hb
  · obtain ⟨hw, hh⟩ := micro_sides (List.mem_of_getElem? hb)
    have hpix := hblock i b hi hb
    rw [hw, hh] at hpix
    exact hpix

end Sys2Proof.Proofs
end

section
/-! Family 42_macroblock_selector: the round trip (R179, R180). Unpacking undoes packing, a control word gives back a
colour's high bits, and DECODE_MB finds each record of SELECT_MB's trial where it was written. -/

namespace Sys2Proof.Machine
open Sys2Proof.Claims

/-! ### Records -/

/-- Unpacking the bytes of packed codes gives the codes back (R196). -/
theorem unpackIndices_packIndices {q : Nat} (hq : q ∈ [1, 2, 4, 8]) {ks : List Nat} (hk : ∀ k ∈ ks, k ≤ 2 ^ q - 1) :
    unpackIndices q (2 ^ q - 1) (packIndices q ks) ks.length = ks := by
  have hq18 : 1 ≤ q ∧ q ≤ 8 := by
    simp only [List.mem_cons, List.not_mem_nil, or_false] at hq
    omega
  rw [unpackIndices_eq hq18.2]
  refine List.ext_getElem (by simp) fun t _ ht => ?_
  have hend : (t + 1) * q ≤ ks.length * q := Nat.mul_le_mul_right _ ht
  rw [List.getElem_map, List.getElem_range, indexField, packIndices_get q ks (by rw [Nat.succ_mul] at hend; omega)]
  exact packed_field hq hk ht

/-- A record decodes to the pixels that its indices reconstruct from its control words (R179). -/
theorem decodedBlock_encodeMicro {s t : State} (c : ConfigOk s) (hqsb : t.qsb = s.qsb) (b : Block) :
    let S := 2 ^ s.qsb.toNat - 1
    decodedBlock t b.w b.h (s.encodeMicro b).1 = (blockIndices s.params S (s.block b)).map
      (dequant S (ctrlDecode (ctrlBytes (chooseRange s.params S (s.block b))))) := by
  intro S
  have hlen : (blockIndices s.params S (s.block b)).length = b.w * b.h := by
    rw [blockIndices, List.length_map, s.block_length]
  have hle : ∀ k ∈ blockIndices s.params S (s.block b), k ≤ S := by
    simp only [blockIndices, List.forall_mem_map]
    exact fun p _ => qindex_le _ _ _ _
  have hrecord : (s.encodeMicro b).1 = ctrlBytes (chooseRange s.params S (s.block b)) ++
    packIndices s.qsb.toNat (blockIndices s.params S (s.block b)) := rfl
  have hctrl : (ctrlBytes (chooseRange s.params S (s.block b))).length = 4 := rfl
  rw [decodedBlock, hqsb, hrecord, List.drop_left' hctrl, List.take_left' hctrl, ← hlen,
    unpackIndices_packIndices c.qsb hle]

/-- An entry of a list of lists of one length stands at its number times that length in their concatenation. -/
theorem flatten_window {α : Type} {n : Nat} {l : List (List α)} (hl : ∀ x ∈ l, x.length = n) {i : Nat} {x : List α}
    (hx : l[i]? = some x) : (l.flatten.drop (i * n)).take n = x := by
  induction l generalizing i with
  | nil => simp at hx
  | cons a l ih =>
    obtain ⟨rfl, hl⟩ := List.forall_mem_cons.mp hl
    cases i with
    | zero =>
      obtain rfl : a = x := by simpa using hx
      simp
    | succ i =>
      rw [List.flatten_cons, Nat.succ_mul, Nat.add_comm, List.drop_length_add_append]
      exact ih hl (by simpa using hx)

theorem encodeMicro_length_of_micro {s : State} {mb : Macroblock} {shift : Nat} {b : Block}
    (hb : b ∈ s.micro mb shift) :
    (s.encodeMicro b).1.length = 4 + s.indexBytes (s.mw shift) (s.mh shift) := by
  obtain ⟨hw, hh⟩ := micro_sides hb
  rw [encodeMicro_length, hw, hh, indexBytes_eq]

/-- A trial holds the i-th microblock's record at its number times a record's length (R172). -/
theorem trial_record {s : State} {mb : Macroblock} {shift i : Nat} {b : Block} (hb : (s.micro mb shift)[i]? = some b) :
    let len := 4 + s.indexBytes (s.mw shift) (s.mh shift)
    ((s.trial mb shift).1.drop (i * len)).take len = (s.encodeMicro b).1 := by
  intro len
  rw [trial_eq]
  refine flatten_window ?_ (by rw [List.getElem?_map, hb, Option.map_some])
  simp only [List.forall_mem_map]
  exact fun b hb => encodeMicro_length_of_micro hb

/-! ### The two commands -/

/-- The state SELECT_MB leaves from an empty packer with room in OUT (R174). -/
def afterSelectMb (s : State) : State :=
  { selected s (argShift s) (argTab s) with out := ⟨s.out.bytes ++ argTrial s, s.out.cap⟩ }

/-- That state with its OUT attached as IN, the cursor at the first byte SELECT_MB appended (R179). -/
def rewound (s : State) : State :=
  { afterSelectMb s with inp := ⟨(afterSelectMb s).out.bytes, s.out.bytes.length⟩ }

theorem exec_selectMb_success {s t : State} (hc : configCheck s = none) (hm : macroblockOk s) (ha : s.pacc = 0)
    (hf : s.pfill = 0) (hstreams : s.streamsOk) (e : exec .selectMb s = .next t) (hok : t.errCode = none) :
    t = afterSelectMb s := by
  have hpending : pendingByte s = [] := by rw [pendingByte, if_pos (by simp [hf])]
  have hroom : outRoom s (pendingByte s).length := by
    rw [hpending]
    exact hstreams.1
  obtain ⟨a, ha0, he⟩ := exec_selectMb_endings hc hm hroom
  obtain rfl := ha0 (packerOk_of_empty ha hf)
  rw [e, hpending, List.nil_append] at he
  split at he
  · next hfits =>
    rw [outAppend_of_room hfits] at he
    exact Host.Outcome.next.inj he
  · rw [Host.Outcome.next.inj he] at hok
    exact absurd hok (State.raise_errCode_ne_none _ _)

theorem argCode_rewound (s : State) : argCode (rewound s) = argShift s := (codeWritten_argTab s).1

theorem argBlocks_rewound (s : State) : argBlocks (rewound s) = s.micro (argMacroblock s) (argShift s) := by
  rw [argBlocks, argCode_rewound]
  rfl

theorem argIndexBytes_rewound (s : State) :
    argIndexBytes (rewound s) = s.indexBytes (s.mw (argShift s)) (s.mh (argShift s)) := by
  rw [argIndexBytes, argCode_rewound]
  rfl

/-- IN ends with the last of the records. -/
theorem rewound_end (s : State) : (rewound s).inp.cur +
    (argBlocks (rewound s)).length * (4 + argIndexBytes (rewound s)) = (rewound s).inp.bytes.length := by
  have hlen : (rewound s).inp.bytes.length = s.out.bytes.length + (argTrial s).length := List.length_append
  rw [hlen, argTrial, trial_length, argBlocks_rewound, micro_length, argIndexBytes_rewound, indexBytes_eq]
  rfl

theorem recordAt_rewound {s : State} {i : Nat} {b : Block} (hb : (argBlocks (rewound s))[i]? = some b) :
    recordAt (rewound s) ((rewound s).inp.cur + i * (4 + argIndexBytes (rewound s))) (argIndexBytes (rewound s)) =
      (s.encodeMicro b).1 := by
  rw [argBlocks_rewound] at hb
  rw [argIndexBytes_rewound, ← trial_record hb]
  exact congrArg (List.take _) (List.drop_length_add_append _)

/-- DECODE_MB of the records SELECT_MB appended: it completes, reads them all, and gives every microblock the pixels
of its record (R179). -/
theorem exec_decodeMb_rewound {s : State} (hc : configCheck s = none) (hm : macroblockOk s) (hnone : s.errCode = none) :
    let S := 2 ^ s.qsb.toNat - 1
    ∃ v, exec .decodeMb (rewound s) = .next v ∧ v.errCode = none ∧ v.inp.cur = (rewound s).inp.bytes.length ∧
      v.resIdx = BitVec.ofNat 8 (argShift s) ∧
      ∀ b ∈ s.micro (argMacroblock s) (argShift s),
        v.block b = (blockIndices s.params S (s.block b)).map
          (dequant S (ctrlDecode (ctrlBytes (chooseRange s.params S (s.block b))))) := by
  intro S
  have hcheck : configCheck (rewound s) = none := (configCheck_congr rfl rfl rfl rfl rfl rfl rfl).trans hc
  have hcode : argCode (rewound s) ≠ 3 := by
    have := argShift_le s
    rw [argCode_rewound]
    omega
  have hend := rewound_end s
  obtain ⟨m, hwhole, -, hblock, -⟩ := exec_decodeMb_endings hcheck hm hcode ((Nat.le_add_right _ _).trans hend.le)
  refine ⟨_, hwhole hend.le, hnone, hend, by rw [argCode_rewound], fun b hb => ?_⟩
  rw [← argBlocks_rewound] at hb
  obtain ⟨i, hi⟩ := List.mem_iff_getElem?.mp hb
  have hcount : i + 1 ≤ (argBlocks (rewound s)).length := (List.getElem?_eq_some_iff.mp hi).1
  have hpix := hblock i b ((Nat.add_le_add_left (Nat.mul_le_mul_right _ hcount) _).trans hend.le) hi
  rw [recordAt_rewound hi, decodedBlock_encodeMicro (t := rewound s) (configOk_of_none hc) rfl] at hpix
  exact hpix

/-! ### Control colours (R190, R191) -/

theorem unpack565_eq_colour565 (w : Half) : unpack565 w = colour565 w.toNat := by
  have hfield : ∀ start len, (w.extractLsb' start len).toNat = w.toNat / 2 ^ start % 2 ^ len := fun start len => by
    rw [BitVec.extractLsb'_toNat, Nat.shiftRight_eq_div_pow]
  simp only [unpack565, colour565, Pixel.mk.injEq]
  refine ⟨BitVec.eq_of_toNat_eq ?_, BitVec.eq_of_toNat_eq ?_, BitVec.eq_of_toNat_eq ?_⟩ <;>
    simp only [append_toNat, hfield, BitVec.toNat_ofNat] <;> omega

/-- A colour packed and unpacked: each channel's high bits (R191). -/
theorem colour565_word565 (p : Pixel) : colour565 (word565 p) =
    ⟨BitVec.ofNat 8 (8 * (p.c0.toNat / 8)), BitVec.ofNat 8 (4 * (p.c1.toNat / 4)),
     BitVec.ofNat 8 (8 * (p.c2.toNat / 8))⟩ := by
  have h0 := p.c0.isLt
  have h1 := p.c1.isLt
  have h2 := p.c2.isLt
  have e0 : word565 p % 32 = p.c0.toNat / 8 := by rw [word565]; omega
  have e1 : word565 p / 32 % 64 = p.c1.toNat / 4 := by rw [word565]; omega
  have e2 : word565 p / 2048 % 32 = p.c2.toNat / 8 := by rw [word565]; omega
  rw [colour565, e0, e1, e2]

theorem half_of_bytes (w : Half) : w.extractLsb' 8 8 ++ w.extractLsb' 0 8 = w := by
  apply BitVec.eq_of_toNat_eq
  rw [append_toNat, half_lowByte, half_highByte, BitVec.toNat_ofNat, BitVec.toNat_ofNat]
  omega

/-- The control bytes give back both colours of a range by their high bits (R191). -/
theorem ctrlDecode_ctrlBytes (g : Range) :
    ctrlDecode (ctrlBytes g) = ⟨colour565 (word565 g.mn), colour565 (word565 g.mx)⟩ := by
  rw [← pack565_toNat, ← pack565_toNat, ← unpack565_eq_colour565, ← unpack565_eq_colour565]
  simp only [ctrlDecode, ctrlBytes, List.getD_cons_zero, List.getD_cons_succ, half_of_bytes]

/-- A block of one colour is reconstructed from its record as that colour's high bits (R180). -/
theorem reconstruct_uniform {blk : List Pixel} {v : Pixel} (h : uniformBlock blk v) (p : Config.Params) (S : Nat) :
    ∀ x ∈ (blockIndices p S blk).map (dequant S (ctrlDecode (ctrlBytes (chooseRange p S blk)))),
      x = colour565 (word565 v) := by
  rw [chooseRange_uniform h, ctrlDecode_ctrlBytes]
  simp only [List.forall_mem_map]
  exact fun k _ => dequant_same _ _ _

/-- A macroblock whose microblocks are all of one colour is of that colour. -/
theorem uniformMacroblock_of_micro {s t : State} (c : ConfigOk s) {shift : Nat} {v : Pixel}
    (hbw : t.bw = s.bw) (hbh : t.bh = s.bh) (hax : t.ax = s.ax) (hay : t.ay = s.ay)
    (h : ∀ b ∈ s.micro (argMacroblock s) shift, ∀ p ∈ t.block b, p = v) : uniformMacroblock t v := by
  rw [uniformMacroblock, hbw, hbh, hax, hay]
  intro x hx y hy
  obtain ⟨b, hb, hxy⟩ := List.mem_flatMap.mp ((mem_micro_coords c (shift := shift)).mpr
    ⟨Nat.le_add_right _ x, Nat.add_lt_add_left hx _, Nat.le_add_right _ y, Nat.add_lt_add_left hy _⟩)
  exact h b hb _ (List.mem_map_of_mem hxy)

end Sys2Proof.Machine

namespace Sys2Proof.Proofs
open Sys2Proof.Machine Sys2Proof.Claims

/-- Settles O52: SELECT_MB's success determines its state (`exec_selectMb_success`), and DECODE_MB finds every record
in it (`exec_decodeMb_rewound`). -/
theorem selectThenDecodeRoundTrip : Obligations.SelectThenDecodeRoundTrip := by
  unfold Obligations.SelectThenDecodeRoundTrip
  intro s t hc hm ha hf hnone hstreams e hok
  obtain rfl := exec_selectMb_success hc hm ha hf hstreams e hok
  have hidx : (afterSelectMb s).resIdx.toNat = argShift s :=
    Nat.mod_eq_of_lt ((argShift_le s).trans_lt (by decide))
  rw [hidx]
  exact exec_decodeMb_rewound hc hm hnone

/-- Settles O53: every candidate range of a block of one colour is that colour's, and its control words reconstruct
the high bits at every index (`reconstruct_uniform`). -/
theorem uniformMacroblockRoundTrip : Obligations.UniformMacroblockRoundTrip := by
  unfold Obligations.UniformMacroblockRoundTrip
  intro s t v hc hm ha hf hnone hstreams hv e hok
  obtain rfl := exec_selectMb_success hc hm ha hf hstreams e hok
  have c := configOk_of_none hc
  obtain ⟨u, eu, hu, -, -, hblocks⟩ := exec_decodeMb_rewound hc hm hnone
  obtain ⟨-, -, -, -, -, hbw, hbh, -, -, hax, hay, -⟩ := (exec_writesOnlyNamed eu).setup
  refine ⟨u, eu, hu, ?_⟩
  rw [← colour565_word565]
  refine uniformMacroblock_of_micro c (shift := argShift s) hbw hbh hax hay fun b hb => ?_
  rw [hblocks b hb]
  exact reconstruct_uniform (uniformBlock_of_uniformMacroblock c hv hb) _ _

end Sys2Proof.Proofs
end

section
/-! Family 43_bitpacker: control colours (R190, R191). A control word and its colour as numbers; each of the two
conversions undoes the other on what it keeps. -/

namespace Sys2Proof.Machine
open Sys2Proof.Claims

/-- Packing undoes unpacking (R191). -/
theorem word565_colour565 {w : Nat} (hw : w < 65536) : word565 (colour565 w) = w := by
  simp only [word565, colour565, BitVec.toNat_ofNat]
  omega

theorem pack565_unpack565 (w : Half) : pack565 (unpack565 w) = w := by
  apply BitVec.eq_of_toNat_eq
  rw [pack565_toNat, unpack565_eq_colour565, word565_colour565 w.isLt]

/-- Unpacking a packed colour clears the low bits of its channels (R191). -/
theorem unpack565_pack565 (p : Pixel) : unpack565 (pack565 p) =
    ⟨BitVec.ofNat 8 (8 * (p.c0.toNat / 8)), BitVec.ofNat 8 (4 * (p.c1.toNat / 4)),
     BitVec.ofNat 8 (8 * (p.c2.toNat / 8))⟩ := by
  rw [unpack565_eq_colour565, pack565_toNat, colour565_word565]

theorem byte_mul_div_eq_self_iff (b : Byte) (m : Nat) : BitVec.ofNat 8 (m * (b.toNat / m)) = b ↔ b.toNat % m = 0 := by
  have hlt : m * (b.toNat / m) < 2 ^ 8 := (Nat.mul_div_le _ _).trans_lt b.isLt
  have hdm := Nat.div_add_mod b.toNat m
  rw [← BitVec.toNat_inj, BitVec.toNat_ofNat, Nat.mod_eq_of_lt hlt]
  omega

theorem unpack565_pack565_eq_self_iff (p : Pixel) :
    unpack565 (pack565 p) = p ↔ p.c0.toNat % 8 = 0 ∧ p.c1.toNat % 4 = 0 ∧ p.c2.toNat % 8 = 0 := by
  obtain ⟨c0, c1, c2⟩ := p
  simp only [unpack565_pack565, Pixel.mk.injEq, byte_mul_div_eq_self_iff]

theorem byte_and_F8 (b : Byte) : b &&& 0xF8 = BitVec.ofNat 8 (8 * (b.toNat / 8)) := by
  revert b
  decide

theorem byte_and_FC (b : Byte) : b &&& 0xFC = BitVec.ofNat 8 (4 * (b.toNat / 4)) := by
  revert b
  decide

theorem colour565_le (w : Nat) :
    (colour565 w).c0.toNat ≤ 248 ∧ (colour565 w).c1.toNat ≤ 252 ∧ (colour565 w).c2.toNat ≤ 248 := by
  simp only [colour565, BitVec.toNat_ofNat]
  omega

theorem toNat_append_bytes (lo hi : Byte) : (hi ++ lo).toNat = wordOf lo hi := by
  rw [append_toNat, wordOf]
  omega

/-- Four bytes are two control words, low byte first (R191). -/
theorem ctrlDecode_eq (bs : List Byte) : ctrlDecode bs =
    ⟨colour565 (wordOf (bs.getD 0 0) (bs.getD 1 0)), colour565 (wordOf (bs.getD 2 0) (bs.getD 3 0))⟩ := by
  rw [ctrlDecode, unpack565_eq_colour565, unpack565_eq_colour565, toNat_append_bytes, toNat_append_bytes]

/-- Both bytes of a control word put together from them. -/
theorem extract_append_bytes (lo hi : Byte) :
    (hi ++ lo).extractLsb' 0 8 = lo ∧ (hi ++ lo).extractLsb' 8 8 = hi := by
  have hlo := lo.isLt
  have hhi := hi.isLt
  rw [half_lowByte, half_highByte, toNat_append_bytes, wordOf]
  constructor <;> apply BitVec.eq_of_toNat_eq <;> rw [BitVec.toNat_ofNat] <;> omega

theorem ctrlBytes_ctrlDecode (b0 b1 b2 b3 : Byte) : ctrlBytes (ctrlDecode [b0, b1, b2, b3]) = [b0, b1, b2, b3] := by
  obtain ⟨e0, e1⟩ := extract_append_bytes b0 b1
  obtain ⟨e2, e3⟩ := extract_append_bytes b2 b3
  simp only [ctrlBytes, ctrlDecode, pack565_unpack565, List.getD_cons_zero, List.getD_cons_succ, e0, e1, e2, e3]

end Sys2Proof.Machine

namespace Sys2Proof.Proofs
open Sys2Proof.Machine Sys2Proof.Claims

/-- Settles O31: a control word is the sum of its fields' weights (`pack565_toNat`), so that packing undoes unpacking
and unpacking a packed colour clears its low bits; the control bytes are those two words' bytes. -/
theorem controlColoursRoundTrip : Obligations.ControlColoursRoundTrip := by
  unfold Obligations.ControlColoursRoundTrip
  refine ⟨fun p => ⟨pack565_toNat p, ?_, unpack565_pack565_eq_self_iff p⟩, fun w => ?_, ctrlBytes_eq_controlBytes,
    fun b0 b1 b2 b3 => ⟨ctrlDecode_eq _, ctrlBytes_ctrlDecode b0 b1 b2 b3⟩⟩
  · rw [unpack565_pack565, byte_and_F8, byte_and_FC, byte_and_F8]
  · rw [pack565_unpack565, unpack565_eq_colour565]
    exact ⟨rfl, rfl, colour565_le w.toNat⟩

end Sys2Proof.Proofs
end

section
/-! Family 43_bitpacker: the commands of the two streams (R192, R193, R197-R200). What each appends to OUT or takes
from IN, with room or bytes enough and without. -/

namespace Sys2Proof.Machine
open Sys2Proof.Claims

/-! ### OUT (R80) -/

/-- A full OUT takes no byte. -/
theorem outAppend_of_full {s : State} (h : ¬ outRoom s 1) (bs : List Byte) : outAppend s bs = s.out := by
  have hz : s.out.cap - s.out.bytes.length = 0 := by omega
  rw [outAppend, hz, List.take_zero, List.append_nil]

theorem outWrite_of_full {b : Byte} {s : State} (h : ¬ outRoom s 1) : outWrite [b] s = .raised .executionFailure s := by
  have e : outAppend s [b] = s.out := outAppend_of_full h [b]
  rw [outAppend] at e
  rw [outWrite_of_short h, e]

theorem finish_outWrite (bs : List Byte) (s : State) :
    let t := { s with out := outAppend s bs }
    (outWrite bs s).finish = if outRoom s bs.length then .next t else .next (t.raise .executionFailure) := by
  intro t
  split
  · next h =>
    rw [outWrite_of_room h, Result.finish_ok]
    simp only [t, outAppend_of_room h]
  · next h =>
    rw [outWrite_of_short h, Result.finish_raised]
    rfl

/-- Bytes written after others that fit: as if both were written at once. -/
theorem finish_outWrite_outAppend {s : State} {as : List Byte} (bs : List Byte)
    (h : as.length ≤ s.out.cap - s.out.bytes.length) :
    let t := { s with out := outAppend s (as ++ bs) }
    (outWrite bs { s with out := outAppend s as }).finish =
      if outRoom s (as ++ bs).length then .next t else .next (t.raise .executionFailure) := by
  have hout : outAppend { s with out := outAppend s as } bs = outAppend s (as ++ bs) := by
    simp only [outAppend, List.take_append, List.take_of_length_le h, List.length_append, List.append_assoc,
      Nat.sub_sub]
  have hroom : outRoom { s with out := outAppend s as } bs.length ↔ outRoom s (as ++ bs).length := by
    simp only [outRoom, outAppend, List.take_of_length_le h, List.length_append, Nat.add_assoc]
  have e := finish_outWrite bs { s with out := outAppend s as }
  simp only [hout, hroom] at e
  exact e

/-! ### The packer (R192, R197, R198) -/

/-- A flush whose byte fits; without a pending byte it fits even in a full OUT (R195). -/
theorem flush_of_fits {s : State} (hp : s.packerOk) (h : (pendingByte s).length ≤ s.out.cap - s.out.bytes.length) :
    flush s = .ok () { s with pacc := 0, pfill := 0, out := outAppend s (pendingByte s) } := by
  by_cases h0 : s.pfill.toNat = 0
  · obtain ⟨ha, hf⟩ := packerOk_empty hp h0
    have hout : outAppend s (pendingByte s) = s.out := by
      rw [pendingByte, if_pos h0, outAppend, List.take_nil, List.append_nil]
    rw [flush_of_empty h0, hout, ← ha, ← hf]
  · have hroom : outRoom s (pendingByte s).length := by
      rw [pendingByte, if_neg h0, List.length_singleton] at h ⊢
      omega
    obtain ⟨a, e, ha⟩ := flush_of_room hroom
    rw [e, ha hp]

/-- A flush whose byte does not fit (R195). -/
theorem flush_of_not_fits {s : State} (h : ¬ (pendingByte s).length ≤ s.out.cap - s.out.bytes.length) :
    flush s = .raised .executionFailure { s with pacc := 0, pfill := 0 } ∧ ¬ outRoom s 1 := by
  by_cases h0 : s.pfill.toNat = 0
  · rw [pendingByte, if_pos h0, List.length_nil] at h
    omega
  · rw [pendingByte, if_neg h0, List.length_singleton] at h
    have hfull : ¬ outRoom s 1 := by omega
    exact ⟨flush_short h0 hfull, hfull⟩

/-- PACK_CTRL appends the pending byte and the control bytes, or their first bytes, as many as fit, with an error. -/
theorem exec_packCtrl {s : State} (hc : configCheck s = none) (hp : s.packerOk) :
    let bs := pendingByte s ++ controlBytes s.rmin s.rmax
    let t := { s with pacc := 0, pfill := 0, out := outAppend s bs }
    exec .packCtrl s = if outRoom s bs.length then .next t else .next (t.raise .executionFailure) := by
  intro bs t
  rw [exec_eq_finish (by decide) (by decide) hc, bodyOf, bodyPackCtrl]
  by_cases hfits : (pendingByte s).length ≤ s.out.cap - s.out.bytes.length
  · rw [flush_of_fits hp hfits, Result.bind_ok, ctrlBytes_eq_controlBytes]
    exact finish_outWrite_outAppend (s := { s with pacc := 0, pfill := 0 }) (controlBytes s.rmin s.rmax) hfits
  · obtain ⟨e, hfull⟩ := flush_of_not_fits hfits
    have hshort : ¬ outRoom s bs.length := by
      have : bs.length = (pendingByte s).length + 4 := List.length_append
      omega
    rw [e, Result.bind_raised, Result.finish_raised, if_neg hshort]
    simp only [t, outAppend_of_full hfull]

theorem packOne_of_part {s : State} {k : Nat} (h : s.pfill.toNat + s.qsb.toNat ≠ 8) :
    packOne k s = .ok () { s with
      pacc := s.pacc ||| (BitVec.ofNat 8 k <<< s.pfill.toNat)
      pfill := BitVec.ofNat 4 (s.pfill.toNat + s.qsb.toNat) } := if_neg h

theorem packOne_of_whole {s : State} {k : Nat} (h : s.pfill.toNat + s.qsb.toNat = 8) :
    packOne k s = outWrite [s.pacc ||| (BitVec.ofNat 8 k <<< s.pfill.toNat)] { s with pacc := 0, pfill := 0 } := if_pos h

theorem exec_packIdx_of_gt {s : State} {k : Nat} (hc : configCheck s = none) (hk : s.stepCount < k) :
    exec (.packIdx k) s = .next (s.raise .invalidArgument) := by
  rw [exec_eq_finish (i := .packIdx k) nofun nofun hc, bodyOf, bodyPackIdx, indexOperand_bind_of_gt _ hk,
    Result.finish_raised]

theorem exec_packIdx_of_le {s : State} {k : Nat} (hc : configCheck s = none) (hk : k ≤ s.stepCount) :
    exec (.packIdx k) s = (packOne k s).finish := by
  rw [exec_eq_finish (i := .packIdx k) nofun nofun hc, bodyOf, bodyPackIdx, indexOperand_bind_of_le _ hk]

/-- A code put above those of the packer is a number of the codes' weights (R195). -/
theorem pacc_or_code {s : State} (c : ConfigOk s) (hp : s.packerOk) {k : Nat} (hk : k ≤ s.stepCount) :
    s.pacc ||| (BitVec.ofNat 8 k <<< s.pfill.toNat) = BitVec.ofNat 8 (s.pacc.toNat + k * 2 ^ s.pfill.toNat) := by
  obtain ⟨hd, hf, ha⟩ := hp
  have hbyte : 2 ^ (s.pfill.toNat + s.qsb.toNat) ≤ 2 ^ 8 := Nat.pow_le_pow_right (by omega) (c.room_for_code hd hf)
  have hsum := add_code_lt ha hk
  exact byte_or_shifted _ _ _ ha (by omega)

/-! ### The unpacker (R193, R199, R200) -/

theorem ctrlDecode_inBytes (s : State) : ctrlDecode (inBytes 4 s) =
    ⟨colour565 (wordOf (inAhead s 0) (inAhead s 1)), colour565 (wordOf (inAhead s 2) (inAhead s 3))⟩ := by
  have hbyte : ∀ i, i < 4 → (inBytes 4 s).getD i 0 = inAhead s i := fun i hi => inBytes_getD hi
  rw [ctrlDecode_eq, hbyte 0 (by omega), hbyte 1 (by omega), hbyte 2 (by omega), hbyte 3 (by omega)]

theorem exec_unpackCtrl_of_enough {s : State} (hc : configCheck s = none)
    (h : s.inp.cur + 4 ≤ s.inp.bytes.length) : exec .unpackCtrl s = .next { s with
      uacc := 0, uavail := 0, inp := ⟨s.inp.bytes, s.inp.cur + 4⟩
      rmin := colour565 (wordOf (inAhead s 0) (inAhead s 1))
      rmax := colour565 (wordOf (inAhead s 2) (inAhead s 3)) } := by
  rw [exec_eq_finish (by decide) (by decide) hc, bodyOf, bodyUnpackCtrl, inRead_of_enough (s := s.alignIn) h,
    Result.bind_ok, Result.finish_ok, ctrlDecode_inBytes]
  rfl

theorem exec_unpackCtrl_of_short {s : State} (hc : configCheck s = none)
    (h : ¬ s.inp.cur + 4 ≤ s.inp.bytes.length) :
    exec .unpackCtrl s = .next ({ s with uacc := 0, uavail := 0, inp := inAtEnd s }.raise .executionFailure) := by
  rw [exec_eq_finish (by decide) (by decide) hc, bodyOf, bodyUnpackCtrl, inRead_of_short (s := s.alignIn) h,
    Result.bind_raised, Result.finish_raised]
  rfl

/-- The state UNPACK_IDX leaves when it takes its code from a byte with `avail` bits left (R199). -/
def tookCode (s : State) (b : Byte) (avail : Nat) : State :=
  { s with
    resIdx := BitVec.ofNat 8 (b.toNat % 2 ^ s.qsb.toNat)
    uacc := BitVec.ofNat 8 (b.toNat / 2 ^ s.qsb.toNat)
    uavail := BitVec.ofNat 4 (avail - s.qsb.toNat) }

theorem bodyUnpackIdx_of_refill {s t : State} (h : refill s = .ok () t) (hq : t.qsb.toNat ≤ 8) :
    bodyUnpackIdx s = .ok () (tookCode t t.uacc t.uavail.toNat) := by
  rw [bodyUnpackIdx, h, Result.bind_ok, State.stepCount, byte_and_mask _ _ hq, byte_ushiftRight]
  rfl

theorem exec_unpackIdx_of_bits {s : State} (hc : configCheck s = none) (h : s.uavail.toNat ≠ 0) :
    exec .unpackIdx s = .next (tookCode s s.uacc s.uavail.toNat) := by
  rw [exec_eq_finish (by decide) (by decide) hc, bodyOf, bodyUnpackIdx_of_refill (if_neg h) (configOk_of_none hc).qsb_le,
    Result.finish_ok]

theorem exec_unpackIdx_of_byte {s : State} (hc : configCheck s = none) (h : s.uavail.toNat = 0)
    (hin : s.inp.cur < s.inp.bytes.length) :
    exec .unpackIdx s = .next (tookCode { s with inp := ⟨s.inp.bytes, s.inp.cur + 1⟩ } (inAhead s 0) 8) := by
  have hrefill : refill s = .ok () { s with
      uacc := (inBytes 1 s).getD 0 0, uavail := 8, inp := ⟨s.inp.bytes, s.inp.cur + 1⟩ } := by
    rw [refill, if_pos h, inRead_of_enough hin, Result.bind_ok]
  rw [exec_eq_finish (by decide) (by decide) hc, bodyOf,
    bodyUnpackIdx_of_refill hrefill (configOk_of_none hc).qsb_le, Result.finish_ok, inBytes_getD (by omega)]
  rfl

theorem exec_unpackIdx_of_end {s : State} (hc : configCheck s = none) (h : s.uavail.toNat = 0)
    (hin : s.inp.cur = s.inp.bytes.length) : exec .unpackIdx s = .next (s.raise .executionFailure) := by
  rw [exec_eq_finish (by decide) (by decide) hc, bodyOf, bodyUnpackIdx, refill, if_pos h, inRead_of_short (by omega),
    Result.bind_raised, Result.bind_raised, Result.finish_raised, ← hin]

theorem exec_unpackAlign {s : State} (hc : configCheck s = none) :
    exec .unpackAlign s = .next { s with uacc := 0, uavail := 0 } := by
  rw [exec_eq_finish (by decide) (by decide) hc, bodyOf, bodyUnpackAlign, Result.finish_ok]
  rfl

end Sys2Proof.Machine

namespace Sys2Proof.Proofs
open Sys2Proof.Machine Sys2Proof.Claims

/-- Settles O32: the flush and the write of the control bytes append to OUT as one write of both (`exec_packCtrl`). -/
theorem packCtrlAppendsControlBytes : Obligations.PackCtrlAppendsControlBytes := by
  unfold Obligations.PackCtrlAppendsControlBytes
  intro s hc hp bs t
  refine ⟨fun h => ⟨?_, congrArg OutStream.bytes (outAppend_of_room h)⟩, fun h => ?_⟩ <;> rw [exec_packCtrl hc hp]
  · exact if_pos h
  · exact if_neg h

/-- Settles O33: the unpacker is emptied first, and the four bytes read decode as two control words, low byte first
(`ctrlDecode_inBytes`). -/
theorem unpackCtrlReadsTheRange : Obligations.UnpackCtrlReadsTheRange := by
  unfold Obligations.UnpackCtrlReadsTheRange
  exact fun s hc => ⟨exec_unpackCtrl_of_enough hc, fun h => exec_unpackCtrl_of_short hc (Nat.not_le.mpr h)⟩

/-- Settles O34: the OR of the shifted index is a sum (`pacc_or_code`), and a packer with room for one more code is
filled exactly when its bits are then eight (`ConfigOk.room_for_code`). -/
theorem packIdxFillsTheByte : Obligations.PackIdxFillsTheByte := by
  unfold Obligations.PackIdxFillsTheByte
  intro s k hc hp acc
  refine ⟨exec_packIdx_of_gt hc, fun hk => ?_⟩
  have c := configOk_of_none hc
  have hacc : s.pacc ||| (BitVec.ofNat 8 k <<< s.pfill.toNat) = acc := pacc_or_code c hp hk
  have ⟨hdvd, hlt, _⟩ := hp
  have hfit := c.room_for_code hdvd hlt
  rw [exec_packIdx_of_le hc hk]
  refine ⟨fun h => ?_, fun h hroom => ?_, fun h hfull => ?_⟩
  · rw [packOne_of_part (by omega), hacc, Result.finish_ok]
  · rw [packOne_of_whole (by omega), hacc, outWrite_of_room hroom, Result.finish_ok]
  · rw [packOne_of_whole (by omega), hacc, outWrite_of_full (s := { s with pacc := 0, pfill := 0 }) hfull,
      Result.finish_raised]

/-- Settles O35: a flush appends the pending byte where it fits, and loses it where it does not. -/
theorem packFlushEmitsThePendingByte : Obligations.PackFlushEmitsThePendingByte := by
  unfold Obligations.PackFlushEmitsThePendingByte
  intro s hc hp
  rw [exec_eq_finish (by decide) (by decide) hc, bodyOf]
  exact ⟨fun h => by rw [flush_ok hp h, Result.finish_ok], fun h0 h => by rw [flush_short h0 h, Result.finish_raised]⟩

/-- Settles O36: UNPACK_IDX takes its code from the byte at hand or, when its bits are exhausted, from the next one of
IN; the code and the rest are the remainder and the quotient by 2^QSB. -/
theorem unpackIdxTakesTheLowBits : Obligations.UnpackIdxTakesTheLowBits := by
  unfold Obligations.UnpackIdxTakesTheLowBits
  exact fun s hc _ _ => ⟨exec_unpackIdx_of_bits hc, exec_unpackIdx_of_byte hc, exec_unpackIdx_of_end hc,
    exec_unpackAlign hc⟩

end Sys2Proof.Proofs
end

section
/-! Family 43_bitpacker: the index sub-stream (R194-R196, R201). Commands one after another; the state after the
PACK_IDX commands of a list, which holds the codes of its last byte in the packer; and the unpacker's position after
some UNPACK_IDX commands. -/

namespace Sys2Proof.Machine
open Sys2Proof.Claims

/-! ### Sequences of commands -/

theorem runCommands_append {is js : List Instr} {s u : State} (h : runCommands is s = .next u) :
    runCommands (is ++ js) s = runCommands js u := by
  induction is generalizing s with
  | nil =>
    cases h
    rfl
  | cons i is ih =>
    obtain ⟨t, e⟩ := exec_completes i s
    rw [runCommands, e] at h
    rw [List.cons_append, runCommands, e]
    exact ih h

theorem runCommands_singleton (i : Instr) (s : State) : runCommands [i] s = exec i s := by
  obtain ⟨t, e⟩ := exec_completes i s
  rw [runCommands, e]
  rfl

/-! ### Whole bytes and codes -/

/-- A byte holds a whole number of codes, so the bits of its last one end with it. -/
theorem code_fits_in_byte {q : Nat} (hq : q ∈ [1, 2, 4, 8]) (m : Nat) : 0 < q ∧ m * q % 8 + q ≤ 8 := by
  simp only [List.mem_cons, List.not_mem_nil, or_false] at hq
  rcases hq with rfl | rfl | rfl | rfl <;> omega

/-- Padding: a bit at or above position m * QSB is 0 (R196). -/
theorem packIndices_padding {q : Nat} (hq : q ∈ [1, 2, 4, 8]) {ks : List Nat} (hk : ∀ k ∈ ks, k ≤ 2 ^ q - 1)
    {j b : Nat} (hj : j < (ks.length * q + 7) / 8) (hb : b < 8) (h : ks.length * q ≤ j * 8 + b) :
    ((packIndices q ks).getD j 0).getLsbD b = false := by
  have hpast : ks.length ≤ (j * 8 + b) / q := (Nat.le_div_iff_mul_le (code_fits_in_byte hq 0).1).mpr h
  rw [packIndices_get q ks hj, packedByte_bit hq hk j b hb, List.getD_eq_default _ _ hpast, Nat.zero_testBit]

/-! ### Packing (R195) -/

/-- The state after PACK_IDX of each index of a list from an empty packer: the whole bytes are in OUT, and the codes
of the last, partial byte in the packer. -/
def packedState (s : State) (ks : List Nat) : State :=
  let bits := ks.length * s.qsb.toNat
  { s with
    pacc := packedByte s.qsb.toNat ks (bits / 8)
    pfill := BitVec.ofNat 4 (bits % 8)
    out := ⟨s.out.bytes ++ (List.range (bits / 8)).map (packedByte s.qsb.toNat ks), s.out.cap⟩ }

theorem packedState_nil {s : State} (ha : s.pacc = 0) (hf : s.pfill = 0) : packedState s [] = s := by
  have hbits : ([] : List Nat).length * s.qsb.toNat = 0 := Nat.zero_mul _
  have hnone : packedByte s.qsb.toNat [] 0 = s.pacc := ha.symm
  have hempty : BitVec.ofNat 4 0 = s.pfill := hf.symm
  simp only [packedState, hbits, Nat.zero_div, Nat.zero_mod, List.range_zero, List.map_nil, List.append_nil, hnone,
    hempty]

theorem packedState_pfill (s : State) (ks : List Nat) :
    (packedState s ks).pfill.toNat = ks.length * s.qsb.toNat % 8 :=
  Nat.mod_eq_of_lt (by omega)

/-- The whole bytes of a list are those of the list with one more code. -/
theorem wholeBytes_snoc (q : Nat) (ks : List Nat) (k : Nat) :
    (List.range (ks.length * q / 8)).map (packedByte q (ks ++ [k])) =
      (List.range (ks.length * q / 8)).map (packedByte q ks) := by
  refine List.map_congr_left fun j hj => ?_
  rw [packedByte_snoc, if_neg (List.mem_range.mp hj).ne']

/-- One more PACK_IDX (R195). -/
theorem packOne_packedState {s : State} (c : ConfigOk s) (ks : List Nat) (k : Nat)
    (hroom : outRoom s ((ks ++ [k]).length * s.qsb.toNat / 8)) :
    packOne k (packedState s ks) = .ok () (packedState s (ks ++ [k])) := by
  obtain ⟨hq, hfit⟩ := code_fits_in_byte c.qsb ks.length
  have hbits : (ks ++ [k]).length * s.qsb.toNat = ks.length * s.qsb.toNat + s.qsb.toNat := by
    rw [List.length_append, List.length_singleton, Nat.succ_mul]
  have hacc : packedByte s.qsb.toNat ks (ks.length * s.qsb.toNat / 8) |||
      (BitVec.ofNat 8 k <<< (ks.length * s.qsb.toNat % 8)) =
        packedByte s.qsb.toNat (ks ++ [k]) (ks.length * s.qsb.toNat / 8) := by
    rw [packedByte_snoc, if_pos rfl]
  by_cases hwhole : ks.length * s.qsb.toNat % 8 + s.qsb.toNat = 8
  · have hbyte : (ks ++ [k]).length * s.qsb.toNat / 8 = ks.length * s.qsb.toNat / 8 + 1 := by omega
    have hmod : (ks ++ [k]).length * s.qsb.toNat % 8 = 0 := by omega
    have hnone : packedByte s.qsb.toNat (ks ++ [k]) (ks.length * s.qsb.toNat / 8 + 1) = 0 :=
      packedByte_beyond _ _ _ (by omega) hq
    rw [packOne_of_whole (by rw [packedState_pfill]; exact hwhole), packedState_pfill]
    rw [outWrite_of_room (by simp only [packedState, List.length_append, List.length_map, List.length_range,
      List.length_singleton]; omega)]
    simp only [packedState, hbyte, hmod, hacc, hnone, List.range_succ, List.map_append, wholeBytes_snoc,
      List.append_assoc, List.map_cons, List.map_nil]
    rfl
  · have hbyte : (ks ++ [k]).length * s.qsb.toNat / 8 = ks.length * s.qsb.toNat / 8 := by omega
    have hmod : (ks ++ [k]).length * s.qsb.toNat % 8 = ks.length * s.qsb.toNat % 8 + s.qsb.toNat := by omega
    rw [packOne_of_part (by rw [packedState_pfill]; exact hwhole), packedState_pfill]
    simp only [packedState, hbyte, hmod, hacc, wholeBytes_snoc]

/-- PACK_FLUSH then appends the partial byte, if there is one (R195, R196). -/
theorem flush_packedState {s : State} (c : ConfigOk s) (ks : List Nat)
    (hroom : outRoom s (packIndices s.qsb.toNat ks).length) :
    flush (packedState s ks) = .ok () { s with
      pacc := 0, pfill := 0, out := ⟨s.out.bytes ++ packIndices s.qsb.toNat ks, s.out.cap⟩ } := by
  rw [packIndices_length] at hroom
  have hpack : packIndices s.qsb.toNat ks =
    (List.range ((ks.length * s.qsb.toNat + 7) / 8)).map (packedByte s.qsb.toNat ks) := rfl
  by_cases h0 : ks.length * s.qsb.toNat % 8 = 0
  · have hbyte : (ks.length * s.qsb.toNat + 7) / 8 = ks.length * s.qsb.toNat / 8 := by omega
    have hnone : packedByte s.qsb.toNat ks (ks.length * s.qsb.toNat / 8) = 0 :=
      packedByte_beyond _ _ _ (by omega) c.qsb_pos
    rw [flush_of_empty ((packedState_pfill s ks).trans h0), hpack, hbyte]
    simp only [packedState, hnone, h0]
    rfl
  · have hbyte : (ks.length * s.qsb.toNat + 7) / 8 = ks.length * s.qsb.toNat / 8 + 1 := by omega
    rw [hbyte] at hroom
    rw [flush_of_pending (by rw [packedState_pfill]; exact h0), hpack, hbyte]
    rw [outWrite_of_room (by simp only [packedState, List.length_append, List.length_map, List.length_range,
      List.length_singleton]; omega)]
    simp only [packedState, List.range_succ, List.map_append, List.append_assoc, List.map_cons, List.map_nil]

theorem configCheck_packedState (s : State) (ks : List Nat) : configCheck (packedState s ks) = configCheck s :=
  configCheck_congr rfl rfl rfl rfl rfl rfl rfl

theorem runCommands_packIdx {s : State} (hc : configCheck s = none) (ha : s.pacc = 0) (hf : s.pfill = 0)
    {ks : List Nat} (hk : ∀ k ∈ ks, k ≤ s.stepCount) (hroom : outRoom s (ks.length * s.qsb.toNat / 8)) :
    runCommands (ks.map Instr.packIdx) s = .next (packedState s ks) := by
  induction ks using List.reverseRecOn with
  | nil =>
    rw [packedState_nil ha hf]
    rfl
  | append_singleton ks k ih =>
    have hfewer : ks.length * s.qsb.toNat ≤ (ks ++ [k]).length * s.qsb.toNat :=
      Nat.mul_le_mul_right _ (by simp)
    have hks := ih (fun j hj => hk j (List.mem_append_left _ hj)) (by omega)
    have hlast : k ≤ (packedState s ks).stepCount := hk k (by simp)
    rw [List.map_append, runCommands_append hks, List.map_singleton, runCommands_singleton,
      exec_packIdx_of_le ((configCheck_packedState s ks).trans hc) hlast,
      packOne_packedState (configOk_of_none hc) ks k hroom, Result.finish_ok]

/-! ### Unpacking (R199) -/

/-- The state after t + 1 UNPACK_IDX commands from an empty unpacker: the t-th code of the bytes ahead in RES_IDX, and
in the unpacker what its byte holds above it. -/
def unpackedState (s : State) (t : Nat) : State :=
  let q := s.qsb.toNat
  let b := (inAhead s (t * q / 8)).toNat
  { s with
    resIdx := BitVec.ofNat 8 (b / 2 ^ (t * q % 8) % 2 ^ q)
    uacc := BitVec.ofNat 8 (b / 2 ^ (t * q % 8 + q))
    uavail := BitVec.ofNat 4 (8 - (t * q % 8 + q))
    inp := ⟨s.inp.bytes, s.inp.cur + t * q / 8 + 1⟩ }

theorem configCheck_unpackedState (s : State) (t : Nat) : configCheck (unpackedState s t) = configCheck s :=
  configCheck_congr rfl rfl rfl rfl rfl rfl rfl

/-- The first UNPACK_IDX (R199). -/
theorem exec_unpackIdx_first {s : State} (hc : configCheck s = none) (h : s.uavail = 0)
    (hin : s.inp.cur < s.inp.bytes.length) : exec .unpackIdx s = .next (unpackedState s 0) := by
  rw [exec_unpackIdx_of_byte hc (by rw [h]; rfl) hin]
  simp only [tookCode, unpackedState, Nat.zero_mul, Nat.zero_div, Nat.zero_mod, Nat.pow_zero, Nat.div_one,
    Nat.zero_add, Nat.add_zero]

/-- One more UNPACK_IDX takes the next code, from the same byte or from the next (R199). -/
theorem exec_unpackIdx_unpackedState {s : State} (hc : configCheck s = none) (t : Nat)
    (hin : s.inp.cur + (t + 1) * s.qsb.toNat / 8 < s.inp.bytes.length) :
    exec .unpackIdx (unpackedState s t) = .next (unpackedState s (t + 1)) := by
  obtain ⟨hq, hfit⟩ := code_fits_in_byte (configOk_of_none hc).qsb t
  have hct := (configCheck_unpackedState s t).trans hc
  have havail : (unpackedState s t).uavail.toNat = 8 - (t * s.qsb.toNat % 8 + s.qsb.toNat) :=
    Nat.mod_eq_of_lt (by omega)
  have hbits : (t + 1) * s.qsb.toNat = t * s.qsb.toNat + s.qsb.toNat := Nat.succ_mul _ _
  by_cases hlast : t * s.qsb.toNat % 8 + s.qsb.toNat = 8
  · have hbyte : (t + 1) * s.qsb.toNat / 8 = t * s.qsb.toNat / 8 + 1 := by omega
    have hmod : (t + 1) * s.qsb.toNat % 8 = 0 := by omega
    have hahead : inAhead (unpackedState s t) 0 = inAhead s (t * s.qsb.toNat / 8 + 1) := rfl
    rw [hbyte] at hin
    rw [exec_unpackIdx_of_byte hct (by rw [havail]; omega) hin, hahead]
    simp only [tookCode, unpackedState, hbyte, hmod, Nat.pow_zero, Nat.div_one, Nat.zero_add, Nat.add_assoc]
  · have hbyte : (t + 1) * s.qsb.toNat / 8 = t * s.qsb.toNat / 8 := by omega
    have hmod : (t + 1) * s.qsb.toNat % 8 = t * s.qsb.toNat % 8 + s.qsb.toNat := by omega
    have hacc : (unpackedState s t).uacc.toNat =
        (inAhead s (t * s.qsb.toNat / 8)).toNat / 2 ^ (t * s.qsb.toNat % 8 + s.qsb.toNat) :=
      Nat.mod_eq_of_lt ((Nat.div_le_self _ _).trans_lt (BitVec.isLt _))
    rw [exec_unpackIdx_of_bits hct (by rw [havail]; omega), havail]
    simp only [tookCode, hacc]
    simp only [unpackedState, hbyte, hmod, Nat.div_div_eq_div_mul, ← Nat.pow_add, Nat.sub_sub]

theorem runCommands_unpackIdx {s : State} (hc : configCheck s = none) (h : s.uavail = 0) (t : Nat)
    (hin : s.inp.cur + t * s.qsb.toNat / 8 < s.inp.bytes.length) :
    runCommands (List.replicate (t + 1) .unpackIdx) s = .next (unpackedState s t) := by
  induction t with
  | zero =>
    rw [List.replicate_one, runCommands_singleton]
    exact exec_unpackIdx_first hc h (by omega)
  | succ t ih =>
    have hfewer : t * s.qsb.toNat ≤ (t + 1) * s.qsb.toNat := Nat.mul_le_mul_right _ (Nat.le_succ t)
    rw [List.replicate_succ', runCommands_append (ih (by omega)), runCommands_singleton]
    exact exec_unpackIdx_unpackedState hc t hin

/-- Bytes that stand next in IN. -/
theorem inAhead_of_prefix {s : State} {bs : List Byte} (h : bs <+: s.inp.bytes.drop s.inp.cur) {j : Nat}
    (hj : j < bs.length) : s.inp.cur + j < s.inp.bytes.length ∧ inAhead s j = bs.getD j 0 := by
  obtain ⟨rest, hrest⟩ := h
  have hlen := congrArg List.length hrest
  rw [List.length_append, List.length_drop] at hlen
  refine ⟨by omega, ?_⟩
  rw [inAhead, List.getD_eq_getElem?_getD, ← List.getElem?_drop, ← hrest, List.getElem?_append_left hj,
    List.getD_eq_getElem?_getD]

end Sys2Proof.Machine

namespace Sys2Proof.Proofs
open Sys2Proof.Machine Sys2Proof.Claims

/-- Settles O37: the bits of a packed byte are those of its codes (`packedByte_bit`), none past the last code
(`packIndices_padding`), and unpacking reads each code's field (`unpackIndices_packIndices`). -/
theorem indexPackingInverts : Obligations.IndexPackingInverts := by
  unfold Obligations.IndexPackingInverts
  exact fun qsb ks hq hk => ⟨packIndices_length qsb ks, fun j b => packIndices_padding hq hk,
    unpackIndices_packIndices hq hk⟩

/-- Settles O38: after PACK_IDX of each index the whole bytes stand in OUT and the rest in the packer
(`runCommands_packIdx`), and PACK_FLUSH appends the rest (`flush_packedState`). -/
theorem packCommandsWritePackedIndices : Obligations.PackCommandsWritePackedIndices := by
  unfold Obligations.PackCommandsWritePackedIndices
  intro s ks hc ha hf hk hroom
  have hwhole : outRoom s (ks.length * s.qsb.toNat / 8) := by
    rw [packIndices_length] at hroom
    omega
  rw [runCommands_append (runCommands_packIdx hc ha hf hk hwhole), runCommands_singleton,
    exec_eq_finish (by decide) (by decide) ((configCheck_packedState s ks).trans hc), bodyOf,
    flush_packedState (configOk_of_none hc) ks hroom, Result.finish_ok, ← ha, ← hf]

/-- Settles O39: the t-th code of the bytes ahead is in RES_IDX after t + 1 commands (`runCommands_unpackIdx`), and in
packed bytes that is index t (`packed_field`). -/
theorem unpackCommandsReadPackedIndices : Obligations.UnpackCommandsReadPackedIndices := by
  unfold Obligations.UnpackCommandsReadPackedIndices
  intro s ks t hc h hk hpre ht
  have c := configOk_of_none hc
  have hq := c.qsb_pos
  have hend : (t + 1) * s.qsb.toNat ≤ ks.length * s.qsb.toNat := Nat.mul_le_mul_right _ ht
  have hj : t * s.qsb.toNat / 8 < (ks.length * s.qsb.toNat + 7) / 8 := by
    rw [Nat.succ_mul] at hend
    omega
  obtain ⟨hin, hbyte⟩ := inAhead_of_prefix hpre (by rw [packIndices_length]; exact hj)
  rw [packIndices_get _ _ hj] at hbyte
  have hsmall : ks[t] < 2 ^ 8 := (hk _ (List.getElem_mem ht)).trans_lt c.stepCount_lt
  refine ⟨_, runCommands_unpackIdx hc h t hin, ?_⟩
  rw [unpackedState, hbyte, packed_field c.qsb hk ht, BitVec.toNat_ofNat, Nat.mod_eq_of_lt hsmall,
    List.getElem?_eq_getElem ht]

end Sys2Proof.Proofs
end

section
/-! Family 43_bitpacker: the size table (R210-R216). What each of its commands leaves, and the codes of the table after
a run of writes. -/

namespace Sys2Proof.Machine
open Sys2Proof.Claims

/-! ### The commands -/

theorem exec_sizetabClear {s : State} (hc : configCheck s = none) :
    exec .sizetabClear s = .next (s.tabLoad (List.replicate (tableLength s) 0)) := by
  rw [exec_eq_finish (by decide) (by decide) hc, bodyOf, bodySizetabClear, Result.finish_ok]
  rfl

theorem tabByte_cleared (s : State) (n k : Nat) :
    (s.tabLoad (List.replicate n 0)).tabByte k = if k < n then 0 else s.tabByte k := by
  rw [State.tabByte_tabLoad, List.length_replicate]
  split
  · next h => rw [List.getD_replicate _ h]
  · rfl

theorem exec_sizetabWrite_of_ok {s : State} (hc : configCheck s = none) (hm : macroblockOk s) {code : Nat}
    (hcode : code ≤ 2) : exec (.sizetabWrite code) s = .next (s.tabWrite (argIndex s) code) := by
  rw [exec_eq_finish (i := .sizetabWrite code) nofun nofun hc, bodyOf, bodySizetabWrite,
    macroblockOperand_bind_of_macroblockOk _ hm]
  rcases codeOperand_cases code s with ⟨e, -⟩ | ⟨-, h⟩
  · rw [e, Result.bind_ok, Result.finish_ok]
  · omega

theorem exec_sizetabWrite_of_illegal {s : State} (hc : configCheck s = none) {code : Nat}
    (h : ¬ macroblockOk s ∨ 2 < code) : exec (.sizetabWrite code) s = .next (s.raise .invalidArgument) := by
  rw [exec_eq_finish (i := .sizetabWrite code) nofun nofun hc, bodyOf, bodySizetabWrite]
  by_cases hm : macroblockOk s
  · rw [macroblockOperand_bind_of_macroblockOk _ hm]
    rcases codeOperand_cases code s with ⟨-, hle⟩ | ⟨e, -⟩
    · exact absurd (h.resolve_left (not_not.mpr hm)) (Nat.not_lt.mpr hle)
    · rw [e, Result.bind_raised, Result.finish_raised]
  · rw [macroblockOperand_bind_of_not_macroblockOk _ hm, Result.finish_raised]

theorem exec_sizetabRead_of_macroblockOk {s : State} (hc : configCheck s = none) (hm : macroblockOk s) :
    exec .sizetabRead s = .next { s with resIdx := BitVec.ofNat 8 (codeAt s (argIndex s)) } := by
  rw [exec_eq_finish (by decide) (by decide) hc, bodyOf, bodySizetabRead, macroblockOperand_bind_of_macroblockOk _ hm,
    Result.finish_ok, State.tabRead_eq]

theorem exec_sizetabRead_of_not_macroblockOk {s : State} (hc : configCheck s = none) (hm : ¬ macroblockOk s) :
    exec .sizetabRead s = .next (s.raise .invalidArgument) := by
  rw [exec_eq_finish (by decide) (by decide) hc, bodyOf, bodySizetabRead,
    macroblockOperand_bind_of_not_macroblockOk _ hm, Result.finish_raised]

/-- The table SIZETAB_LOAD leaves: the next T bytes of IN, or those there are (R215). -/
def loadedTab (s : State) : Memory := s.tab.setAll 0 (inBytes (tableLength s) s)

theorem exec_sizetabLoad_of_enough {s : State} (hc : configCheck s = none)
    (h : s.inp.cur + tableLength s ≤ s.inp.bytes.length) : exec .sizetabLoad s = .next { s with
      uacc := 0, uavail := 0, tab := loadedTab s, inp := ⟨s.inp.bytes, s.inp.cur + tableLength s⟩ } := by
  rw [exec_eq_finish (by decide) (by decide) hc, bodyOf, bodySizetabLoad,
    inRead_of_enough (n := s.tabLen) (s := s.alignIn) h]
  rfl

theorem exec_sizetabLoad_of_short {s : State} (hc : configCheck s = none)
    (h : ¬ s.inp.cur + tableLength s ≤ s.inp.bytes.length) : exec .sizetabLoad s = .next ({ s with
      uacc := 0, uavail := 0, tab := loadedTab s, inp := inAtEnd s }.raise .executionFailure) := by
  rw [exec_eq_finish (by decide) (by decide) hc, bodyOf, bodySizetabLoad,
    inRead_of_short (n := s.tabLen) (s := s.alignIn) h]
  rfl

theorem tabByte_loadedTab (s : State) (k : Nat) : { s with tab := loadedTab s }.tabByte k =
    if k < min (tableLength s) (s.inp.bytes.length - s.inp.cur) then inAhead s k else s.tabByte k := by
  rw [loadedTab, State.tabByte_setAll, inBytes_length_short]
  split
  · next h => exact inBytes_getD (lt_min_iff.mp h).1
  · rfl

/-! ### A run of writes (R216) -/

/-- The linear index of a macroblock by its column and row (R101). -/
def gridIndex (w : Nat) (p : Half × Half) : Nat := p.2.toNat * w + p.1.toNat

theorem gridIndex_inj {w : Nat} {p q : Half × Half} (hp : p.1.toNat < w) (hq : q.1.toNat < w)
    (h : gridIndex w p = gridIndex w q) : p = q := by
  have hcol : p.1.toNat = q.1.toNat := by
    have hmod := congrArg (· % w) h
    simpa only [gridIndex, Nat.mul_add_mod_self_right, Nat.mod_eq_of_lt hp, Nat.mod_eq_of_lt hq] using hmod
  have hrow : p.2.toNat = q.2.toNat := by
    rw [gridIndex, gridIndex, hcol] at h
    exact Nat.eq_of_mul_eq_mul_right (by omega) (Nat.add_right_cancel h)
  exact Prod.ext (BitVec.eq_of_toNat_eq hcol) (BitVec.eq_of_toNat_eq hrow)

theorem gridIndex_nodup {w : Nat} {order : List (Half × Half × Nat)} (hgrid : ∀ o ∈ order, o.1.toNat < w)
    (h : (order.map fun o => (o.1, o.2.1)).Nodup) : (order.map fun o => gridIndex w (o.1, o.2.1)).Nodup := by
  have hinj : ∀ p ∈ order.map fun o => (o.1, o.2.1), ∀ q ∈ order.map fun o => (o.1, o.2.1),
      gridIndex w p = gridIndex w q → p = q := by
    simp only [List.forall_mem_map]
    exact fun o ho o' ho' e => gridIndex_inj (hgrid o ho) (hgrid o' ho') e
  simpa only [List.map_map, Function.comp_def] using h.map_on hinj

/-- Writes to distinct macroblocks of the grid complete; each has its code, and every other code is as before. -/
theorem writeCodes_codes (order : List (Half × Half × Nat)) : ∀ u : State, configCheck u = none →
    (∀ o ∈ order, o.1.toNat < u.mbw ∧ o.2.1.toNat < u.mbh ∧ o.2.2 ≤ 2) →
    (order.map fun o => gridIndex u.mbw (o.1, o.2.1)).Nodup →
    ∃ t, writeCodes order u = .next t ∧ (∀ o ∈ order, codeAt t (gridIndex u.mbw (o.1, o.2.1)) = o.2.2) ∧
      ∀ n, (∀ o ∈ order, n ≠ gridIndex u.mbw (o.1, o.2.1)) → codeAt t n = codeAt u n := by
  induction order with
  | nil => exact fun u _ _ _ => ⟨u, rfl, nofun, fun _ _ => rfl⟩
  | cons o rest ih =>
    intro u hc hgrid hnodup
    obtain ⟨col, row, code⟩ := o
    obtain ⟨⟨hcol, hrow, hcode⟩, hgrid⟩ := List.forall_mem_cons.mp hgrid
    obtain ⟨hnew, hnodup⟩ := List.nodup_cons.mp hnodup
    have e := exec_sizetabWrite_of_ok (s := { u with ax := col, ay := row }) hc ⟨hcol, hrow⟩ hcode
    obtain ⟨hsame, hother, -⟩ := codeWritten_tabWrite { u with ax := col, ay := row }
      (gridIndex u.mbw (col, row)) (hcode.trans (by decide))
    obtain ⟨t, et, hcodes, hkept⟩ := ih
      (State.tabWrite { u with ax := col, ay := row } (gridIndex u.mbw (col, row)) code) hc hgrid hnodup
    refine ⟨t, ?_, List.forall_mem_cons.mpr ⟨?_, hcodes⟩, fun n hn => ?_⟩
    · rw [writeCodes, e]
      exact et
    · exact (hkept _ fun o ho he => hnew (List.mem_map.mpr ⟨o, ho, he.symm⟩)).trans hsame
    · obtain ⟨hhead, hrest⟩ := List.forall_mem_cons.mp hn
      exact (hkept n hrest).trans (hother n hhead)

end Sys2Proof.Machine

namespace Sys2Proof.Proofs
open Sys2Proof.Machine Sys2Proof.Claims

/-- Settles O40: the command loads T zero bytes from byte 0 up (`tabByte_cleared`). -/
theorem sizetabClearZeroesTheTable : Obligations.SizetabClearZeroesTheTable := by
  unfold Obligations.SizetabClearZeroesTheTable
  exact fun s hc => ⟨_, exec_sizetabClear hc, tabByte_cleared s (tableLength s)⟩

/-- Settles O41: a legal write is one table write of the argument's code (`codeWritten_tabWrite`), and a read is that
code's two bits. -/
theorem sizetabWriteAndReadOneCode : Obligations.SizetabWriteAndReadOneCode := by
  unfold Obligations.SizetabWriteAndReadOneCode
  exact ⟨fun s code hc => ⟨exec_sizetabWrite_of_illegal hc, fun hm hcode =>
      ⟨_, exec_sizetabWrite_of_ok hc hm hcode, codeWritten_tabWrite s _ (by omega)⟩⟩,
    fun s hc => ⟨exec_sizetabRead_of_macroblockOk hc, exec_sizetabRead_of_not_macroblockOk hc⟩⟩

/-- Settles O42: on a full and on a short read the bytes there were are stored from byte 0 up (`tabByte_loadedTab`). -/
theorem sizetabLoadReadsTheTable : Obligations.SizetabLoadReadsTheTable := by
  unfold Obligations.SizetabLoadReadsTheTable
  intro s hc hcur
  refine ⟨loadedTab s, fun h => ?_, fun h => ?_, tabByte_loadedTab s⟩
  · have hn : min (tableLength s) (s.inp.bytes.length - s.inp.cur) = tableLength s := by omega
    rw [exec_sizetabLoad_of_enough hc h, hn]
  · have hn : s.inp.cur + min (tableLength s) (s.inp.bytes.length - s.inp.cur) = s.inp.bytes.length := by omega
    rw [exec_sizetabLoad_of_short hc (Nat.not_le.mpr h), hn, inAtEnd]

/-- Settles O43: the writes go to distinct positions (`gridIndex_nodup`), so each code stays as it was written, and no
write reaches a position from MBN up, which the clear set to 0 (`writeCodes_codes`). -/
theorem tablePackingInverts : Obligations.TablePackingInverts := by
  unfold Obligations.TablePackingInverts
  intro s order hc hgrid hdistinct _
  obtain ⟨t, et, hcodes, hkept⟩ := writeCodes_codes order (s.tabLoad (List.replicate (tableLength s) 0)) hc hgrid
    (gridIndex_nodup (fun o ho => (hgrid o ho).1) hdistinct)
  refine ⟨_, t, exec_sizetabClear hc, et, hcodes, fun n hn hT => ?_⟩
  have hunused : ∀ o ∈ order, n ≠ gridIndex s.mbw (o.1, o.2.1) := fun o ho => by
    obtain ⟨hcol, hrow, -⟩ := hgrid o ho
    exact ((raster_lt hcol hrow).trans_le hn).ne'
  rw [hkept n hunused, codeAt, tabByte_cleared, if_pos (by omega)]
  exact congrArg (· % 4) (Nat.zero_div _)

end Sys2Proof.Proofs
end

section
/-! Family 44_control: NOP and CLEAR_ERR (R230, R231). Each has one legal word, so that a word with its OPC and a
non-zero RSV or IMM is illegal; an illegal word changes only CMD while an error is recorded. -/

namespace Sys2Proof.Machine
open Sys2Proof.Claims

/-- R102: an OPC whose command takes no IMM has one legal word, the OPC itself. -/
theorem illegalWord_of_opc {w : Word} {opc : Nat} (hopc : w.toNat % 256 = opc) (hnoImm : opc ∉ immediateOpcodes)
    (hne : w.toNat ≠ opc) : illegalWord w := by
  by_cases hrsv : w.toNat / 256 % 256 = 0
  · have himm : w.toNat / 65536 ≠ 0 := by omega
    exact .inr (.inr ⟨himm, hopc ▸ hnoImm⟩)
  · exact .inr (.inl hrsv)

/-- R245, R246: while an error is recorded an illegal word is discarded, or raises and the first error stays. -/
theorem accept_illegal_recorded {s : State} {w : Word} (he : s.errCode ≠ none) (hw : ¬ ∃ i, decode w = .ok i) :
    accept w s = .next { s with cmd := w } := by
  by_cases hopc : opcOf w = 0xF0
  · have he' : State.errCode { s with cmd := w } ≠ none := he
    rw [accept_of_illegal (.inr hopc) hw, State.raise_of_some .invalidArgument he']
  · exact accept_of_discarded he hopc

end Sys2Proof.Machine

namespace Sys2Proof.Proofs
open Sys2Proof.Machine Sys2Proof.Claims

/-- Settles O18: the two commands are run without a check, and a malformed word of theirs is illegal
(`illegalWord_of_opc`), so its write records the first error or leaves the recorded one (`accept_illegal_recorded`). -/
theorem nopAndClearErr : Obligations.NopAndClearErr := by
  unfold Obligations.NopAndClearErr
  refine ⟨fun s => ⟨exec_nop s, exec_clearErr s⟩, fun s w rest hwrites hmalformed => ?_⟩
  have hillegal : illegalWord w := by
    rcases hmalformed with ⟨hopc, hne⟩ | ⟨hopc, hne⟩ <;>
      exact illegalWord_of_opc hopc (by decide) fun h => hne (BitVec.eq_of_toNat_eq h)
  obtain ⟨-, hrecords⟩ := illegalWordRaisesInvalidArgument
  refine ⟨fun hnone => hrecords s w rest hwrites hnone hillegal, fun he => ?_⟩
  have he' : State.errCode { s with pending := rest } ≠ none := he
  rw [step_writesCmd hwrites, accept_illegal_recorded he' ((illegalWord_iff w).mp hillegal)]

end Sys2Proof.Proofs
end

section
/-! Family 60_exceptions: the configuration check (R243). A chain of tests answers as the list of its conditions
says, one test at a time; the model's chain is the table's list. -/

namespace Sys2Proof.Machine
open Sys2Proof.Claims

/-- The answer is the error of the first condition of the list that fails, or none if none does (R243). -/
structure AnswersFirst (answer : Option ErrKind) (checks : List (Prop × ErrKind)) : Prop where
  some_iff : ∀ k, answer = some k ↔ firstFailing checks k
  none_iff : answer = none ↔ ∀ c ∈ checks, ¬ c.1

theorem AnswersFirst.nil : AnswersFirst none [] :=
  ⟨fun _ => iff_of_false nofun id, iff_of_true rfl nofun⟩

/-- One more test in front of a chain; `fails` is the list's spelling of it. -/
theorem AnswersFirst.cons {test fails : Prop} [Decidable test] (htest : test ↔ fails) (e : ErrKind)
    {answer : Option ErrKind} {checks : List (Prop × ErrKind)} (h : AnswersFirst answer checks) :
    AnswersFirst (if test then some e else answer) ((fails, e) :: checks) := by
  by_cases hf : fails
  · rw [if_pos (htest.mpr hf)]
    exact ⟨fun k => by simp [firstFailing, hf], by simp [hf]⟩
  · rw [if_neg (mt htest.mp hf)]
    exact ⟨fun k => by simp [firstFailing, hf, h.some_iff k], by simp [hf, h.none_iff]⟩

/-- R243's third condition: a side fails when it is no power of two, below 2 or above MAX_BLOCK_DIM. -/
theorem sides_fail_iff (s : State) : ¬ (s.sideOk s.bw.toNat && s.sideOk s.bh.toNat) = true ↔
    ¬ isPowerOfTwo s.bw.toNat ∨ ¬ isPowerOfTwo s.bh.toNat ∨ s.bw.toNat < 2 ∨ s.bh.toNat < 2 ∨
      s.params.maxBlockDim < s.bw.toNat ∨ s.params.maxBlockDim < s.bh.toNat := by
  rw [Bool.and_eq_true, State.sideOk_iff, State.sideOk_iff]
  unfold isPowerOfTwo
  simp only [← not_le]
  tauto

/-- The model's nine tests are R243's conditions in their order; the third is the only one spelled differently. -/
theorem configCheck_answersFirst (s : State) : AnswersFirst (configCheck s) (configChecks s) :=
  .cons .rfl _ <| .cons .rfl _ <| .cons (sides_fail_iff s) _ <| .cons .rfl _ <| .cons .rfl _ <| .cons .rfl _ <|
    .cons .rfl _ <| .cons .rfl _ <| .cons .rfl _ .nil

end Sys2Proof.Machine

namespace Sys2Proof.Proofs
open Sys2Proof.Machine

/-- Settles O15: the check's chain of tests answers the table's first failing condition (`configCheck_answersFirst`),
and a command whose check fails is that error's record (`runCommand_of_some`). -/
theorem configCheckIsTheNineChecksInOrder : Obligations.ConfigCheckIsTheNineChecksInOrder := by
  unfold Obligations.ConfigCheckIsTheNineChecksInOrder
  refine ⟨fun s => ?_, fun i s k hnop hclear hk => ?_⟩
  · obtain ⟨hsome, hnone⟩ := configCheck_answersFirst s
    exact ⟨hsome, hnone⟩
  · rw [exec_eq_runCommand hnop hclear, runCommand_of_some _ hk]
    exact ⟨fun hnone => by rw [State.raise_of_none k hnone], fun he => by rw [State.raise_of_some k he]⟩

end Sys2Proof.Proofs
end

section
/-! Family 60_exceptions: the error record of a command (R245). No command's body touches it but CLEAR_ERR's; what
records an error is the ending, and it keeps the first. -/

namespace Sys2Proof.Machine

/-- The two states have one error record. -/
def sameErrorRecord (s t : State) : Prop := t.errCode = s.errCode ∧ t.errOp = s.errOp

theorem bodySelectMb_sameErrorRecord (s : State) : sameErrorRecord s (bodySelectMb s).state := by
  rcases bodySelectMb_state s with e | ⟨-, -, a, f, o, -, e | ⟨e0, e1, e2, x, er, sel, -, e⟩⟩ <;>
    (rw [e]; exact ⟨rfl, rfl⟩)

theorem bodyDecodeMb_sameErrorRecord (s : State) : sameErrorRecord s (bodyDecodeMb s).state := by
  rcases bodyDecodeMb_state s with e | ⟨-, -, x, m, i, e, -⟩ <;> (rw [e]; exact ⟨rfl, rfl⟩)

/-- A command's body leaves the error record, whichever way it ends: its shape does not list ERRCODE or ERROP. -/
theorem bodyOf_sameErrorRecord {i : Instr} (hclear : i ≠ .clearErr) (s : State) :
    sameErrorRecord s (bodyOf i s).state := by
  cases i with
  | nop => exact ⟨rfl, rfl⟩
  | rangeMinmax => obtain ⟨r, e⟩ := bodyRangeMinmax_state s; rw [bodyOf, e]; exact ⟨rfl, rfl⟩
  | rangeLinear => obtain ⟨r, e⟩ := bodyRangeLinear_state s; rw [bodyOf, e]; exact ⟨rfl, rfl⟩
  | rangeRegress => obtain ⟨r, e⟩ := bodyRangeRegress_state s; rw [bodyOf, e]; exact ⟨rfl, rfl⟩
  | quantize => obtain ⟨x, p, d, e⟩ := bodyQuantize_state s; rw [bodyOf, e]; exact ⟨rfl, rfl⟩
  | dequantize k => obtain ⟨p, e⟩ := bodyDequantize_state k s; rw [bodyOf, e]; exact ⟨rfl, rfl⟩
  | dequantizeSt k => rcases bodyDequantizeSt_state k s with e | ⟨-, -, p, e⟩ <;> (rw [bodyOf, e]; exact ⟨rfl, rfl⟩)
  | packCtrl => obtain ⟨a, f, o, e, -⟩ := bodyPackCtrl_state s; rw [bodyOf, e]; exact ⟨rfl, rfl⟩
  | unpackCtrl => obtain ⟨r, j, e, -⟩ := bodyUnpackCtrl_state s; rw [bodyOf, e]; exact ⟨rfl, rfl⟩
  | packIdx k => obtain ⟨a, f, o, e, -⟩ := bodyPackIdx_state k s; rw [bodyOf, e]; exact ⟨rfl, rfl⟩
  | packFlush => obtain ⟨a, f, o, e⟩ := flush_state s; rw [bodyOf, e]; exact ⟨rfl, rfl⟩
  | unpackIdx => obtain ⟨x, a, v, j, e, -⟩ := bodyUnpackIdx_state s; rw [bodyOf, e]; exact ⟨rfl, rfl⟩
  | unpackAlign => exact ⟨rfl, rfl⟩
  | sizetabClear => exact ⟨rfl, rfl⟩
  | sizetabWrite k => rcases bodySizetabWrite_state k s with e | ⟨-, -, -, e⟩ <;> (rw [bodyOf, e]; exact ⟨rfl, rfl⟩)
  | sizetabRead => obtain ⟨x, e⟩ := bodySizetabRead_state s; rw [bodyOf, e]; exact ⟨rfl, rfl⟩
  | sizetabLoad => obtain ⟨bs, j, e, -⟩ := bodySizetabLoad_state s; rw [bodyOf, e]; exact ⟨rfl, rfl⟩
  | selectMb => exact bodySelectMb_sameErrorRecord s
  | decodeMb => exact bodyDecodeMb_sameErrorRecord s
  | clearErr => exact absurd rfl hclear

/-- From `s` to `t` the error record stayed, or it was empty and the running command's error is its first (R245). -/
def keepsFirstError (s t : State) : Prop :=
  sameErrorRecord s t ∨ (s.errCode = none ∧ t.errCode ≠ none ∧ t.errOp = s.cmd.byte0)

/-- Recording an error keeps the first one (R245). -/
theorem keepsFirstError_raise {s t : State} (hcmd : t.cmd = s.cmd) (h : keepsFirstError s t) (k : ErrKind) :
    keepsFirstError s (t.raise k) := by
  by_cases hnone : t.errCode = none
  · rw [State.raise_of_none k hnone]
    rcases h with ⟨hcode, -⟩ | ⟨-, he, -⟩
    · exact .inr ⟨hcode.symm.trans hnone, nofun, congrArg (·.byte0) hcmd⟩
    · exact absurd hnone he
  · rwa [State.raise_of_some k hnone]

theorem exec_keepsFirstError {i : Instr} {s t : State} (hclear : i ≠ .clearErr) (e : exec i s = .next t) :
    keepsFirstError s t := by
  obtain ⟨-, hcmd, -⟩ := (bodyOf_writesOnlyNamed i s).setup
  obtain ⟨-, h⟩ := exec_keeps (P := fun u => u.cmd = s.cmd ∧ keepsFirstError s u) e ⟨rfl, .inl ⟨rfl, rfl⟩⟩
    ⟨hcmd, .inl (bodyOf_sameErrorRecord hclear s)⟩
    fun u k ⟨hu, h⟩ => ⟨(u.raise_cmd k).trans hu, keepsFirstError_raise hu h k⟩
  exact h

end Sys2Proof.Machine

namespace Sys2Proof.Proofs
open Sys2Proof.Machine

/-- Settles O16: a command but CLEAR_ERR leaves the error record or makes the first one (`exec_keepsFirstError`), and
CLEAR_ERR leaves none. -/
theorem firstErrorIsKept : Obligations.FirstErrorIsKept := by
  unfold Obligations.FirstErrorIsKept
  intro i s t e
  by_cases hclear : i = .clearErr
  · subst hclear
    rw [exec_clearErr] at e
    cases e
    exact ⟨fun _ h => absurd rfl h, fun _ h => absurd rfl h, fun _ _ h => absurd rfl h⟩
  · rcases exec_keepsFirstError hclear e with ⟨hcode, hop⟩ | ⟨hnone, he, hop⟩
    · exact ⟨fun _ _ => ⟨hcode, hop⟩, fun hs ht => absurd (hcode.trans hs) ht, fun _ _ _ => hop⟩
    · exact ⟨fun hs => absurd hnone hs, fun _ _ => hop, fun _ ht => absurd ht he⟩

end Sys2Proof.Proofs
end

section
/-! Family 60_exceptions: what a command may raise (R241). The errors of a result, through sequencing, the operand
checks and the streams, up to the bodies. -/

namespace Sys2Proof.Machine
open Sys2Proof.Claims

/-- If the result raised, its error is one of the list. -/
def Result.raisesOnly {α : Type} (r : Result α) (ks : List ErrKind) : Prop :=
  ∀ k s, r = .raised k s → k ∈ ks

variable {ks : List ErrKind}

theorem raisesOnly_ok {α : Type} (a : α) (s : State) : (Result.ok a s).raisesOnly ks := by
  intro _ _ e
  cases e

theorem raisesOnly_raised {α : Type} {k : ErrKind} (hk : k ∈ ks) (s : State) :
    (Result.raised k s : Result α).raisesOnly ks := by
  intro _ _ e
  cases e
  exact hk

/-- A sequence raises what its parts raise. -/
theorem Result.raisesOnly.bind {α β : Type} {r : Result α} {f : α → State → Result β} (hr : r.raisesOnly ks)
    (hf : ∀ a s, (f a s).raisesOnly ks) : (r.bind f).raisesOnly ks := by
  cases r with
  | ok a s => exact hf a s
  | raised k s => exact raisesOnly_raised (hr k s rfl) s

/-! ### Operand checks raise InvalidArgument (R244) -/

/-- The two endings of an operand's check, as the `_cases` lemma of the operand states them. -/
theorem operand_raisesOnly {α : Type} {r : Result α} {a : α} {s : State} {legal illegal : Prop}
    (harg : ErrKind.invalidArgument ∈ ks)
    (h : (r = .ok a s ∧ legal) ∨ (r = .raised .invalidArgument s ∧ illegal)) : r.raisesOnly ks := by
  rcases h with ⟨rfl, -⟩ | ⟨rfl, -⟩
  · exact raisesOnly_ok _ _
  · exact raisesOnly_raised harg _

/-! ### Short streams raise ExecutionFailure (R80, R81) -/

section
variable (hshort : ErrKind.executionFailure ∈ ks)
include hshort

theorem outWrite_raisesOnly (bs : List Byte) (s : State) : (outWrite bs s).raisesOnly ks := by
  unfold outWrite
  split
  · exact raisesOnly_ok _ _
  · exact raisesOnly_raised hshort _

theorem inRead_raisesOnly (n : Nat) (s : State) : (inRead n s).raisesOnly ks := by
  unfold inRead
  split
  · exact raisesOnly_ok _ _
  · exact raisesOnly_raised hshort _

theorem flush_raisesOnly (s : State) : (flush s).raisesOnly ks := by
  unfold flush
  split
  · exact outWrite_raisesOnly hshort _ _
  · exact raisesOnly_ok _ _

theorem packOne_raisesOnly (k : Nat) (s : State) : (packOne k s).raisesOnly ks := by
  by_cases h : s.pfill.toNat + s.qsb.toNat = 8
  · rw [packOne_of_whole h]
    exact outWrite_raisesOnly hshort _ _
  · rw [packOne_of_part h]
    exact raisesOnly_ok _ _

theorem refill_raisesOnly (s : State) : (refill s).raisesOnly ks := by
  unfold refill
  split
  · exact (inRead_raisesOnly hshort _ _).bind fun _ _ => raisesOnly_ok _ _
  · exact raisesOnly_ok _ _

theorem bodySizetabLoad_raisesOnly (s : State) : (bodySizetabLoad s).raisesOnly ks := by
  have hread := inRead_raisesOnly hshort s.tabLen s.alignIn
  unfold bodySizetabLoad
  split
  · exact raisesOnly_ok _ _
  · next k t h => exact raisesOnly_raised (hread k t h) _

theorem decodeMicro_raisesOnly (b : Block) (s : State) : (decodeMicro b s).raisesOnly ks :=
  (inRead_raisesOnly hshort _ _).bind fun _ _ => (inRead_raisesOnly hshort _ _).bind fun _ _ => raisesOnly_ok _ _

theorem decodeMicros_raisesOnly (bs : List Block) : ∀ s : State, (decodeMicros bs s).raisesOnly ks := by
  induction bs with
  | nil => exact raisesOnly_ok _
  | cons b bs ih => exact fun s => (decodeMicro_raisesOnly hshort b s).bind fun _ => ih

end

/-! ### The bodies -/

theorem bodyRangeRegress_raisesOnly (s : State) : (bodyRangeRegress s).raisesOnly (errorsOf .rangeRegress) :=
  (operand_raisesOnly (by decide) (blockOperand_cases s)).bind fun b s => by
    cases regress (s.block b) with
    | none => exact raisesOnly_raised (by decide) s
    | some r => exact raisesOnly_ok _ _

theorem bodyDecodeMb_raisesOnly (s : State) : (bodyDecodeMb s).raisesOnly (errorsOf .decodeMb) :=
  (operand_raisesOnly (by decide) (macroblockOperand_cases s)).bind fun mb s => by
    dsimp only
    split
    · exact raisesOnly_raised (by decide) _
    · exact decodeMicros_raisesOnly (by decide) _ _

/-- Each body raises only what R241 lists for its command. -/
theorem bodyOf_raisesOnly (i : Instr) (s : State) : (bodyOf i s).raisesOnly (errorsOf i) := by
  cases i with
  | nop => exact raisesOnly_ok _ _
  | rangeMinmax => exact (operand_raisesOnly (by decide) (blockOperand_cases s)).bind fun _ _ => raisesOnly_ok _ _
  | rangeLinear => exact (operand_raisesOnly (by decide) (blockOperand_cases s)).bind fun _ _ => raisesOnly_ok _ _
  | rangeRegress => exact bodyRangeRegress_raisesOnly s
  | quantize => exact (operand_raisesOnly (by decide) (pixelOperand_cases s)).bind fun _ _ => raisesOnly_ok _ _
  | dequantize k =>
    exact (operand_raisesOnly (by simp [errorsOf]) (indexOperand_cases k s)).bind fun _ _ => raisesOnly_ok _ _
  | dequantizeSt k =>
    exact (operand_raisesOnly (by simp [errorsOf]) (indexOperand_cases k s)).bind fun _ s =>
      (operand_raisesOnly (by simp [errorsOf]) (pixelOperand_cases s)).bind fun _ _ => raisesOnly_ok _ _
  | packCtrl => exact (flush_raisesOnly (by decide) s).bind fun _ _ => outWrite_raisesOnly (by decide) _ _
  | unpackCtrl => exact (inRead_raisesOnly (by decide) 4 _).bind fun _ _ => raisesOnly_ok _ _
  | packIdx k =>
    exact (operand_raisesOnly (by simp [errorsOf]) (indexOperand_cases k s)).bind
      (packOne_raisesOnly (by simp [errorsOf]))
  | packFlush => exact flush_raisesOnly (by decide) s
  | unpackIdx => exact (refill_raisesOnly (by decide) s).bind fun _ _ => raisesOnly_ok _ _
  | unpackAlign => exact raisesOnly_ok _ _
  | sizetabClear => exact raisesOnly_ok _ _
  | sizetabWrite k =>
    exact (operand_raisesOnly (by simp [errorsOf]) (macroblockOperand_cases s)).bind fun _ s =>
      (operand_raisesOnly (by simp [errorsOf]) (codeOperand_cases k s)).bind fun _ _ => raisesOnly_ok _ _
  | sizetabRead => exact (operand_raisesOnly (by decide) (macroblockOperand_cases s)).bind fun _ _ => raisesOnly_ok _ _
  | sizetabLoad => exact bodySizetabLoad_raisesOnly (by decide) s
  | selectMb =>
    exact (operand_raisesOnly (by decide) (macroblockOperand_cases s)).bind fun _ s =>
      (flush_raisesOnly (by decide) s).bind fun _ _ => outWrite_raisesOnly (by decide) _ _
  | decodeMb => exact bodyDecodeMb_raisesOnly s
  | clearErr => exact raisesOnly_ok _ _

/-- With no error recorded before, a body's state has none. -/
theorem bodyOf_errCode_none {i : Instr} {s : State} (hnone : s.errCode = none) :
    (bodyOf i s).state.errCode = none := by
  by_cases hclear : i = .clearErr
  · rw [hclear]
    rfl
  · exact (bodyOf_sameErrorRecord hclear s).1.trans hnone

end Sys2Proof.Machine

namespace Sys2Proof.Proofs
open Sys2Proof.Machine

/-- Settles O17: with the configuration passed, the error a command leaves is the one its body raised
(`bodyOf_errCode_none`), and a body raises only what the table lists (`bodyOf_raisesOnly`). -/
theorem commandsRaiseOnlyListedErrors : Obligations.CommandsRaiseOnlyListedErrors := by
  unfold Obligations.CommandsRaiseOnlyListedErrors
  intro i s t k hc hnone e hk
  have hbody := bodyOf_errCode_none (i := i) hnone
  rcases exec_cases e with ⟨k', -, -, hfail, -⟩ | ⟨hb, -⟩ | ⟨k', u, -, hb, rfl⟩
  · exact absurd (hc.symm.trans hfail) nofun
  · rw [hb, Result.state_ok, hk] at hbody
    cases hbody
  · rw [hb, Result.state_raised] at hbody
    rw [State.raise_of_none k' hbody] at hk
    cases hk
    exact bodyOf_raisesOnly i s k u hb

end Sys2Proof.Proofs
end

section
/-! Family 60_exceptions: the error record over the host's moves (R242, R246). Only the word of CLEAR_ERR and reset end
a recorded error. -/

namespace Sys2Proof.Machine
open Sys2Proof.Claims

theorem opcOf_eq_clearErr_iff (w : Word) : opcOf w = 0xF0 ↔ w.toNat % 256 = 0xF0 := by
  rw [← BitVec.toNat_inj, byte0_toNat]
  rfl

/-- A guarded move that ends in a next state ends in the guarded one. -/
theorem eq_of_ite_next {c : Prop} [Decidable c] {u t : State} {o : Host.Outcome State Fault Refusal}
    (e : (if c then .next u else o) = .next t) (ho : o ≠ .next t) : u = t := by
  split at e
  · cases e
    rfl
  · exact absurd e ho

/-- While an error is recorded, a word written to CMD leaves it, unless it is the word of CLEAR_ERR (R246). -/
theorem accept_sameErrorRecord {w : Word} {s t : State} (he : s.errCode ≠ none) (e : accept w s = .next t) :
    sameErrorRecord s t ∨ w = 0xF0#32 := by
  by_cases hw : ∃ i, decode w = .ok i
  · obtain ⟨i, hi⟩ := hw
    by_cases hopc : opcOf w = 0xF0
    · by_cases hclear : i = .clearErr
      · subst hclear
        exact .inr (encode_of_decode hi).symm
      · rw [accept_of_decode (.inr hopc) hi] at e
        rcases exec_keepsFirstError hclear e with h | ⟨hnone, -⟩
        · exact .inl h
        · exact absurd hnone he
    · rw [accept_of_discarded he hopc] at e
      cases e
      exact .inl ⟨rfl, rfl⟩
  · rw [accept_illegal_recorded he hw] at e
    cases e
    exact .inl ⟨rfl, rfl⟩

theorem writeReg_sameErrorRecord (off : Nat) (v : Word) (s : State) : sameErrorRecord s (writeReg off v s) := by
  obtain ⟨_, _, _, _, _, _, _, _, _, _, _, _, _, _, _, _, hwrite⟩ := writeReg_fields off v s
  rw [hwrite]
  exact ⟨rfl, rfl⟩

theorem windowWrite_sameErrorRecord {addr : Nat} {v : Word} {s t : State} (he : s.errCode ≠ none)
    (e : windowWrite addr v s = .next t) : sameErrorRecord s t ∨ (addr = s.params.coreBase ∧ v = 0xF0#32) := by
  unfold windowWrite at e
  rcases windowOffset_cases s addr with ⟨off, haddr, -, -, hoff⟩ | ⟨-, hoff⟩ | ⟨-, hoff⟩ <;>
    simp only [hoff, reduceCtorEq] at e
  split at e
  · next h0 => exact (accept_sameErrorRecord he e).imp_right fun hv => ⟨by rw [haddr, h0, Nat.add_zero], hv⟩
  · cases e
    exact .inl (writeReg_sameErrorRecord off v s)

theorem hostMove_sameErrorRecord {op : HostOp} {s t : State} (he : s.errCode ≠ none) (e : hostMove op s = .next t) :
    sameErrorRecord s t ∨ op = .write s.params.coreBase 0xF0#32 ∨ op = .reset := by
  unfold hostMove at e
  split at e
  · cases e
  cases op with
  | write addr v =>
    rcases windowWrite_sameErrorRecord he e with h | ⟨rfl, rfl⟩
    · exact .inl h
    · exact .inr (.inl rfl)
  | read addr =>
    rcases windowOffset_cases s addr with ⟨off, -, -, -, hoff⟩ | ⟨-, hoff⟩ | ⟨-, hoff⟩ <;>
      simp only [windowRead, hoff, reduceCtorEq] at e
    cases e
    exact .inl ⟨rfl, rfl⟩
  | pixWrite a b => exact .inl (eq_of_ite_next e nofun ▸ ⟨rfl, rfl⟩)
  | pixRead a => exact .inl (eq_of_ite_next e nofun ▸ ⟨rfl, rfl⟩)
  | tabWrite k b => exact .inl (eq_of_ite_next e nofun ▸ ⟨rfl, rfl⟩)
  | tabRead k => exact .inl (eq_of_ite_next e nofun ▸ ⟨rfl, rfl⟩)
  | outAttach o => exact .inl (eq_of_ite_next e nofun ▸ ⟨rfl, rfl⟩)
  | outRead => cases e; exact .inl ⟨rfl, rfl⟩
  | inAttach i => exact .inl (eq_of_ite_next e nofun ▸ ⟨rfl, rfl⟩)
  | inRead => cases e; exact .inl ⟨rfl, rfl⟩
  | reset => exact .inr (.inr rfl)

end Sys2Proof.Machine

namespace Sys2Proof.Proofs
open Sys2Proof.Machine

/-- Settles O5: a word with another OPC is discarded (`accept_of_discarded`), and of the host's moves only the two named
reach a recorded error (`hostMove_sameErrorRecord`). -/
theorem errorDiscardsCommands : Obligations.ErrorDiscardsCommands := by
  unfold Obligations.ErrorDiscardsCommands
  refine ⟨fun s w rest hwrites he hopc => ?_, fun s t he e => ?_⟩
  · have he' : State.errCode { s with pending := rest } ≠ none := he
    rw [step_writesCmd hwrites, accept_of_discarded he' (mt (opcOf_eq_clearErr_iff w).mp hopc)]
  · cases hp : s.pending with
    | nil =>
      rw [step_idle hp] at e
      cases e
      exact .inl ⟨rfl, rfl⟩
    | cons op rest =>
      rw [step_cons hp] at e
      have he' : State.errCode { s with pending := rest } ≠ none := he
      rcases hostMove_sameErrorRecord he' e with h | rfl | rfl
      · exact .inl h
      · exact .inr (.inl ⟨rest, rfl⟩)
      · exact .inr (.inr ⟨rest, rfl⟩)

/-- Settles O4: a legal word that is not discarded runs its command (`accept_of_decode`), and with no move to come the
step is idle (`step_idle`). -/
theorem stepRunsTheDecodedCommand : Obligations.StepRunsTheDecodedCommand := by
  unfold Obligations.StepRunsTheDecodedCommand
  refine ⟨fun s w rest i hwrites hi h => ?_, fun s hp => step_idle hp⟩
  rw [step_writesCmd hwrites]
  exact accept_of_decode (h.imp_right (opcOf_eq_clearErr_iff w).mpr) hi

end Sys2Proof.Proofs
end

section
/-! Family 70_reset_and_hazards: reset (R270, R271, R273). What a reset leaves in the window, in the memories and in the
streams, and a core that is not configured. -/

namespace Sys2Proof.Machine
open Sys2Proof.Claims

/-! ### Reset -/

theorem hostMove_of_busy {s : State} (hb : s.busy = true) (op : HostOp) :
    hostMove op s = .refused .accessWhileBusy := by
  unfold hostMove
  exact if_pos hb

theorem hostMove_reset {s : State} (hb : s.busy = false) : hostMove .reset s = .next s.resetEvent := by
  unfold hostMove
  exact if_neg (by simp [hb])

theorem readReg_reset (off : Nat) : readReg State.reset off = 0 := by
  unfold readReg
  split <;> rfl

/-- A reset event leaves the registers as the start state has them (R270). -/
theorem readReg_resetEvent (s : State) (off : Nat) : readReg s.resetEvent off = 0 :=
  readReg_reset off

/-! ### Reserved fields (R31) -/

/-- Where at each field the register or the mask is 0, the mask reads 0. -/
theorem append_and_append_eq_zero {m n : Nat} {a c : BitVec m} {b d : BitVec n} (hhigh : a &&& c = 0)
    (hlow : b &&& d = 0) : (a ++ b) &&& (c ++ d) = 0 := by
  rw [BitVec.and_append, hhigh, hlow]
  exact BitVec.zero_append_zero

theorem statusWord_reserved (s : State) : s.statusWord &&& 0x7FFF00F8#32 = 0 :=
  append_and_append_eq_zero (c := 0#1) (d := 0x7FFF00F8#31) BitVec.and_zero <|
    append_and_append_eq_zero (c := 0x7FFF#15) (d := 0xF8#16) BitVec.zero_and <|
      append_and_append_eq_zero (c := 0#8) (d := 0xF8#8) BitVec.and_zero <|
        append_and_append_eq_zero (c := 0x1F#5) (d := 0#3) BitVec.zero_and BitVec.and_zero

theorem cfg0Word_reserved (s : State) : s.cfg0Word &&& 0xFFFF0000#32 = 0 :=
  append_and_append_eq_zero (c := 0xFFFF#16) (d := 0#16) BitVec.zero_and BitVec.and_zero

theorem pixelWord_reserved (p : Pixel) : p.toWord &&& 0xFF000000#32 = 0 :=
  append_and_append_eq_zero (c := 0xFF#8) (d := 0#24) BitVec.zero_and BitVec.and_zero

theorem resIdxWord_reserved (s : State) : s.resIdxWord &&& 0xFFFFFF00#32 = 0 :=
  append_and_append_eq_zero (c := 0xFFFFFF#24) (d := 0#8) BitVec.zero_and BitVec.and_zero

theorem pkstateWord_reserved (s : State) : s.pkstateWord &&& 0xF000F000#32 = 0 :=
  append_and_append_eq_zero (c := 0xF#4) (d := 0xF000#28) BitVec.zero_and <|
    append_and_append_eq_zero (c := 0#4) (d := 0xF000#24) BitVec.and_zero <|
      append_and_append_eq_zero (c := 0#8) (d := 0xF000#16) BitVec.and_zero <|
        append_and_append_eq_zero (c := 0xF#4) (d := 0#12) BitVec.zero_and BitVec.and_zero

theorem readReg_reserved (s : State) : ∀ om ∈ reservedFields, readReg s om.1 &&& om.2 = 0 := by
  simp only [reservedFields, List.forall_mem_cons]
  exact ⟨statusWord_reserved s, cfg0Word_reserved s, pixelWord_reserved s.rmin, pixelWord_reserved s.rmax,
    resIdxWord_reserved s, pixelWord_reserved s.resPix, pkstateWord_reserved s, nofun⟩

/-! ### The core before its configuration -/

/-- A legal word's OPC is its command's (R100). -/
theorem opcOf_of_decode {w : Word} {i : Instr} (h : decode w = .ok i) : opcOf w = i.opcode := by
  obtain ⟨hopc, -, -⟩ := encode_fields i (wf_of_decode h)
  rwa [encode_of_decode h] at hopc

/-- QSB = 0 fails the first check of R243. -/
theorem configCheck_of_qsb_zero {s : State} (h : s.qsb = 0) : configCheck s = some .invalidArgument := by
  have hqsb : s.qsb.toNat ∉ Config.legalQsb := by rw [h]; decide
  unfold configCheck
  exact if_pos hqsb

end Sys2Proof.Machine

namespace Sys2Proof.Proofs
open Sys2Proof.Machine Sys2Proof.Claims

/-- Settles O60: nothing is written, attached, packed or recorded in the start state, and R6's defaults are legal. -/
theorem resetHasTheInvariant : Obligations.ResetHasTheInvariant := by
  unfold Obligations.ResetHasTheInvariant
  exact ⟨by decide, ⟨.nil, nofun, .nil, nofun⟩, ⟨le_rfl, le_rfl⟩, packerOk_of_empty rfl rfl,
    ⟨dvd_zero _, Nat.zero_le _⟩, fun _ => rfl, rfl⟩

/-- Settles O8: the registers of the start state and of a reset event's state read 0 (`readReg_reset`,
`readReg_resetEvent`), and each reserved field is a zero of its register's word (`readReg_reserved`). -/
theorem resetLeavesRegistersZero : Obligations.ResetLeavesRegistersZero := by
  unfold Obligations.ResetLeavesRegistersZero
  refine ⟨readReg_reset, readReg_reserved, fun s rest hbusy hp => ?_⟩
  rw [step_cons hp, hostMove_reset (s := { s with pending := rest }) hbusy]
  exact ⟨_, rfl, readReg_resetEvent _, rfl, rfl, rfl, rfl, rfl, rfl⟩

/-- Settles O9: a reset that has a next state is the reset event (`hostMove_reset`), which keeps PIXMEM's list of bytes
and empties TAB's. -/
theorem resetKeepsMemoriesAndStreams : Obligations.ResetKeepsMemoriesAndStreams := by
  unfold Obligations.ResetKeepsMemoriesAndStreams
  refine ⟨⟨rfl, rfl, rfl, rfl⟩, fun s t rest hp e => ?_⟩
  rw [step_cons hp] at e
  cases hbusy : s.busy with
  | true =>
    rw [hostMove_of_busy (s := { s with pending := rest }) hbusy] at e
    cases e
  | false =>
    rw [hostMove_reset (s := { s with pending := rest }) hbusy] at e
    cases e
    exact ⟨fun _ => rfl, rfl, rfl, rfl, rfl, rfl⟩

/-- Settles O10: QSB = 0 fails the configuration check (`configCheck_of_qsb_zero`), whose error the command records with
the word's OPC (`opcOf_of_decode`). -/
theorem unconfiguredCoreRefusesCommands : Obligations.UnconfiguredCoreRefusesCommands := by
  unfold Obligations.UnconfiguredCoreRefusesCommands
  refine ⟨rfl, fun s w rest i hwrites hnone hqsb hi hnop hclear => ?_⟩
  have hbefore : State.errCode { s with pending := rest } = none := hnone
  have hstored : State.errCode { s with pending := rest, cmd := w } = none := hnone
  have hcheck := configCheck_of_qsb_zero (s := { s with pending := rest, cmd := w }) hqsb
  rw [step_writesCmd hwrites, accept_of_decode (.inl hbefore) hi, exec_eq_runCommand hnop hclear,
    runCommand_of_some _ hcheck, State.raise_of_none _ hstored, ← opcOf_of_decode hi]

end Sys2Proof.Proofs
end

section
/-! Family 70_reset_and_hazards: the host's moves that stop the machine (R282). A fault names an address that does not
exist, a refusal a move the spec does not give; a command has no part in either. -/

namespace Sys2Proof.Machine

/-- A guarded move ends in a next state, or as its guard's failure does. -/
theorem guarded_ends {c : Prop} [Decidable c] (t : State) (o : Host.Outcome State Fault Refusal) :
    (∃ u, (if c then .next t else o) = .next u) ∨ (¬ c ∧ (if c then .next t else o) = o) := by
  by_cases hc : c
  · exact .inl ⟨t, if_pos hc⟩
  · exact .inr ⟨hc, if_neg hc⟩

/-- A window access at `addr` is no access to this core's registers, and `r` says why (R31, R76). -/
def windowRefuses (s : State) (addr : Nat) (r : Refusal) : Prop :=
  ((addr < s.params.coreBase ∨ s.params.coreBase + 256 ≤ addr) ∧ r = .outsideWindow addr) ∨
  ((addr - s.params.coreBase) % 4 ≠ 0 ∧ r = .windowMisaligned addr)

/-- A window write stops only for its address: at CMD it runs a command, which completes. -/
theorem windowWrite_ends (addr : Nat) (v : Word) (s : State) :
    (∃ t, windowWrite addr v s = .next t) ∨ ∃ r, windowWrite addr v s = .refused r ∧ windowRefuses s addr r := by
  unfold windowWrite
  rcases windowOffset_cases s addr with ⟨off, -, -, -, hoff⟩ | ⟨h, hoff⟩ | ⟨h, hoff⟩ <;> rw [hoff]
  · refine .inl ?_
    dsimp only
    split
    · exact accept_completes v s
    · exact ⟨_, rfl⟩
  · exact .inr ⟨_, rfl, .inl ⟨h, rfl⟩⟩
  · exact .inr ⟨_, rfl, .inr ⟨h, rfl⟩⟩

theorem windowRead_ends (addr : Nat) (s : State) :
    (∃ t, windowRead addr s = .next t) ∨ ∃ r, windowRead addr s = .refused r ∧ windowRefuses s addr r := by
  unfold windowRead
  rcases windowOffset_cases s addr with ⟨off, -, -, -, hoff⟩ | ⟨h, hoff⟩ | ⟨h, hoff⟩ <;> rw [hoff]
  · exact .inl ⟨_, rfl⟩
  · exact .inr ⟨_, rfl, .inl ⟨h, rfl⟩⟩
  · exact .inr ⟨_, rfl, .inr ⟨h, rfl⟩⟩

/-- The moves that fault (R71, R74). -/
inductive MoveFaults (s : State) : HostOp → Fault → Prop
  | pixRead {a : Nat} (h : s.params.pixmemCap ≤ a) : MoveFaults s (.pixRead a) (.pixmemAbsent a)
  | pixWrite {a : Nat} {b : Byte} (h : s.params.pixmemCap ≤ a) : MoveFaults s (.pixWrite a b) (.pixmemAbsent a)
  | tabRead {k : Nat} (h : s.params.sizetabCap ≤ k) : MoveFaults s (.tabRead k) (.tabAbsent k)
  | tabWrite {k : Nat} {b : Byte} (h : s.params.sizetabCap ≤ k) : MoveFaults s (.tabWrite k b) (.tabAbsent k)

/-- The moves that are refused while the core is not busy (R31, R76, R80, R81). -/
inductive MoveRefused (s : State) : HostOp → Refusal → Prop
  | read {addr : Nat} {r : Refusal} (h : windowRefuses s addr r) : MoveRefused s (.read addr) r
  | write {addr : Nat} {v : Word} {r : Refusal} (h : windowRefuses s addr r) : MoveRefused s (.write addr v) r
  | outAttach {o : OutStream} (h : o.cap < o.bytes.length) : MoveRefused s (.outAttach o) .illFormedStream
  | inAttach {i : InStream} (h : i.bytes.length < i.cur) : MoveRefused s (.inAttach i) .illFormedStream

/-- Every way a host's move can end (R84, R282). -/
theorem hostMove_ends (op : HostOp) (s : State) :
    (∃ t, hostMove op s = .next t) ∨
    (∃ f, hostMove op s = .fault f ∧ s.busy = false ∧ MoveFaults s op f) ∨
    (∃ r, hostMove op s = .refused r ∧ ((s.busy = true ∧ r = .accessWhileBusy) ∨ MoveRefused s op r)) := by
  unfold hostMove
  cases hbusy : s.busy with
  | true => exact .inr (.inr ⟨_, rfl, .inl ⟨rfl, rfl⟩⟩)
  | false =>
    cases op with
    | write addr v =>
      exact (windowWrite_ends addr v s).imp_right fun ⟨r, e, h⟩ => .inr ⟨r, e, .inr (.write h)⟩
    | read addr => exact (windowRead_ends addr s).imp_right fun ⟨r, e, h⟩ => .inr ⟨r, e, .inr (.read h)⟩
    | pixWrite a b =>
      exact (guarded_ends _ _).imp_right fun ⟨h, e⟩ => .inl ⟨_, e, rfl, .pixWrite (Nat.le_of_not_lt h)⟩
    | pixRead a =>
      exact (guarded_ends _ _).imp_right fun ⟨h, e⟩ => .inl ⟨_, e, rfl, .pixRead (Nat.le_of_not_lt h)⟩
    | tabWrite k b =>
      exact (guarded_ends _ _).imp_right fun ⟨h, e⟩ => .inl ⟨_, e, rfl, .tabWrite (Nat.le_of_not_lt h)⟩
    | tabRead k =>
      exact (guarded_ends _ _).imp_right fun ⟨h, e⟩ => .inl ⟨_, e, rfl, .tabRead (Nat.le_of_not_lt h)⟩
    | outAttach o =>
      exact (guarded_ends _ _).imp_right fun ⟨h, e⟩ => .inr ⟨_, e, .inr (.outAttach (Nat.lt_of_not_le h))⟩
    | outRead => exact .inl ⟨_, rfl⟩
    | inAttach i =>
      exact (guarded_ends _ _).imp_right fun ⟨h, e⟩ => .inr ⟨_, e, .inr (.inAttach (Nat.lt_of_not_le h))⟩
    | inRead => exact .inl ⟨_, rfl⟩
    | reset => exact .inl ⟨_, rfl⟩

end Sys2Proof.Machine

namespace Sys2Proof.Proofs
open Sys2Proof.Machine

/-- Settles O6: a step is idle or takes the host's next move, and the moves that fault or are refused are those listed
(`hostMove_ends`); a write to CMD is not among them, as every command completes (`accept_completes`). -/
theorem stepStopsOnlyOnHostErrors : Obligations.StepStopsOnlyOnHostErrors := by
  unfold Obligations.StepStopsOnlyOnHostErrors
  intro s
  cases hp : s.pending with
  | nil =>
    rw [step_idle hp]
    exact ⟨nofun, nofun⟩
  | cons op rest =>
    rw [step_cons hp]
    refine ⟨fun f e => ?_, fun r e => ?_⟩
    · rcases hostMove_ends op { s with pending := rest } with ⟨t, e'⟩ | ⟨f', e', hbusy, h⟩ | ⟨r, e', -⟩ <;>
        rw [e'] at e <;> cases e
      refine ⟨hbusy, ?_⟩
      cases h with
      | pixRead h => exact .inl ⟨_, rest, .inl rfl, h, rfl⟩
      | pixWrite h => exact .inl ⟨_, rest, .inr ⟨_, rfl⟩, h, rfl⟩
      | tabRead h => exact .inr ⟨_, rest, .inl rfl, h, rfl⟩
      | tabWrite h => exact .inr ⟨_, rest, .inr ⟨_, rfl⟩, h, rfl⟩
    · rcases hostMove_ends op { s with pending := rest } with ⟨t, e'⟩ | ⟨f', e', -, -⟩ | ⟨r', e', hbusy | h⟩ <;>
        rw [e'] at e <;> cases e
      · exact .inl hbusy
      · refine .inr ?_
        cases h with
        | read h => exact .inl ⟨_, rest, .inl rfl, h⟩
        | write h => exact .inl ⟨_, rest, .inr ⟨_, rfl⟩, h⟩
        | outAttach h => exact .inr ⟨rfl, .inl ⟨_, rest, rfl, h⟩⟩
        | inAttach h => exact .inr ⟨rfl, .inr ⟨_, rest, rfl, h⟩⟩

end Sys2Proof.Proofs
end

section
/-! Family 70_reset_and_hazards: a block encoded by the fine-grained commands (R276). QUANTIZE leaves in RES_IDX what
PACK_IDX packs, and writes nothing that a later pixel's index is computed from. -/

namespace Sys2Proof.Machine
open Sys2Proof.Claims

/-- The index of the pixel at `c` against the range registers (R156). -/
def pixelIndex (s : State) (c : Nat × Nat) : Nat :=
  qindex s.params.quantArith s.stepCount s.range (s.pix c.1 c.2)

/-- The state after the host's write of a pixel's coordinates to ARG0 and QUANTIZE (R37, R156). -/
def quantizedAt (s : State) (c : Nat × Nat) : State :=
  let r := dequant s.stepCount s.range (pixelIndex s c)
  { s with
    ax := BitVec.ofNat 16 c.1, ay := BitVec.ofNat 16 c.2
    resIdx := BitVec.ofNat 8 (pixelIndex s c), resPix := r, resErr := BitVec.ofNat 32 (sq r (s.pix c.1 c.2)) }

theorem pixelIndex_le (s : State) (c : Nat × Nat) : pixelIndex s c ≤ s.stepCount := qindex_le _ _ _ _

theorem quantizedAt_resIdx {s : State} (h : ConfigOk s) (c : Nat × Nat) :
    (quantizedAt s c).resIdx.toNat = pixelIndex s c :=
  Nat.mod_eq_of_lt ((pixelIndex_le s c).trans_lt h.stepCount_lt)

theorem configCheck_quantizedAt (s : State) (c : Nat × Nat) : configCheck (quantizedAt s c) = configCheck s :=
  configCheck_congr rfl rfl rfl rfl rfl rfl rfl

/-- Quantizing some pixels in turn leaves the configuration, the error record and OUT. -/
theorem quantizedAt_foldl (cs : List (Nat × Nat)) : ∀ s : State,
    let t := cs.foldl quantizedAt s
    configCheck t = configCheck s ∧ t.errCode = s.errCode ∧ t.qsb = s.qsb ∧ t.out = s.out := by
  induction cs with
  | nil => exact fun s => ⟨rfl, rfl, rfl, rfl⟩
  | cons c cs ih => exact fun s => configCheck_quantizedAt s c ▸ ih (quantizedAt s c)

/-- A pixel of the image has coordinates that ARG0's fields hold (R37), so QUANTIZE is about that pixel. -/
theorem exec_quantize_at {s : State} (hc : configCheck s = none) {c : Nat × Nat} (hx : c.1 < s.iw.toNat)
    (hy : c.2 < s.ih.toNat) :
    exec .quantize { s with ax := BitVec.ofNat 16 c.1, ay := BitVec.ofNat 16 c.2 } = .next (quantizedAt s c) := by
  have hax : (BitVec.ofNat 16 c.1).toNat = c.1 := Nat.mod_eq_of_lt (hx.trans s.iw.isLt)
  have hay : (BitVec.ofNat 16 c.2).toNat = c.2 := Nat.mod_eq_of_lt (hy.trans s.ih.isLt)
  have hpix : pixelOk { s with ax := BitVec.ofNat 16 c.1, ay := BitVec.ofNat 16 c.2 } :=
    ⟨hax.symm ▸ hx, hay.symm ▸ hy⟩
  have hexec := exec_quantize_of_pixelOk
    (s := { s with ax := BitVec.ofNat 16 c.1, ay := BitVec.ofNat 16 c.2 }) hc hpix
  simp only [argQindex, hax, hay] at hexec
  exact hexec

/-- The commands of one pixel, then those of the pixels after it. -/
theorem packPixels_cons {c : Nat × Nat} {cs : List (Nat × Nat)} {s t u : State}
    (hquantize : exec .quantize { s with ax := BitVec.ofNat 16 c.1, ay := BitVec.ofNat 16 c.2 } = .next t)
    (hpack : exec (.packIdx t.resIdx.toNat) t = .next u) : packPixels (c :: cs) s = packPixels cs u := by
  simp only [packPixels, hquantize, hpack]

/-- QUANTIZE and PACK_IDX at each of some pixels: their indices are packed after those packed before (R195, R276). -/
theorem packPixels_packedState {s : State} (hc : configCheck s = none) {cs : List (Nat × Nat)} {ks : List Nat}
    (himage : ∀ c ∈ cs, c.1 < s.iw.toNat ∧ c.2 < s.ih.toNat)
    (hroom : outRoom s ((ks ++ cs.map (pixelIndex s)).length * s.qsb.toNat / 8)) :
    packPixels cs (packedState s ks) =
      .next (packedState (cs.foldl quantizedAt s) (ks ++ cs.map (pixelIndex s))) := by
  induction cs generalizing s ks with
  | nil =>
    rw [List.map_nil, List.append_nil]
    rfl
  | cons c cs ih =>
    obtain ⟨hx, hy⟩ := himage c (by simp)
    have hc' := (configCheck_quantizedAt s c).trans hc
    have hquantize := exec_quantize_at ((configCheck_packedState s ks).trans hc) hx hy
    have hfirst : ks ++ (c :: cs).map (pixelIndex s) = (ks ++ [pixelIndex s c]) ++ cs.map (pixelIndex s) := by
      rw [List.map_cons, List.append_cons]
    rw [hfirst] at hroom ⊢
    have hfewer : (ks ++ [pixelIndex s c]).length * s.qsb.toNat ≤
        ((ks ++ [pixelIndex s c]) ++ cs.map (pixelIndex s)).length * s.qsb.toNat :=
      Nat.mul_le_mul_right _ (by simp)
    have hone : outRoom s ((ks ++ [pixelIndex s c]).length * s.qsb.toNat / 8) := by omega
    have hpack : exec (.packIdx (quantizedAt s c).resIdx.toNat) (packedState (quantizedAt s c) ks) =
        .next (packedState (quantizedAt s c) (ks ++ [pixelIndex s c])) := by
      rw [quantizedAt_resIdx (configOk_of_none hc),
        exec_packIdx_of_le ((configCheck_packedState _ ks).trans hc') (pixelIndex_le s c),
        packOne_packedState (configOk_of_none hc') ks _ hone, Result.finish_ok]
    rw [packPixels_cons hquantize hpack]
    exact ih (s := quantizedAt s c) hc' (fun d hd => himage d (List.mem_cons_of_mem _ hd)) hroom

/-- From an empty packer, the commands of some pixels and PACK_FLUSH append the pixels' indices to OUT (R195, R276). -/
theorem packPixels_packFlush {s : State} (hc : configCheck s = none) (ha : s.pacc = 0) (hf : s.pfill = 0)
    {cs : List (Nat × Nat)} (himage : ∀ c ∈ cs, c.1 < s.iw.toNat ∧ c.2 < s.ih.toNat) :
    let bs := packIndices s.qsb.toNat (cs.map (pixelIndex s))
    outRoom s bs.length →
    ∃ u v, packPixels cs s = .next u ∧ exec .packFlush u = .next v ∧ v.errCode = s.errCode ∧ v.pacc = 0 ∧
      v.pfill = 0 ∧ v.out = ⟨s.out.bytes ++ bs, s.out.cap⟩ := by
  intro bs hroom
  obtain ⟨hconfig, hcode, hqsb, hout⟩ := quantizedAt_foldl cs s
  have hwhole : outRoom s (([] ++ cs.map (pixelIndex s)).length * s.qsb.toNat / 8) := by
    rw [packIndices_length] at hroom
    rw [List.nil_append]
    omega
  have hpixels := packPixels_packedState hc himage hwhole
  rw [packedState_nil ha hf, List.nil_append] at hpixels
  have hflush := flush_packedState (configOk_of_none (hconfig.trans hc)) (cs.map (pixelIndex s))
    (by rw [outRoom, hqsb, hout]; exact hroom)
  have hexec := exec_eq_finish (i := .packFlush) (by decide) (by decide)
    ((configCheck_packedState _ (cs.map (pixelIndex s))).trans (hconfig.trans hc))
  rw [bodyOf, hflush, Result.finish_ok] at hexec
  exact ⟨_, _, hpixels, hexec, hcode, rfl, rfl, by rw [hqsb, hout]⟩

theorem exec_packCtrl_of_room {s : State} (hc : configCheck s = none) (ha : s.pacc = 0) (hf : s.pfill = 0)
    (hroom : outRoom s (controlBytes s.rmin s.rmax).length) :
    exec .packCtrl s = .next { s with
      pacc := 0, pfill := 0, out := ⟨s.out.bytes ++ controlBytes s.rmin s.rmax, s.out.cap⟩ } := by
  have hempty : pendingByte s = [] := if_pos (by rw [hf]; rfl)
  have hpack := exec_packCtrl hc (packerOk_of_empty ha hf)
  simp only [hempty, List.nil_append, if_pos hroom, outAppend_of_room hroom] at hpack
  exact hpack

/-- The control bytes of the bounds of the block argument (R131, R191). -/
def boundsBytes (s : State) : List Byte := controlBytes (minmax (argBlock s)).mn (minmax (argBlock s)).mx

/-- The state after RANGE_MINMAX and PACK_CTRL from an empty packer: the bounds in the range registers, and their
control bytes in OUT (R131, R192). -/
def rangePacked (s : State) : State :=
  { s.setRange (minmax (argBlock s)) with pacc := 0, pfill := 0, out := ⟨s.out.bytes ++ boundsBytes s, s.out.cap⟩ }

theorem outRoom_rangePacked {s : State} {n : Nat} (h : outRoom s ((boundsBytes s).length + n)) :
    outRoom (rangePacked s) n := by
  rwa [outRoom, ← Nat.add_assoc, ← List.length_append] at h

theorem runCommands_rangeMinmax_packCtrl {s : State} (hc : configCheck s = none) (hb : blockOk s) (ha : s.pacc = 0)
    (hf : s.pfill = 0) (hroom : outRoom s (boundsBytes s).length) :
    runCommands [.rangeMinmax, .packCtrl] s = .next (rangePacked s) := by
  have hrange : runCommands [.rangeMinmax] s = .next (s.setRange (minmax (argBlock s))) := by
    rw [runCommands_singleton, exec_rangeMinmax hc hb]
  refine (runCommands_append (js := [.packCtrl]) hrange).trans ?_
  rw [runCommands_singleton]
  exact exec_packCtrl_of_room (s := s.setRange (minmax (argBlock s))) hc ha hf hroom

/-- With the default estimator and range the record is the control bytes of the bounds and the indices against them
(R171). -/
theorem encodeMicro_default {s : State} (hrange : s.params.encRange = .unpacked)
    (halt : s.params.altEstimators = false) :
    let b : Block := ⟨s.ax.toNat, s.ay.toNat, s.aw.toNat, s.ah.toNat⟩
    (s.encodeMicro b).1 = boundsBytes s ++ packIndices s.qsb.toNat (b.coords.map (pixelIndex (rangePacked s))) := by
  intro b
  have hchoose : chooseRange s.params (2 ^ s.qsb.toNat - 1) (s.block b) = minmax (s.block b) := by
    simp only [chooseRange, otherRanges, halt]
    rfl
  simp only [encodeMicro_eq, hchoose, hrange, encodeRange]
  rw [State.block, List.map_map]
  rfl

end Sys2Proof.Machine

namespace Sys2Proof.Proofs
open Sys2Proof.Machine Sys2Proof.Claims

/-- Settles O54: the first two commands put the bounds in the range registers and their control bytes in OUT
(`runCommands_rangeMinmax_packCtrl`), the others append the pixels' indices (`packPixels_packFlush`), and these are the
record's bytes (`encodeMicro_default`). -/
theorem fineGrainedEncodeMatchesTheRecord : Obligations.FineGrainedEncodeMatchesTheRecord := by
  unfold Obligations.FineGrainedEncodeMatchesTheRecord
  intro s hc hb ha hf hrange halt b hroom
  have himage : ∀ c ∈ b.coords, c.1 < s.iw.toNat ∧ c.2 < s.ih.toNat := by
    rintro ⟨x, y⟩ hxy
    obtain ⟨-, hx, -, hy⟩ := Block.mem_coords.mp hxy
    obtain ⟨-, -, -, -, hright, hbottom⟩ := hb
    exact ⟨hx.trans_le hright, hy.trans_le hbottom⟩
  rw [encodeMicro_default hrange halt, List.length_append] at hroom
  have hstart := runCommands_rangeMinmax_packCtrl hc hb ha hf (by omega)
  obtain ⟨u, v, hpixels, hflush, hcode, hacc, hfill, hout⟩ :=
    packPixels_packFlush (s := rangePacked s) hc rfl rfl himage (outRoom_rangePacked hroom)
  refine ⟨_, u, v, hstart, hpixels, hflush, hcode, hacc, hfill, ?_⟩
  rw [hout, encodeMicro_default hrange halt, ← List.append_assoc]
  rfl

end Sys2Proof.Proofs
end
